-- ==== Sys2Proof/Word.lean ====
section
/-! DEFINITION. The word type: the only access width of this hardware is one byte (20_memory.md R50). -/

namespace Sys2Proof

/-- A byte: 8 bits, unsigned (00_scope.md R14). -/
abbrev Byte := BitVec 8

end Sys2Proof
end

