-- ==== Sys2Proof/Config.lean ====
section
/-! DEFINITION. What an implementation fixes: the constants the spec gives (00_scope.md R8), the parameters it
leaves open (R9 to R12, 10_state.md R39), and the free values of the model. -/

namespace Sys2Proof

/-- SOF, start-of-frame marker, status frame byte 0 (00_scope.md R8). -/
def sof : Byte := 0xAA
/-- MODEL_STATUS, status frame byte 1 (00_scope.md R8). -/
def modelStatus : Byte := 0x0A
/-- MODEL_TEMP, temperature frame byte 2 (00_scope.md R8). -/
def modelTemp : Byte := 0x0C
/-- TEMP_LEN, temperature frame length (00_scope.md R8). -/
def tempLen : Nat := 10
/-- TEMP_MODEL_OFF, offset of the sentinel in the temperature frame (00_scope.md R8). -/
def tempModelOff : Nat := 2
/-- TEMP_VAL_OFF, offset of the value in the temperature frame (00_scope.md R8). -/
def tempValOff : Nat := 7
/-- LEN_OFF, offset of the declared payload length in the status frame (00_scope.md R8). -/
def lenOff : Nat := 2
/-- FRAME_OVERHEAD: total status frame length is L + 4 (00_scope.md R8). -/
def frameOverhead : Nat := 4
/-- HEADER_SIZE, fixed at 3 by decision D4 (00_scope.md R9). -/
def headerSize : Nat := 3
/-- VOL_DEV_MAX, top of the device volume range (00_scope.md R8). -/
def volDevMax : Nat := 43
/-- VOL_EXT_MAX, top of the external volume range (00_scope.md R8). -/
def volExtMax : Nat := 255
/-- BAUD (00_scope.md R8, 10_state.md R39): no rule of the model depends on it. -/
def baud : Nat := 57600
/-- DATA_BITS (00_scope.md R8). -/
def dataBits : Nat := 8
/-- STOP_BITS (00_scope.md R8). -/
def stopBits : Nat := 1
/-- N_INPUTS (00_scope.md R8). -/
def nInputs : Nat := 6

/-- WREG_ON_POLL_FAIL (44_driver_ops.md R208, 10_state.md R39). -/
inductive PollFailPolicy where
  | proceed
  | abort
  deriving DecidableEq, Repr

/-- RX_ERR_POLICY (30_encoding.md R72, 10_state.md R39). -/
inductive RxErrPolicy where
  | drop
  | deliver
  deriving DecidableEq, Repr

/-- The parameters of 00_scope.md R9 to R12 and 10_state.md R39, R43, "fixed for the life of a model instance".
The machine carries them in one field of its state that no step writes (log 1). -/
structure Config where
  /-- TIMEOUT, ticks (R9). -/
  timeout : Nat
  /-- DEADTIME, ticks (R9). -/
  deadtime : Nat
  /-- BUF_CAP, bytes (R9). -/
  bufCap : Nat
  /-- RX_DEPTH, bytes (R9). -/
  rxDepth : Nat
  opGetStatus : Byte
  opGetTemp : Byte
  opPwrOn : Byte
  opPwrOff : Byte
  opMuteOn : Byte
  opMuteOff : Byte
  opInputUp : Byte
  opInputDown : Byte
  opSelInputAux : Byte
  opSelInputDStereo : Byte
  opSelInputC : Byte
  opSelInputD : Byte
  opSelInputE : Byte
  opSelInputF : Byte
  opSelEffect3D : Byte
  opSelEffectNone : Byte
  /-- OP_SEL_EFFECT[e] for each further member e of EFFECTS (30_encoding.md R90), in the order of EFFECTS. -/
  opSelEffectMore : List Byte
  opDecodeOn : Byte
  opDecodeOff : Byte
  opBlockOn : Byte
  opBlockOff : Byte
  opEepromSave : Byte
  offMain : Nat
  offRear : Nat
  offCenter : Nat
  offSub : Nat
  offInput : Nat
  offMute : Nat
  offEffect : Vector Nat 6
  offSpdif : Nat
  offSignal : Nat
  offFwA : Nat
  offFwB : Nat
  offFwC : Nat
  offStandby : Nat
  offAutoStby : Nat
  fieldVersion : Byte
  fieldPower : Byte
  fieldInput : Byte
  wregOnPollFail : PollFailPolicy
  rxErrPolicy : RxErrPolicy
  resetMuted : Bool
  resetDecode : Bool
  deriving DecidableEq, Repr

/-- Every wire command opcode (00_scope.md R10). -/
def Config.opcodes (c : Config) : List Byte :=
  [c.opGetStatus, c.opGetTemp, c.opPwrOn, c.opPwrOff, c.opMuteOn, c.opMuteOff, c.opInputUp, c.opInputDown,
    c.opSelInputAux, c.opSelInputDStereo, c.opSelInputC, c.opSelInputD, c.opSelInputE, c.opSelInputF,
    c.opSelEffect3D, c.opSelEffectNone, c.opDecodeOn, c.opDecodeOff, c.opBlockOn, c.opBlockOff,
    c.opEepromSave] ++ c.opSelEffectMore

/-- The four volume offsets, which double as register opcodes and field codes (00_scope.md R12, 30_encoding.md R96). -/
def Config.volumeOffsets (c : Config) : List Nat := [c.offMain, c.offRear, c.offCenter, c.offSub]

/-- Every named payload offset (20_memory.md R56). -/
def Config.offsets (c : Config) : List Nat :=
  c.volumeOffsets ++ [c.offInput, c.offMute] ++ c.offEffect.toList ++
    [c.offSpdif, c.offSignal, c.offFwA, c.offFwB, c.offFwC, c.offStandby, c.offAutoStby]

/-- The seven special field codes (00_scope.md R12). -/
def Config.fieldCodes (c : Config) : List Nat :=
  [c.fieldVersion.toNat, c.fieldPower.toNat, c.fieldInput.toNat] ++ c.volumeOffsets

/-- What a configuration must satisfy: 00_scope.md R9 (TIMEOUT, BUF_CAP, RX_DEPTH), R10 (opcodes pairwise distinct),
20_memory.md R56 (every named field at offset 3 or more; one byte per field, read as pairwise distinct, DEDUCED, log 27),
R12 (volume codes are bytes, the seven field codes pairwise distinct). That an effect's position fits the byte of
30_encoding.md R111 follows from R10 and is written out. -/
def Config.wf (c : Config) : Bool :=
  decide (0 < c.timeout) && decide (32 ≤ c.bufCap) && decide (c.bufCap ≤ 259) &&
  decide (c.bufCap ≤ c.rxDepth + 3) && decide (tempLen ≤ c.rxDepth) && decide (headerSize + 1 ≤ c.rxDepth) &&
  decide c.opcodes.Nodup && decide c.offsets.Nodup && c.offsets.all (fun o => decide (3 ≤ o)) &&
  c.volumeOffsets.all (fun o => decide (o < 256)) && decide c.fieldCodes.Nodup &&
  decide (c.opSelEffectMore.length + 2 ≤ 256)

/-- The spec's example instantiation EX1 (95_test_vectors.md), with the parameters EX1 does not give filled in
(DESIGN CHOICE, log 1): RX_DEPTH = 64, one further effect with opcode F8, RESET_MUTED = RESET_DECODE = 0. -/
def Config.ex1 : Config where
  timeout := 1000
  deadtime := 5
  bufCap := 64
  rxDepth := 64
  opGetStatus := 0xE0
  opGetTemp := 0xE1
  opPwrOn := 0xEE
  opPwrOff := 0xEF
  opMuteOn := 0xE2
  opMuteOff := 0xE3
  opInputUp := 0xF4
  opInputDown := 0xF5
  opSelInputAux := 0xE4
  opSelInputDStereo := 0xE5
  opSelInputC := 0xE6
  opSelInputD := 0xE7
  opSelInputE := 0xE8
  opSelInputF := 0xE9
  opSelEffect3D := 0xEA
  opSelEffectNone := 0xEB
  opSelEffectMore := [0xF8]
  opDecodeOn := 0xEC
  opDecodeOff := 0xED
  opBlockOn := 0xF2
  opBlockOff := 0xF3
  opEepromSave := 0xF1
  offMain := 3
  offRear := 4
  offCenter := 5
  offSub := 6
  offInput := 7
  offMute := 8
  offEffect := #v[9, 10, 11, 12, 13, 14]
  offSpdif := 15
  offSignal := 16
  offFwA := 17
  offFwB := 18
  offFwC := 19
  offStandby := 20
  offAutoStby := 21
  fieldVersion := 0xF0
  fieldPower := 0xF6
  fieldInput := 0xF7
  wregOnPollFail := .proceed
  rxErrPolicy := .drop
  resetMuted := false
  resetDecode := false

/-- FREE VALUE (log 14): the byte read from a place that holds no value (10_state.md R43), one for each draw. -/
opaque Config.freeByte : Nat → Byte

/-- FREE VALUE (log 15): the result of READ_FIELD where the spec leaves it unspecified (44_driver_ops.md R216, R217),
one for each draw. -/
opaque Config.freeNumber : Nat → Nat

end Sys2Proof
end

