-- ==== Sys2Proof/Machine/Checksum.lean ====
section
/-! DEFINITION. Pure functions over byte sequences: the LRC and its check (40_lrc.md), the two frame validators
(42_frame_codec.md), the frame a payload makes (30_encoding.md R98), and the parity of a character (R71). -/

namespace Sys2Proof.Machine

/-- Byte i of a sequence; 0 beyond its end, where no caller of the model looks. -/
def byteAt (bs : List Byte) (i : Nat) : Byte := bs.getD i 0

/-- The bytes the LRC covers: indices 1 to n-2, an empty range for n below 3 (40_lrc.md R120, R124). -/
def lrcRange (buf : List Byte) (n : Nat) : List Byte := (buf.take (n - 1)).drop 1

/-- `LRC buf, n` (40_lrc.md R120): the accumulator starts at 0 and each covered byte is subtracted, modulo 256. -/
def lrcSum (buf : List Byte) (n : Nat) : Byte := (lrcRange buf n).foldl (fun acc b => acc - b) 0

/-- `LRC_CHECK buf, n` (40_lrc.md R122). -/
def lrcHolds (buf : List Byte) (n : Nat) : Bool := byteAt buf (n - 1) == lrcSum buf n

/-- `VALIDATE_STATUS buf, n` (42_frame_codec.md R150): the conjunction of three checks. -/
def statusValid (buf : List Byte) (n : Nat) : Bool :=
  byteAt buf 0 == sof && byteAt buf 1 == modelStatus && lrcHolds buf n

/-- `VALIDATE_TEMP buf` (42_frame_codec.md R153): only the sentinel at offset 2. -/
def tempValid (buf : List Byte) : Bool := byteAt buf tempModelOff == modelTemp

/-- A status frame without its checksum (30_encoding.md R98): start marker, model, L, payload. -/
def frameBody (payload : List Byte) : List Byte :=
  sof :: modelStatus :: BitVec.ofNat 8 payload.length :: payload

/-- The checksum of the frame a payload makes: `lrc(frame, L+4)` (30_encoding.md R98). -/
def frameChecksum (payload : List Byte) : Byte := lrcSum (frameBody payload) (payload.length + frameOverhead)

/-- The whole frame of format RS and WF that a payload makes (30_encoding.md R98). -/
def frameOf (payload : List Byte) : List Byte := frameBody payload ++ [frameChecksum payload]

/-- The temperature frame of format RT (30_encoding.md R99). -/
def tempFrameOf (x0 x1 x3 x4 x5 x6 t x8 x9 : Byte) : List Byte := [x0, x1, modelTemp, x3, x4, x5, x6, t, x8, x9]

/-- The eight data bits d0 to d7 of a byte, the least significant first (30_encoding.md R70). -/
def dataBitsOf (d : Byte) : List Bool := (List.range 8).map fun i => d.getLsbD i

/-- The parity bit of odd parity: P = 1 xor d0 xor ... xor d7 (30_encoding.md R71). -/
def oddParity (d : Byte) : Bool := (dataBitsOf d).foldl (fun p b => p ^^ b) true

/-- The eleven bits of a character in time order: `0 d0 .. d7 P 1` (30_encoding.md R70). -/
def characterBits (d : Byte) : List Bool := false :: (dataBitsOf d ++ [oddParity d, true])

end Sys2Proof.Machine
end

