-- ==== Sys2Proof/Syntax.lean ====
section
/-! DEFINITION. The syntax: operands, the one inductive `Instr` with one constructor per row of
spec/opcode_table.json, the message formats of 30_encoding.md R73 and R100, and the names of decoding errors. -/

namespace Sys2Proof

/-- The six inputs (30_encoding.md R111), in the order of the command word. -/
inductive Input where
  | aux | dstereo | inC | inD | inE | inF
  deriving DecidableEq, Repr

/-- A member of EFFECTS (30_encoding.md R88 to R90): the two named ones, and the k-th further one. -/
inductive Effect where
  | e3d
  | noEffect
  | further (k : Nat)
  deriving DecidableEq, Repr

/-- The four volume channels (30_encoding.md R96, R110). -/
inductive VolChannel where
  | main | rear | center | sub
  deriving DecidableEq, Repr

/-- The tagged field operand of READ_FIELD (30_encoding.md R110). -/
inductive Field where
  | version
  | power
  | input
  | vol (ch : VolChannel)
  /-- Any offset: "the source puts no bound on the offset" (44_driver_ops.md R215, R216). -/
  | raw (off : Nat)
  deriving DecidableEq, Repr

/-- The buffer operand of the LRC unit and of VALIDATE_STATUS: "one of `stage`, `snap`, or any byte sequence given to
the unit" (40_lrc.md R120). The temperature buffer is none of them: it is reached only by TEMP (10_state.md R27, R41). -/
inductive BufRef where
  | snap
  | stage
  | given (bs : List Byte)
  deriving DecidableEq, Repr

/-- The buffer operand of VALIDATE_TEMP: "in the block, `tmp`", or a sequence given to the unit (42_frame_codec.md
R153). -/
inductive TempRef where
  | tmp
  | given (bs : List Byte)
  deriving DecidableEq, Repr

/-- What a register opcode is the operand of (30_encoding.md R96): READ_FIELD, or WRITE_REGISTER with a value. -/
inductive VolUse where
  | read
  | write (val : Byte)
  deriving DecidableEq, Repr

/-- The two directions of the line (30_encoding.md R70: the row's space is "line, both directions"). -/
inductive LineDir where
  | inbound
  | outbound
  deriving DecidableEq, Repr

/-- The nine free bytes of a temperature frame (30_encoding.md R99); byte 2 is the sentinel. -/
structure TempFrame where
  x0 : Byte
  x1 : Byte
  x3 : Byte
  x4 : Byte
  x5 : Byte
  x6 : Byte
  /-- The temperature value, offset 7. -/
  t : Byte
  x8 : Byte
  x9 : Byte
  deriving DecidableEq, Repr

/-- One constructor per row of spec/opcode_table.json. -/
inductive Instr where
  | getStatus
  | getTemp
  | pwrOn
  | pwrOff
  | muteOn
  | muteOff
  | inputUp
  | inputDown
  | selInputAux
  | selInputDStereo
  | selInputC
  | selInputD
  | selInputE
  | selInputF
  | selEffect3D
  | selEffectNone
  /-- The k-th further effect (30_encoding.md R90). -/
  | selEffectE (k : Nat)
  | decodeOn
  | decodeOff
  | blockOn
  | blockOff
  | eepromSave
  | inputSelectSequence (inp : Input) (eff : Effect)
  | volMain (use : VolUse)
  | volRear (use : VolUse)
  | volCenter (use : VolUse)
  | volSub (use : VolUse)
  | statusFrame (payload : List Byte)
  | registerWriteFrame (payload : List Byte)
  | temperatureFrame (f : TempFrame)
  | responseByte (v : Byte)
  | uartCharacter (dir : LineDir) (d : Byte) (parity stop : Bool)
  | lrc (buf : BufRef) (n : Nat)
  | lrcStore (buf : BufRef) (n : Nat)
  | lrcCheck (buf : BufRef) (n : Nat)
  | flush
  | txWrite (bs : List Byte)
  | await (n : Nat)
  | read (n : Nat)
  | validateStatus (buf : BufRef) (n : Nat)
  | validateTemp (buf : TempRef)
  | demux
  | poll
  | temp
  | sendCommand (op : Byte)
  /-- `off` is any payload offset (44_driver_ops.md R205, 30_encoding.md R96); a frame has them up to 257. -/
  | writeRegister (off : Nat) (val : Byte)
  | readField (f : Field)
  /-- SELECT_INPUT, format H1: the effect is unspecified (44_driver_ops.md R219). -/
  | selectInput (inp : Input)
  /-- SELECT_INPUT, format H2. -/
  | selectInputEffect (inp : Input) (eff : Effect)
  | power (on : Bool)
  | muted
  | decodeMode
  | snapshot
  | currentEffect
  deriving DecidableEq, Repr

/-- The host operations' ordinals by name (30_encoding.md R100). -/
inductive Hop where
  | lrc | lrcStore | lrcCheck | flush | txWrite | await | read | validateStatus | validateTemp | demux
  | poll | temp
  | sendCommand | writeRegister | readField | selectInput | power | muted | decodeMode | snapshot | currentEffect
  deriving DecidableEq, Repr

/-- The formats of messages: those of 30_encoding.md R73, the character of R70 in each direction, a register opcode
of R96 as an operand, and the host command word of R100. "The formats carry no common type field" (R73): which one a
message has is known from where it stands, so the model tags it. -/
inductive Format where
  | w1 | w4 | wf | rs | rt | r1
  | charIn | charOut
  | reg
  | host
  deriving DecidableEq, Repr

/-- A message presented to the machine: its format, its bytes (the first is byte 0), and what is "passed beside"
a command word (30_encoding.md R100). -/
structure Message where
  fmt : Format
  word : List Byte
  beside : List Byte
  deriving DecidableEq, Repr

/-- Why a message is no instruction. -/
inductive DecodeError where
  /-- The word has no byte. -/
  | emptyWord
  /-- The ordinal is none of 30_encoding.md R100. -/
  | unknownHop (h : Byte)
  /-- The word or what is passed beside it has a length the format does not have. -/
  | badLength
  /-- The buffer code is none of those of the operand. -/
  | unknownBuffer (r : Byte)
  /-- The byte is no wire command opcode of the configuration (30_encoding.md R74 to R95). -/
  | unknownOpcode (b : Byte)
  /-- The input position is above 5 (30_encoding.md R111). -/
  | unknownInput (a : Byte)
  /-- The effect position is not in EFFECTS (30_encoding.md R111). -/
  | unknownEffect (b : Byte)
  /-- POWER's operand is neither 1 nor 0 (30_encoding.md R112). -/
  | badPowerBit (a : Byte)
  /-- The four bytes are no input-select sequence (30_encoding.md R73, format W4). -/
  | badSequence
  /-- The byte is no volume register opcode (30_encoding.md R96). -/
  | unknownRegister (r : Byte)
  /-- Start marker, model identifier or declared length of a frame is wrong (30_encoding.md R98, R99). -/
  | badFrame
  /-- The checksum of a frame is wrong (30_encoding.md R98). -/
  | badChecksum
  /-- A character without its start bit, or an outbound one the block would not send (30_encoding.md R70, R71). -/
  | badCharacter
  deriving DecidableEq, Repr

end Sys2Proof
end

