-- ==== Sys2Proof/Machine/Operands.lean ====
section
/-! DEFINITION. Operand forms: the wire opcode of an input, of an effect and of each single-byte command
(30_encoding.md R74 to R95), the default effect (44_driver_ops.md R219), volume registers and field codes
(30_encoding.md R96, R110), and the two rescalings and the version formula (44_driver_ops.md R206, R211, R214). -/

namespace Sys2Proof.Machine

/-- The six inputs in the order of the command word (30_encoding.md R111). -/
def allInputs : List Input := [.aux, .dstereo, .inC, .inD, .inE, .inF]

/-- EFFECTS in the order of the command word: E3D, ENONE, the further members (30_encoding.md R111). -/
def allEffects (c : Config) : List Effect :=
  [.e3d, .noEffect] ++ (List.range c.opSelEffectMore.length).map .further

/-- OP_SEL_INPUT[in] (30_encoding.md R82 to R87). -/
def inputOpcode (c : Config) : Input → Byte
  | .aux => c.opSelInputAux
  | .dstereo => c.opSelInputDStereo
  | .inC => c.opSelInputC
  | .inD => c.opSelInputD
  | .inE => c.opSelInputE
  | .inF => c.opSelInputF

/-- OP_SEL_EFFECT[e] (30_encoding.md R88 to R90); none where e is no member of EFFECTS. -/
def effectOpcode (c : Config) : Effect → Option Byte
  | .e3d => some c.opSelEffect3D
  | .noEffect => some c.opSelEffectNone
  | .further k => c.opSelEffectMore[k]?

/-- `default_effect(in)` (44_driver_ops.md R219). -/
def defaultEffect : Input → Effect
  | .aux => .e3d
  | .dstereo => .e3d
  | .inC => .noEffect
  | .inD => .noEffect
  | .inE => .noEffect
  | .inF => .noEffect

/-- The position of an input in the command word (30_encoding.md R111). -/
def inputIndex : Input → Nat
  | .aux => 0
  | .dstereo => 1
  | .inC => 2
  | .inD => 3
  | .inE => 4
  | .inF => 5

/-- The position of an effect in the command word (30_encoding.md R111). -/
def effectIndex : Effect → Nat
  | .e3d => 0
  | .noEffect => 1
  | .further k => k + 2

/-- The offset, register opcode and field code of a volume channel (30_encoding.md R96). -/
def volOffset (c : Config) : VolChannel → Nat
  | .main => c.offMain
  | .rear => c.offRear
  | .center => c.offCenter
  | .sub => c.offSub

/-- Whether an offset is one of the four volume offsets (44_driver_ops.md R206). -/
def isVolumeOffset (c : Config) (off : Nat) : Bool := c.volumeOffsets.contains off

/-- The field a numeric field code stands for: special first, raw otherwise (30_encoding.md R110). Any payload offset is
such a code (R96). -/
def fieldOfCode (c : Config) (a : Nat) : Field :=
  if a = c.fieldVersion.toNat then .version
  else if a = c.fieldPower.toNat then .power
  else if a = c.fieldInput.toNat then .input
  else if a = c.offMain then .vol .main
  else if a = c.offRear then .vol .rear
  else if a = c.offCenter then .vol .center
  else if a = c.offSub then .vol .sub
  else .raw a

/-- The numeric field code of a field (30_encoding.md R110). -/
def codeOfField (c : Config) : Field → Nat
  | .version => c.fieldVersion.toNat
  | .power => c.fieldPower.toNat
  | .input => c.fieldInput.toNat
  | .vol ch => volOffset c ch
  | .raw off => off

/-- `device_value = (external_value * 43) / 255`, truncating (44_driver_ops.md R206). -/
def scaleDown (v : Nat) : Nat := (v * volDevMax) / volExtMax

/-- `external = (device_value * 255) / 43`, truncating and not clamped (44_driver_ops.md R214). -/
def scaleUp (d : Nat) : Nat := (d * volExtMax) / volDevMax

/-- `c + 10*b + 100*a` (44_driver_ops.md R211). -/
def versionOf (a b c : Byte) : Nat := c.toNat + 10 * b.toNat + 100 * a.toNat

/-- 1 when the standby byte is 0, else 0 (44_driver_ops.md R212). -/
def powerOf (standby : Byte) : Nat := if standby = 0 then 1 else 0

/-- The value WRITE_REGISTER puts at an offset: rescaled for a volume register, else as given (44_driver_ops.md R206). -/
def registerValue (c : Config) (off : Nat) (val : Byte) : Byte :=
  if isVolumeOffset c off then BitVec.ofNat 8 (scaleDown val.toNat) else val

/-- The offsets a field reads (44_driver_ops.md R210). -/
def fieldOffsets (c : Config) : Field → List Nat
  | .version => [c.offFwA, c.offFwB, c.offFwC]
  | .power => [c.offStandby]
  | .input => [c.offInput]
  | .vol ch => [volOffset c ch]
  | .raw off => [off]

/-- The number a field gives of the bytes at its offsets (44_driver_ops.md R211 to R215). -/
def fieldValue (f : Field) (bs : List Byte) : Nat :=
  match f with
  | .version => versionOf (bs.getD 0 0) (bs.getD 1 0) (bs.getD 2 0)
  | .power => powerOf (bs.getD 0 0)
  | .input => (bs.getD 0 0).toNat
  | .vol _ => scaleUp (bs.getD 0 0).toNat
  | .raw _ => (bs.getD 0 0).toNat

/-- The value to give WRITE_REGISTER so that it puts a byte at an offset, none where no value does: a volume register
takes only 0 to 43 (44_driver_ops.md R206). -/
def registerArgument (c : Config) (off : Nat) (b : Byte) : Option Byte :=
  if isVolumeOffset c off then
    if b.toNat ≤ volDevMax then some (BitVec.ofNat 8 ((b.toNat * volExtMax + (volDevMax - 1)) / volDevMax)) else none
  else some b

/-- The number of bytes of a buffer (10_state.md R22, R25; a given sequence has its own length). -/
def bufSize (c : Config) : BufRef → Nat
  | .snap => c.bufCap
  | .stage => c.bufCap
  | .given bs => bs.length

/-- The number of bytes of VALIDATE_TEMP's operand (10_state.md R27; a given sequence has its own length). -/
def tempSize : TempRef → Nat
  | .tmp => tempLen
  | .given bs => bs.length

end Sys2Proof.Machine
end

