-- ==== Sys2Proof/WellFormed.lean ====
section
/-! DEFINITION. Which instructions a host or the line can present: the operand domains of 30_encoding.md R70 to R117, and
the numbers that a presented message can carry, whose bounds are the model's (logs 2, 29, 32). -/

namespace Sys2Proof

/-- A buffer operand can be presented: a given sequence has fewer than 65536 bytes, as many as the two bytes of the length
beside the word can count. The bound is the model's (DESIGN CHOICE, log 32): 40_lrc.md R120 takes any byte sequence. -/
def BufRef.wf : BufRef → Bool
  | .snap => true
  | .stage => true
  | .given bs => decide (bs.length < 65536)

/-- The same of VALIDATE_TEMP's operand, with the same bound (DESIGN CHOICE, log 32). -/
def TempRef.wf : TempRef → Bool
  | .tmp => true
  | .given bs => decide (bs.length < 65536)

/-- An effect is a member of EFFECTS (30_encoding.md R90, R111). -/
def Effect.wf (c : Config) : Effect → Bool
  | .e3d => true
  | .noEffect => true
  | .further k => decide (k < c.opSelEffectMore.length)

/-- A raw field is one that no special code hides: "the numeric codes ... can not be read raw" (44_driver_ops.md R215),
and one whose offset can be presented: the bound of 65536 is the model's (log 29), and no frame comes near it. -/
def Field.wf (c : Config) : Field → Bool
  | .version => true
  | .power => true
  | .input => true
  | .vol _ => true
  | .raw off => decide (Machine.fieldOfCode c off = .raw off) && decide (off < 65536)

/-- The operand domains of the instructions. The bounds of 65536, 65537 and 65540 on lengths, counts and sequences are those
of a presented message and the model's (DESIGN CHOICE, log 32), the one on offsets too (log 29); the rules of the
operations have none. -/
def Instr.wf (c : Config) : Instr → Bool
  | .getStatus => true
  | .getTemp => true
  | .pwrOn => true
  | .pwrOff => true
  | .muteOn => true
  | .muteOff => true
  | .inputUp => true
  | .inputDown => true
  | .selInputAux => true
  | .selInputDStereo => true
  | .selInputC => true
  | .selInputD => true
  | .selInputE => true
  | .selInputF => true
  | .selEffect3D => true
  | .selEffectNone => true
  | .selEffectE k => decide (k < c.opSelEffectMore.length)
  | .decodeOn => true
  | .decodeOff => true
  | .blockOn => true
  | .blockOff => true
  | .eepromSave => true
  | .inputSelectSequence _ eff => eff.wf c
  | .volMain _ => true
  | .volRear _ => true
  | .volCenter _ => true
  | .volSub _ => true
  | .statusFrame payload => decide (payload.length ≤ 255)
  | .registerWriteFrame payload => decide (payload.length ≤ 255)
  | .temperatureFrame _ => true
  | .responseByte _ => true
  | .uartCharacter dir d parity stop =>
    match dir with
    | .inbound => true
    | .outbound => parity == Machine.oddParity d && stop
  | .lrc buf n => buf.wf && decide (n < 65536)
  | .lrcStore buf n => buf.wf && decide (n < 65536)
  | .lrcCheck buf n => buf.wf && decide (n < 65536)
  | .flush => true
  | .txWrite bs => decide (0 < bs.length) && decide (bs.length ≤ 65536)
  | .await n => decide (0 < n) && decide (n ≤ 65536)
  | .read n => decide (0 < n) && decide (n ≤ 65536)
  | .validateStatus buf n => buf.wf && decide (4 ≤ n) && decide (n < 65540)
  | .validateTemp buf => buf.wf
  | .demux => true
  | .poll => true
  | .temp => true
  | .sendCommand _ => true
  | .writeRegister off _ => decide (off < 65536)
  | .readField f => f.wf c
  | .selectInput _ => true
  | .selectInputEffect _ eff => eff.wf c
  | .power _ => true
  | .muted => true
  | .decodeMode => true
  | .snapshot => true
  | .currentEffect => true

end Sys2Proof
end

