-- ==== Sys2Proof/Decode.lean ====
section
/-! DEFINITION. Decoding of messages (30_encoding.md), total on any bytes and rejecting by name, and after it the
encoder, written from the same tables. The host command word is the spec's "for the sake of a machine-readable table
only" (R100); how a buffer reference and a length are "passed beside" it is the model's choice (log 2). -/

namespace Sys2Proof

open Machine

/-- The ordinal of a host operation (30_encoding.md R100). -/
def hopCode : Hop → Byte
  | .lrc => 0x00
  | .lrcStore => 0x01
  | .lrcCheck => 0x02
  | .flush => 0x03
  | .txWrite => 0x04
  | .await => 0x05
  | .read => 0x06
  | .validateStatus => 0x07
  | .validateTemp => 0x08
  | .demux => 0x09
  | .poll => 0x10
  | .temp => 0x11
  | .sendCommand => 0x20
  | .writeRegister => 0x21
  | .readField => 0x22
  | .selectInput => 0x23
  | .power => 0x24
  | .muted => 0x25
  | .decodeMode => 0x26
  | .snapshot => 0x27
  | .currentEffect => 0x28

/-- Every host operation, in the order of the tables of 30_encoding.md R100. -/
def allHops : List Hop :=
  [.lrc, .lrcStore, .lrcCheck, .flush, .txWrite, .await, .read, .validateStatus, .validateTemp, .demux, .poll, .temp,
    .sendCommand, .writeRegister, .readField, .selectInput, .power, .muted, .decodeMode, .snapshot, .currentEffect]

/-- The host operation of an ordinal, if there is one. -/
def hopOfCode (h : Byte) : Option Hop := allHops.find? fun op => hopCode op == h

/-- The number whose low byte is `lo` and whose high byte is `hi`. -/
def wordOf (lo hi : Byte) : Nat := lo.toNat + 256 * hi.toNat

/-- The low byte of a number. -/
def loByte (n : Nat) : Byte := BitVec.ofNat 8 n

/-- The second byte of a number. -/
def hiByte (n : Nat) : Byte := BitVec.ofNat 8 (n / 256)

/-- The bytes of a given sequence, passed beside the word: fewer than 65536. The bound is the model's (DESIGN CHOICE, log
32): 40_lrc.md R120 takes any byte sequence. -/
def decodeGiven (bs : List Byte) : Except DecodeError (List Byte) :=
  if bs.length < 65536 then .ok bs else .error .badLength

/-- A buffer reference passed beside the word: a code byte, and the bytes of a given sequence (log 2). -/
def decodeBuf (r : Byte) (bs : List Byte) : Except DecodeError BufRef :=
  if r = 0 then (if bs = [] then .ok .snap else .error .badLength)
  else if r = 1 then (if bs = [] then .ok .stage else .error .badLength)
  else if r = 3 then (decodeGiven bs).map .given
  else .error (.unknownBuffer r)

/-- The buffer operand of VALIDATE_TEMP passed beside the word, in the same way (log 2). -/
def decodeTempBuf (r : Byte) (bs : List Byte) : Except DecodeError TempRef :=
  if r = 0 then (if bs = [] then .ok .tmp else .error .badLength)
  else if r = 3 then (decodeGiven bs).map .given
  else .error (.unknownBuffer r)

/-- Format HB with a buffer and a length: nothing follows the ordinal, and beside it stand the buffer's code, the
number's two bytes, and the bytes of a given sequence (30_encoding.md R100, log 2). -/
def decodeHB (args beside : List Byte) : Except DecodeError (BufRef × Nat) :=
  match args, beside with
  | [], r :: lo :: hi :: bs => (decodeBuf r bs).map fun b => (b, wordOf lo hi)
  | _, _ => .error .badLength

/-- Format HB with a buffer alone. -/
def decodeHBuf (args beside : List Byte) : Except DecodeError TempRef :=
  match args, beside with
  | [], r :: bs => decodeTempBuf r bs
  | _, _ => .error .badLength

/-- Format HB with the bytes to send: beside the word stand the count less one and the bytes (41_transport.md R131:
the sequence is non-empty; log 2). -/
def decodeHBytes (args beside : List Byte) : Except DecodeError (List Byte) :=
  match args, beside with
  | [], lo :: hi :: bs => if bs.length = wordOf lo hi + 1 then .ok bs else .error .badLength
  | _, _ => .error .badLength

/-- Format H0. -/
def decodeH0 (i : Instr) (args beside : List Byte) : Except DecodeError Instr :=
  match args, beside with
  | [], [] => .ok i
  | _, _ => .error .badLength

/-- The count of READ and AWAIT, at least 1 (41_transport.md R140, R141): byte a is its value modulo 256, and the byte
beside the word counts the blocks of 256 below it, so that 256 is a = 0 with nothing beside (log 2). -/
def countOf (a hi : Byte) : Nat := (a.toNat + 255) % 256 + 1 + 256 * hi.toNat

/-- Format H1 with a count "passed beside the word" (the row AWAIT of spec/opcode_table.json). -/
def decodeCount (args beside : List Byte) : Except DecodeError Nat :=
  match args, beside with
  | [a], [hi] => .ok (countOf a hi)
  | _, _ => .error .badLength

/-- Format H1: one operand byte. -/
def decodeH1 (args beside : List Byte) : Except DecodeError Byte :=
  match args, beside with
  | [a], [] => .ok a
  | _, _ => .error .badLength

/-- A payload offset or field code (30_encoding.md R96, R109, R110): byte a of the word, with nothing beside it; where it is
256 or more, the byte beside the word counts its blocks of 256, and byte a is the rest (log 29). -/
def decodeOffset (a : Byte) (beside : List Byte) : Except DecodeError Nat :=
  match beside with
  | [] => .ok a.toNat
  | [hi] => if hi = 0 then .error .badLength else .ok (wordOf a hi)
  | _ => .error .badLength

/-- WRITE_REGISTER, format H2: the offset and the value (30_encoding.md R109). -/
def decodeWrite (args beside : List Byte) : Except DecodeError Instr :=
  match args with
  | [a, b] => (decodeOffset a beside).map fun off => .writeRegister off b
  | _ => .error .badLength

/-- READ_FIELD, format H1: the field of a numeric code (30_encoding.md R110). -/
def decodeRead (c : Config) (args beside : List Byte) : Except DecodeError Instr :=
  match args with
  | [a] => (decodeOffset a beside).map fun code => .readField (fieldOfCode c code)
  | _ => .error .badLength

/-- The input at a position of the command word (30_encoding.md R111). -/
def inputOfIndex (a : Byte) : Except DecodeError Input :=
  match allInputs[a.toNat]? with
  | some i => .ok i
  | none => .error (.unknownInput a)

/-- The effect at a position of the command word (30_encoding.md R111). -/
def effectOfIndex (c : Config) (b : Byte) : Except DecodeError Effect :=
  match (allEffects c)[b.toNat]? with
  | some e => .ok e
  | none => .error (.unknownEffect b)

/-- SELECT_INPUT: format H1 leaves the effect unspecified, format H2 gives it (30_encoding.md R111). -/
def decodeSelect (c : Config) (args beside : List Byte) : Except DecodeError Instr :=
  match args, beside with
  | [a], [] => (inputOfIndex a).map .selectInput
  | [a, b], [] => (inputOfIndex a).bind fun i => (effectOfIndex c b).map fun e => .selectInputEffect i e
  | _, _ => .error .badLength

/-- POWER's operand: 1 on, 0 off (30_encoding.md R112). -/
def decodePower (a : Byte) : Except DecodeError Instr :=
  if a = 1 then .ok (.power true)
  else if a = 0 then .ok (.power false)
  else .error (.badPowerBit a)

/-- The operands of a host operation (30_encoding.md R100 to R113). -/
def decodeOp (c : Config) (op : Hop) (args beside : List Byte) : Except DecodeError Instr :=
  match op with
  | .lrc => (decodeHB args beside).map fun p => .lrc p.1 p.2
  | .lrcStore => (decodeHB args beside).map fun p => .lrcStore p.1 p.2
  | .lrcCheck => (decodeHB args beside).map fun p => .lrcCheck p.1 p.2
  | .flush => decodeH0 .flush args beside
  | .txWrite => (decodeHBytes args beside).map .txWrite
  | .await => (decodeCount args beside).map .await
  | .read => (decodeCount args beside).map .read
  | .validateStatus => (decodeHB args beside).map fun p => .validateStatus p.1 (p.2 + 4)
  | .validateTemp => (decodeHBuf args beside).map .validateTemp
  | .demux => decodeH0 .demux args beside
  | .poll => decodeH0 .poll args beside
  | .temp => decodeH0 .temp args beside
  | .sendCommand => (decodeH1 args beside).map .sendCommand
  | .writeRegister => decodeWrite args beside
  | .readField => decodeRead c args beside
  | .selectInput => decodeSelect c args beside
  | .power => (decodeH1 args beside).bind decodePower
  | .muted => decodeH0 .muted args beside
  | .decodeMode => decodeH0 .decodeMode args beside
  | .snapshot => decodeH0 .snapshot args beside
  | .currentEffect => decodeH0 .currentEffect args beside

/-- A host command word: the ordinal, then the operand bytes (30_encoding.md R100). -/
def decodeHost (c : Config) (word beside : List Byte) : Except DecodeError Instr :=
  match word with
  | [] => .error .emptyWord
  | h :: args =>
    match hopOfCode h with
    | some op => decodeOp c op args beside
    | none => .error (.unknownHop h)

/-- The opcode of a single-byte wire command (30_encoding.md R74 to R95); none for every other instruction. -/
def wireOpcode (c : Config) : Instr → Option Byte
  | .getStatus => some c.opGetStatus
  | .getTemp => some c.opGetTemp
  | .pwrOn => some c.opPwrOn
  | .pwrOff => some c.opPwrOff
  | .muteOn => some c.opMuteOn
  | .muteOff => some c.opMuteOff
  | .inputUp => some c.opInputUp
  | .inputDown => some c.opInputDown
  | .selInputAux => some c.opSelInputAux
  | .selInputDStereo => some c.opSelInputDStereo
  | .selInputC => some c.opSelInputC
  | .selInputD => some c.opSelInputD
  | .selInputE => some c.opSelInputE
  | .selInputF => some c.opSelInputF
  | .selEffect3D => some c.opSelEffect3D
  | .selEffectNone => some c.opSelEffectNone
  | .selEffectE k => c.opSelEffectMore[k]?
  | .decodeOn => some c.opDecodeOn
  | .decodeOff => some c.opDecodeOff
  | .blockOn => some c.opBlockOn
  | .blockOff => some c.opBlockOff
  | .eepromSave => some c.opEepromSave
  | _ => none

/-- Every single-byte wire command of a configuration. -/
def wireCommands (c : Config) : List Instr :=
  [.getStatus, .getTemp, .pwrOn, .pwrOff, .muteOn, .muteOff, .inputUp, .inputDown, .selInputAux, .selInputDStereo,
    .selInputC, .selInputD, .selInputE, .selInputF, .selEffect3D, .selEffectNone, .decodeOn, .decodeOff, .blockOn,
    .blockOff, .eepromSave] ++ (List.range c.opSelEffectMore.length).map .selEffectE

/-- Format W1 (30_encoding.md R73): the command whose opcode the byte is. -/
def decodeW1 (c : Config) (word : List Byte) : Except DecodeError Instr :=
  match word with
  | [b] =>
    match (wireCommands c).find? fun i => wireOpcode c i == some b with
    | some i => .ok i
    | none => .error (.unknownOpcode b)
  | _ => .error .badLength

/-- The input whose opcode a byte is. -/
def inputOfOpcode (c : Config) (b : Byte) : Option Input := allInputs.find? fun i => inputOpcode c i == b

/-- The effect whose opcode a byte is. -/
def effectOfOpcode (c : Config) (b : Byte) : Option Effect := (allEffects c).find? fun e => effectOpcode c e == some b

/-- Format W4 (30_encoding.md R73). -/
def decodeW4 (c : Config) (word : List Byte) : Except DecodeError Instr :=
  match word with
  | [m, i, e, u] =>
    if m = c.opMuteOn ∧ u = c.opMuteOff then
      match inputOfOpcode c i, effectOfOpcode c e with
      | some inp, some eff => .ok (.inputSelectSequence inp eff)
      | _, _ => .error .badSequence
    else .error .badSequence
  | _ => .error .badLength

/-- Formats RS and WF (30_encoding.md R98): the payload of a whole frame with the right envelope. -/
def decodeFrame (word : List Byte) : Except DecodeError (List Byte) :=
  match word with
  | a :: b :: l :: rest =>
    if a = sof ∧ b = modelStatus ∧ rest.length = l.toNat + 1 then
      if rest.getLast? = some (frameChecksum rest.dropLast) then .ok rest.dropLast else .error .badChecksum
    else .error .badFrame
  | _ => .error .badLength

/-- Format RT (30_encoding.md R99). -/
def decodeTempFrame (word : List Byte) : Except DecodeError TempFrame :=
  match word with
  | [x0, x1, m, x3, x4, x5, x6, t, x8, x9] =>
    if m = modelTemp then .ok ⟨x0, x1, x3, x4, x5, x6, t, x8, x9⟩ else .error .badFrame
  | _ => .error .badLength

/-- Format R1 (30_encoding.md R73): any byte. -/
def decodeResponse (word : List Byte) : Except DecodeError Instr :=
  match word with
  | [v] => .ok (.responseByte v)
  | _ => .error .badLength

/-- The eleven bits of a character, held in two bytes with the first bit on the line lowest (30_encoding.md R70; the
packing is the model's, log 7): bit 0 the start bit, bits 1 to 8 the data, bit 9 the parity, bit 10 the stop bit. -/
def decodeChar (c : Config) (dir : LineDir) (word : List Byte) : Except DecodeError Instr :=
  match word with
  | [lo, hi] =>
    if lo.getLsbD 0 || decide (8 ≤ hi.toNat) then .error .badCharacter
    else
      let i : Instr := .uartCharacter dir (BitVec.ofNat 8 (wordOf lo hi / 2)) (hi.getLsbD 1) (hi.getLsbD 2)
      if i.wf c then .ok i else .error .badCharacter
  | _ => .error .badLength

/-- What a register opcode is the operand of (30_encoding.md R96), passed beside it as the host command around it:
the ordinal of READ_FIELD, or that of WRITE_REGISTER and the value (log 4). -/
def decodeVolUse (beside : List Byte) : Except DecodeError VolUse :=
  match beside with
  | [h] => if h = hopCode .readField then .ok .read else .error (.unknownHop h)
  | [h, v] => if h = hopCode .writeRegister then .ok (.write v) else .error (.unknownHop h)
  | _ => .error .badLength

/-- A register opcode (30_encoding.md R96). -/
def decodeReg (c : Config) (word beside : List Byte) : Except DecodeError Instr :=
  match word with
  | [r] =>
    if r.toNat = c.offMain then (decodeVolUse beside).map .volMain
    else if r.toNat = c.offRear then (decodeVolUse beside).map .volRear
    else if r.toNat = c.offCenter then (decodeVolUse beside).map .volCenter
    else if r.toNat = c.offSub then (decodeVolUse beside).map .volSub
    else .error (.unknownRegister r)
  | _ => .error .badLength

/-- A message of the line or of an operand has nothing passed beside it. -/
def bare (beside : List Byte) (d : Except DecodeError Instr) : Except DecodeError Instr :=
  if beside = [] then d else .error .badLength

/-- The instruction a message is (30_encoding.md R73, R100), or why it is none. -/
def decode (c : Config) (m : Message) : Except DecodeError Instr :=
  match m.fmt with
  | .w1 => bare m.beside (decodeW1 c m.word)
  | .w4 => bare m.beside (decodeW4 c m.word)
  | .wf => bare m.beside ((decodeFrame m.word).map .registerWriteFrame)
  | .rs => bare m.beside ((decodeFrame m.word).map .statusFrame)
  | .rt => bare m.beside ((decodeTempFrame m.word).map .temperatureFrame)
  | .r1 => bare m.beside (decodeResponse m.word)
  | .charIn => bare m.beside (decodeChar c .inbound m.word)
  | .charOut => bare m.beside (decodeChar c .outbound m.word)
  | .reg => decodeReg c m.word m.beside
  | .host => decodeHost c m.word m.beside

/-! ## The encoder -/

/-- The code byte of a buffer reference (log 2). -/
def bufCode : BufRef → Byte
  | .snap => 0
  | .stage => 1
  | .given _ => 3

/-- The bytes of a given sequence, none for a buffer of the block. -/
def bufBytes : BufRef → List Byte
  | .snap => []
  | .stage => []
  | .given bs => bs

/-- The code byte of VALIDATE_TEMP's operand, and the bytes of a given sequence. -/
def besideTemp : TempRef → List Byte
  | .tmp => [0]
  | .given bs => 3 :: bs

/-- A host command word (30_encoding.md R100). -/
def hostMessage (op : Hop) (args beside : List Byte) : Message := ⟨.host, hopCode op :: args, beside⟩

/-- A buffer and a number beside the word. -/
def besideHB (b : BufRef) (n : Nat) : List Byte := bufCode b :: loByte n :: hiByte n :: bufBytes b

/-- What stands beside a word whose byte a is the low byte of an offset or field code (log 29). -/
def besideOffset (n : Nat) : List Byte := if n < 256 then [] else [hiByte n]

/-- A single-byte wire command (30_encoding.md R73). -/
def w1Message (op : Byte) : Message := ⟨.w1, [op], []⟩

/-- What stands beside a register opcode. -/
def besideVolUse : VolUse → List Byte
  | .read => [hopCode .readField]
  | .write v => [hopCode .writeRegister, v]

/-- A register opcode (30_encoding.md R96). -/
def regMessage (off : Nat) (use : VolUse) : Message := ⟨.reg, [loByte off], besideVolUse use⟩

/-- The number whose bits are those of a character. -/
def charNumber (d : Byte) (parity stop : Bool) : Nat := 2 * d.toNat + 512 * parity.toNat + 1024 * stop.toNat

/-- A character (30_encoding.md R70). -/
def charMessage (dir : LineDir) (d : Byte) (parity stop : Bool) : Message :=
  ⟨match dir with | .inbound => .charIn | .outbound => .charOut,
    [loByte (charNumber d parity stop), hiByte (charNumber d parity stop)], []⟩

/-- The message of an instruction. An effect that is no member of EFFECTS has no opcode; 0 stands in its place, and no
well-formed instruction has one. -/
def encode (c : Config) : Instr → Message
  | .getStatus => w1Message c.opGetStatus
  | .getTemp => w1Message c.opGetTemp
  | .pwrOn => w1Message c.opPwrOn
  | .pwrOff => w1Message c.opPwrOff
  | .muteOn => w1Message c.opMuteOn
  | .muteOff => w1Message c.opMuteOff
  | .inputUp => w1Message c.opInputUp
  | .inputDown => w1Message c.opInputDown
  | .selInputAux => w1Message c.opSelInputAux
  | .selInputDStereo => w1Message c.opSelInputDStereo
  | .selInputC => w1Message c.opSelInputC
  | .selInputD => w1Message c.opSelInputD
  | .selInputE => w1Message c.opSelInputE
  | .selInputF => w1Message c.opSelInputF
  | .selEffect3D => w1Message c.opSelEffect3D
  | .selEffectNone => w1Message c.opSelEffectNone
  | .selEffectE k => w1Message (c.opSelEffectMore.getD k 0)
  | .decodeOn => w1Message c.opDecodeOn
  | .decodeOff => w1Message c.opDecodeOff
  | .blockOn => w1Message c.opBlockOn
  | .blockOff => w1Message c.opBlockOff
  | .eepromSave => w1Message c.opEepromSave
  | .inputSelectSequence i e =>
    ⟨.w4, [c.opMuteOn, inputOpcode c i, (effectOpcode c e).getD 0, c.opMuteOff], []⟩
  | .volMain use => regMessage c.offMain use
  | .volRear use => regMessage c.offRear use
  | .volCenter use => regMessage c.offCenter use
  | .volSub use => regMessage c.offSub use
  | .statusFrame payload => ⟨.rs, frameOf payload, []⟩
  | .registerWriteFrame payload => ⟨.wf, frameOf payload, []⟩
  | .temperatureFrame f => ⟨.rt, tempFrameOf f.x0 f.x1 f.x3 f.x4 f.x5 f.x6 f.t f.x8 f.x9, []⟩
  | .responseByte v => ⟨.r1, [v], []⟩
  | .uartCharacter dir d parity stop => charMessage dir d parity stop
  | .lrc buf n => hostMessage .lrc [] (besideHB buf n)
  | .lrcStore buf n => hostMessage .lrcStore [] (besideHB buf n)
  | .lrcCheck buf n => hostMessage .lrcCheck [] (besideHB buf n)
  | .flush => hostMessage .flush [] []
  | .txWrite bs => hostMessage .txWrite [] (loByte (bs.length - 1) :: hiByte (bs.length - 1) :: bs)
  | .await n => hostMessage .await [loByte n] [hiByte (n - 1)]
  | .read n => hostMessage .read [loByte n] [hiByte (n - 1)]
  | .validateStatus buf n => hostMessage .validateStatus [] (besideHB buf (n - 4))
  | .validateTemp buf => hostMessage .validateTemp [] (besideTemp buf)
  | .demux => hostMessage .demux [] []
  | .poll => hostMessage .poll [] []
  | .temp => hostMessage .temp [] []
  | .sendCommand op => hostMessage .sendCommand [op] []
  | .writeRegister off val => hostMessage .writeRegister [loByte off, val] (besideOffset off)
  | .readField f => hostMessage .readField [loByte (codeOfField c f)] (besideOffset (codeOfField c f))
  | .selectInput i => hostMessage .selectInput [loByte (inputIndex i)] []
  | .selectInputEffect i e => hostMessage .selectInput [loByte (inputIndex i), loByte (effectIndex e)] []
  | .power on => hostMessage .power [if on then 1 else 0] []
  | .muted => hostMessage .muted [] []
  | .decodeMode => hostMessage .decodeMode [] []
  | .snapshot => hostMessage .snapshot [] []
  | .currentEffect => hostMessage .currentEffect [] []

/-! ## Words as spec/opcode_table.json numbers them -/

/-- The bytes of a number, bit 0 being the least significant bit of the first byte. -/
def bytesOfNumber (nbytes w : Nat) : List Byte := (List.range nbytes).map fun k => BitVec.ofNat 8 (w >>> (8 * k))

/-- The messages a table word can be, in the order they are tried: a host command word with zeros passed beside it
(none, one, two or three), then the wire formats, then a register opcode under READ_FIELD, then a response byte
(log 2: a table row does not say in which space its word stands). -/
def tableMessages (nbits w : Nat) : List Message :=
  let word := bytesOfNumber ((nbits + 7) / 8) w
  [⟨.host, word, []⟩, ⟨.host, word, [0]⟩, ⟨.host, word, [0, 0, 0]⟩, ⟨.w1, word, []⟩, ⟨.w4, word, []⟩, ⟨.rs, word, []⟩,
    ⟨.rt, word, []⟩, ⟨.charIn, word, []⟩, ⟨.reg, word, [hopCode .readField]⟩, ⟨.r1, word, []⟩]

/-- The message that is a table word, with what it decodes to. -/
def tableRead (c : Config) (nbits w : Nat) : Option (Message × Instr) :=
  (tableMessages nbits w).findSome? fun m =>
    match decode c m with
    | .ok i => some (m, i)
    | .error _ => none

/-- The instruction the decoder reads from a table word, under the configuration of the reset state. -/
def decodeTableWord (nbits w : Nat) : Option Instr := (tableRead Config.ex1 nbits w).map Prod.snd

end Sys2Proof
end

