-- ==== Sys2Proof/Machine/State.lean ====
section
/-! DEFINITION. The state of the machine as plain data (10_state.md R20 to R45), the reasons a step stops, and the
state after reset (10_state.md R43, 70_reset_and_hazards.md R270). -/

namespace Sys2Proof.Machine

/-- A byte buffer: its cells that hold a value, addresses strictly rising. An unlisted address holds no value
(10_state.md R43, log 14). -/
abbrev Memory := List Host.Cell

/-- The canonical form: addresses strictly rising, so that equal memories are equal lists. (No listed cell can equal
what an unlisted address reads as, which is no value at all.) -/
def Memory.wf : Memory → Bool
  | [] => true
  | [_] => true
  | a :: b :: rest => decide (a.1 < b.1) && Memory.wf (b :: rest)

/-- The sequencer state (10_state.md R30). -/
inductive Seq where
  | idle
  | awaitHeader
  | awaitPayload
  | valid
  | failed
  deriving DecidableEq, Repr

/-- The ghost causes of failure (60_exceptions.md R240). No operation raises `deviceUnreachable` (R243). -/
inductive Cause where
  | timeout
  | frameInvalid
  | deviceUnreachable
  deriving DecidableEq, Repr

/-- A ghost event (10_state.md R44: flushes, transmitted, received and popped bytes; the moves of `seq` are the
model's addition, log 18). -/
inductive Event where
  /-- A discard instant, with the bytes discarded (41_transport.md R130). -/
  | flushed (bs : List Byte)
  /-- Bytes handed to the serial line (41_transport.md R131). -/
  | sent (bs : List Byte)
  /-- A byte entered `rxq` (41_transport.md R136). -/
  | arrived (b : Byte)
  /-- A byte arrived at a full queue (41_transport.md R137). -/
  | lost (b : Byte)
  /-- Bytes left `rxq` (41_transport.md R140). -/
  | popped (bs : List Byte)
  /-- `seq` moved (43_sequencer.md R189). -/
  | seqTo (q : Seq)
  deriving DecidableEq, Repr

/-- One move of the environment, taken by one wait: how many ticks the clock goes beyond the demanded ones
(00_scope.md R15: `now' ≥ now + d`), and the bytes the amplifier sends meanwhile, in order. -/
structure EnvMove where
  ticks : Nat
  bytes : List Byte
  deriving DecidableEq, Repr

/-- The outputs of DEMUX (42_frame_codec.md R155 to R163); `none` is an output that holds no value (R166 (b)). -/
structure DemuxOut where
  mainLevel : Option Byte
  rearLevel : Option Byte
  centerLevel : Option Byte
  subLevel : Option Byte
  currentInput : Option Byte
  muteFlag : Option Byte
  effect : List (Option Byte)
  spdifStatus : Option Byte
  signalPresent : Option Byte
  fwA : Option Byte
  fwB : Option Byte
  fwC : Option Byte
  standby : Option Byte
  autoStandby : Option Byte
  sofByte : Option Byte
  model : Option Byte
  payloadLen : Option Byte
  checksum : Option Byte
  deriving DecidableEq, Repr

/-- What an operation delivers to the host (30_encoding.md R100, column "result"). -/
inductive OpResult where
  | nothing
  | flag (b : Bool)
  | byte (b : Byte)
  | number (n : Nat)
  | bytes (bs : List Byte)
  | fields (d : DemuxOut)
  /-- The result of AWAIT: true for ok, false for timeout. -/
  | awaited (ok : Bool)
  deriving DecidableEq, Repr

/-- The reasons a step stops with a fault. -/
inductive Fault where
  /-- Raised by LRC, LRC_STORE, LRC_CHECK, VALIDATE_STATUS and VALIDATE_TEMP when the length names bytes beyond the
  buffer's size (40_lrc.md R120: `n ≤` the buffer's size). Safe: such an access does not exist (log 16). -/
  | outOfBuffer
  deriving DecidableEq, Repr

/-- The reasons a step refuses. -/
inductive Refusal where
  /-- Raised by exec for an instruction that has no meaning yet. Safe. -/
  | notModelled (mnemonic : String)
  /-- Raised by step for a message that is no instruction. Safe. -/
  | undecoded (e : DecodeError)
  /-- Raised by every host operation presented while `busy` = 1: the host has no such move (10_state.md R35,
  60_exceptions.md R244). Unsafe only for a host that breaks its duty (92_eei_decisions.md D34). -/
  | hostBusy
  /-- Raised by SNAPSHOT and DEMUX while `snap_valid` = 0 (44_driver_ops.md R222, 42_frame_codec.md R155). Safe. -/
  | noSnapshot
  /-- Raised by READ with fewer bytes queued than asked (41_transport.md R140). Safe. -/
  | readTooShort
  /-- Raised by LRC_STORE, LRC_CHECK and VALIDATE_STATUS with n = 0 (40_lrc.md R124). Safe. -/
  | noChecksumSlot
  /-- Raised by CURRENT_EFFECT, to which the spec gives no meaning (44_driver_ops.md R223). Safe. -/
  | currentEffectUndefined
  /-- Raised for an effect outside EFFECTS, or an outbound character the block's serialiser does not make
  (30_encoding.md R90, R71): no message decodes to such an operand. Safe (log 28). -/
  | illFormed
  deriving DecidableEq, Repr

/-- The state of the machine. -/
structure State where
  /-- The LRC accumulator (10_state.md R21). -/
  acc : Byte
  /-- The snapshot buffer (10_state.md R22). -/
  snap : Memory
  /-- Length of the frame in `snap` (10_state.md R23). -/
  snapLen : Nat
  /-- Whether `snap` holds a validated frame (10_state.md R24). -/
  snapValid : Bool
  /-- The staging buffer (10_state.md R25). -/
  stage : Memory
  /-- Length of the frame being received (10_state.md R26). -/
  stageLen : Nat
  /-- The temperature frame buffer (10_state.md R27). -/
  tmp : Memory
  /-- The receive queue, oldest first (10_state.md R28). -/
  rxq : List Byte
  /-- The transmit stream (10_state.md R29). -/
  txs : List Byte
  /-- The sequencer state (10_state.md R30). -/
  seq : Seq
  /-- The request time (10_state.md R31). -/
  t0 : Nat
  /-- The abstract clock (10_state.md R32). -/
  now : Nat
  /-- Derived cache: muted (10_state.md R33). -/
  muted : Bool
  /-- Derived cache: decode mode (10_state.md R34). -/
  decode : Bool
  /-- An operation is executing (10_state.md R35). -/
  busy : Bool
  /-- The parameters, never written (10_state.md R39, log 1). -/
  cfg : Config
  /-- Ghost: the cause of the last failure (10_state.md R44). -/
  cause : Option Cause
  /-- Ghost: the event history, oldest first (10_state.md R44). -/
  hist : List Event
  /-- Model: the result the last operation delivered (log 18). -/
  result : OpResult
  /-- Model: the messages presented and not yet run, oldest first (log 2). -/
  port : List Message
  /-- Model: the coming moves of the amplifier and the clock (log 8). -/
  env : List EnvMove
  /-- Model: how many free values have been drawn (log 14). -/
  draws : Nat
  deriving DecidableEq, Repr

/-- The state right after the reset event for a configuration, a schedule of the environment and a queue of presented
messages (10_state.md R43, 70_reset_and_hazards.md R270). The zeros of `acc`, `snapLen`, `stageLen`, `t0` and `now` are
the model's (DESIGN CHOICE, log 12); `muted` and `decode` are the parameters RESET_MUTED and RESET_DECODE. -/
def State.resetWith (c : Config) (env : List EnvMove) (port : List Message) : State where
  acc := 0
  snap := []
  snapLen := 0
  snapValid := false
  stage := []
  stageLen := 0
  tmp := []
  rxq := []
  txs := []
  seq := .idle
  t0 := 0
  now := 0
  muted := c.resetMuted
  decode := c.resetDecode
  busy := false
  cfg := c
  cause := none
  hist := []
  result := .nothing
  port := port
  env := env
  draws := 0

/-- The machine right after reset, under the configuration EX1 (log 1), with a silent environment (log 8) and nothing
presented (log 22). -/
def State.reset : State := State.resetWith Config.ex1 [] []

end Sys2Proof.Machine
end

