-- ==== Sys2Proof/Machine/Ops.lean ====
section
/-! DEFINITION. The shared operations: buffers, the environment's moves, the transport primitives of 41_transport.md,
the wait of R141, reading a place that holds no value, and how an operation begins, fails and delivers its result
(60_exceptions.md R247, R248). -/

namespace Sys2Proof.Machine

/-- The outcome of a meaning. -/
abbrev Result := Host.Outcome State Fault Refusal

/-! ## Buffers -/

/-- The byte at an address, none where the place holds no value. -/
def memRead : Memory → Nat → Option Byte
  | [], _ => none
  | (k, v) :: rest, a => if k = a then some v else memRead rest a

/-- `MemWrite(buf, i, 1, v)` (00_scope.md R15), keeping the addresses rising. -/
def memWrite : Memory → Nat → Byte → Memory
  | [], a, v => [(a, v)]
  | (k, w) :: rest, a, v =>
    if a < k then (a, v) :: (k, w) :: rest
    else if a = k then (a, v) :: rest
    else (k, w) :: memWrite rest a v

/-- Consecutive bytes written from an address on. -/
def memStore (m : Memory) (a : Nat) : List Byte → Memory
  | [] => m
  | b :: bs => memStore (memWrite m a b) (a + 1) bs

/-- The cells below an address: what a commit of that length copies (43_sequencer.md R187). -/
def memBelow (m : Memory) (n : Nat) : Memory := m.filter fun c => c.1 < n

/-- The bytes 0 to n-1, a free byte standing where a place holds no value (log 14). -/
def memView (m : Memory) (n seed : Nat) : List Byte :=
  (List.range n).map fun i => (memRead m i).getD (Config.freeByte (seed + i))

/-- How many free values a view of the bytes 0 to n-1 uses up: none where each holds a value. -/
def memDraws (m : Memory) (n : Nat) : Nat :=
  if (List.range n).all fun i => (memRead m i).isSome then 0 else n

/-- The first n bytes of a buffer (00_scope.md R15, `MemRead`). -/
def bufView (s : State) (b : BufRef) (n : Nat) : List Byte :=
  match b with
  | .snap => memView s.snap n s.draws
  | .stage => memView s.stage n s.draws
  | .given bs => bs.take n

/-- How many free values `bufView` uses up. -/
def bufDraws (s : State) (b : BufRef) (n : Nat) : Nat :=
  match b with
  | .snap => memDraws s.snap n
  | .stage => memDraws s.stage n
  | .given _ => 0

/-- The state after the first n bytes of a buffer have been read: reading has no effect on the block's own state
(20_memory.md R54 (d)), it only uses up free values. -/
def afterView (b : BufRef) (n : Nat) (s : State) : State := { s with draws := s.draws + bufDraws s b n }

/-- The first n bytes of VALIDATE_TEMP's operand. -/
def tempView (s : State) (b : TempRef) (n : Nat) : List Byte :=
  match b with
  | .tmp => memView s.tmp n s.draws
  | .given bs => bs.take n

/-- How many free values `tempView` uses up. -/
def tempDraws (s : State) (b : TempRef) (n : Nat) : Nat :=
  match b with
  | .tmp => memDraws s.tmp n
  | .given _ => 0

/-- The state after the first n bytes of VALIDATE_TEMP's operand have been read. -/
def afterTempView (b : TempRef) (n : Nat) (s : State) : State := { s with draws := s.draws + tempDraws s b n }

/-- Whether an offset is in the snapshot space: below the length of the frame held, while one is held (10_state.md R41,
20_memory.md R58). -/
def inSnapshot (s : State) (i : Nat) : Bool := s.snapValid && decide (i < s.snapLen)

/-- `buf[i] <- v` for a buffer of the block; a given sequence is the caller's own and no state. An offset of `snap`
outside the snapshot space is given no value (10_state.md R23): nothing is written there (20_memory.md R58, log 30). -/
def bufWrite (b : BufRef) (i : Nat) (v : Byte) (s : State) : State :=
  match b with
  | .snap => { s with snap := if inSnapshot s i then memWrite s.snap i v else s.snap }
  | .stage => { s with stage := memWrite s.stage i v }
  | .given _ => s

/-! ## The sequencer state -/

/-- `seq <- q` (00_scope.md R15). -/
def setSeq (q : Seq) (s : State) : State := { s with seq := q, hist := s.hist ++ [.seqTo q] }

/-! ## The environment -/

/-- A byte arrives (41_transport.md R136); at a full queue it is lost (R137). -/
def arrive (b : Byte) (s : State) : State :=
  if s.rxq.length < s.cfg.rxDepth then { s with rxq := s.rxq ++ [b], hist := s.hist ++ [.arrived b] }
  else { s with hist := s.hist ++ [.lost b] }

/-- Bytes arrive, the first of the list first. -/
def arriveAll : List Byte → State → State
  | [], s => s
  | b :: bs, s => arriveAll bs (arrive b s)

/-- `wait(d)` (00_scope.md R15): the clock advances by at least d, and the environment may append to `rxq` meanwhile:
by how much and what, its next move says; with no move left, exactly d and nothing (log 8). -/
def wait (d : Nat) (s : State) : State :=
  match s.env with
  | [] => { s with now := s.now + d }
  | m :: ms => arriveAll m.bytes { s with now := s.now + d + m.ticks, env := ms }

/-- Between operations the environment may append too (41_transport.md R136); the clock stands (10_state.md R32). -/
def idle (s : State) : State :=
  match s.env with
  | [] => s
  | m :: ms => arriveAll m.bytes { s with env := ms }

/-! ## Transport -/

/-- `FLUSH` (41_transport.md R130): the deadtime, then the discard instant. -/
def flushRx (s : State) : State :=
  let w := wait s.cfg.deadtime s
  { w with rxq := [], hist := w.hist ++ [.flushed w.rxq] }

/-- `tx(bs)` (00_scope.md R15). -/
def tx (bs : List Byte) (s : State) : State := { s with txs := s.txs ++ bs, hist := s.hist ++ [.sent bs] }

/-- `TX_WRITE bs` (41_transport.md R131): one flush, then the bytes verbatim. -/
def transmit (bs : List Byte) (s : State) : State := tx bs (flushRx s)

/-- `pop(n)` (00_scope.md R15), the state after it; the bytes are `s.rxq.take n`. -/
def pop (n : Nat) (s : State) : State :=
  { s with rxq := s.rxq.drop n, hist := s.hist ++ [.popped (s.rxq.take n)] }

/-- The loop of `AWAIT n, t0` (41_transport.md R141), one look at the queue for each move of the environment:
availability first, then the timeout, then `wait(0)`. With no move left nothing can arrive, and the loop ends when the
clock has reached t0 + TIMEOUT (log 9). -/
def awaitLoop (n : Nat) : List EnvMove → State → Bool × State
  | [], s =>
    if n ≤ s.rxq.length then (true, s)
    else if s.cfg.timeout ≤ s.now - s.t0 then (false, s)
    else (false, { s with now := s.t0 + s.cfg.timeout })
  | _ :: ms, s =>
    if n ≤ s.rxq.length then (true, s)
    else if s.cfg.timeout ≤ s.now - s.t0 then (false, s)
    else awaitLoop n ms (wait 0 s)

/-- `AWAIT n, t0` (41_transport.md R141): true for ok, false for timeout, and the state when it returns. -/
def awaitBytes (n : Nat) (s : State) : Bool × State := awaitLoop n s.env s

/-- `t0 <- now` (43_sequencer.md R181). -/
def latchRequest (s : State) : State := { s with t0 := s.now }

/-- A request: one write, then the request time, then `seq <- AwaitHeader` (43_sequencer.md R181, R190). -/
def request (bs : List Byte) (s : State) : State := setSeq .awaitHeader (latchRequest (transmit bs s))

/-! ## The LRC unit -/

/-- The accumulator takes a value (10_state.md R21). -/
def setAcc (a : Byte) (s : State) : State := { s with acc := a }

/-- The state after `LRC buf, n`: the result stands in the accumulator (40_lrc.md R120). -/
def lrcRun (b : BufRef) (n : Nat) (s : State) : State := setAcc (lrcSum (bufView s b n) n) (afterView b n s)

/-- `LRC_STORE buf, n` on a buffer of the block (40_lrc.md R121). -/
def lrcStoreRun (b : BufRef) (n : Nat) (s : State) : State :=
  bufWrite b (n - 1) (lrcSum (bufView s b n) n) (lrcRun b n s)

/-! ## An operation's beginning, failure and end -/

/-- While an operation executes `busy` = 1 (10_state.md R35). -/
def beginOp (s : State) : State := { s with busy := true }

/-- An operation begins only when `busy` = 0 (10_state.md R35). -/
def hostOp (s : State) (body : State → Result) : Result :=
  if s.busy then .refused .hostBusy else body (beginOp s)

/-- The operation ends and its result is delivered: `busy` returns to 0 (70_reset_and_hazards.md R286). -/
def deliver (r : OpResult) (s : State) : State := { s with result := r, busy := false }

/-- A failure (60_exceptions.md R240, R247): nothing is saved or masked and no control is transferred; the cause is a
ghost label. -/
def noteFailure (c : Cause) (s : State) : State := { s with cause := some c }

end Sys2Proof.Machine
end

