-- ==== Sys2Proof/Machine/Codec.lean ====
section
/-! DEFINITION. The frame codec's operations (42_frame_codec.md): VALIDATE_STATUS, VALIDATE_TEMP, DEMUX. -/

namespace Sys2Proof.Machine

/-- `VALIDATE_STATUS buf, n` (42_frame_codec.md R150). The accumulator takes the LRC whichever check fails: the result
does not depend on the order of the three (R151, log 19). -/
def execValidateStatus (buf : BufRef) (n : Nat) (s : State) : Result :=
  hostOp s fun s =>
    if n = 0 then .refused .noChecksumSlot
    else if bufSize s.cfg buf < n then .fault .outOfBuffer
    else .next (deliver (.flag (statusValid (bufView s buf n) n)) (lrcRun buf n s))

/-- `VALIDATE_TEMP buf` (42_frame_codec.md R153): reads buf[2] alone. R153 gives it a buffer of 10 bytes; that a given
sequence of 3 to 9 bytes, or of more than 10, is judged by its byte 2 all the same is the model's (DESIGN CHOICE,
log 31). -/
def execValidateTemp (buf : TempRef) (s : State) : Result :=
  hostOp s fun s =>
    if tempSize buf ≤ tempModelOff then .fault .outOfBuffer
    else .next (deliver (.flag (tempValid (tempView s buf (tempModelOff + 1)))) (afterTempView buf (tempModelOff + 1) s))

/-- One output of the demultiplexer: the raw byte at the field's offset, no value beyond the payload of the frame held
(42_frame_codec.md R155, R166 (b)). -/
def demuxField (s : State) (off : Nat) : Option Byte := if off + 2 ≤ s.snapLen then memRead s.snap off else none

/-- All the outputs (42_frame_codec.md R156 to R163). -/
def demuxOut (s : State) : DemuxOut where
  mainLevel := demuxField s s.cfg.offMain
  rearLevel := demuxField s s.cfg.offRear
  centerLevel := demuxField s s.cfg.offCenter
  subLevel := demuxField s s.cfg.offSub
  currentInput := demuxField s s.cfg.offInput
  muteFlag := demuxField s s.cfg.offMute
  effect := s.cfg.offEffect.toList.map (demuxField s)
  spdifStatus := demuxField s s.cfg.offSpdif
  signalPresent := demuxField s s.cfg.offSignal
  fwA := demuxField s s.cfg.offFwA
  fwB := demuxField s s.cfg.offFwB
  fwC := demuxField s s.cfg.offFwC
  standby := demuxField s s.cfg.offStandby
  autoStandby := demuxField s s.cfg.offAutoStby
  sofByte := memRead s.snap 0
  model := memRead s.snap 1
  payloadLen := memRead s.snap lenOff
  checksum := memRead s.snap (s.snapLen - 1)

/-- `DEMUX` (42_frame_codec.md R155), "defined only when snap_valid == 1". -/
def execDemux (s : State) : Result :=
  hostOp s fun s =>
    if s.snapValid then .next (deliver (.fields (demuxOut s)) s) else .refused .noSnapshot

end Sys2Proof.Machine
end

