-- ==== Sys2Proof/Machine/Lrc.lean ====
section
/-! DEFINITION. The LRC unit's operations (40_lrc.md): LRC, LRC_STORE, LRC_CHECK. Each is one atomic step (R127). -/

namespace Sys2Proof.Machine

/-- `LRC buf, n` (40_lrc.md R120, R124). -/
def execLrc (buf : BufRef) (n : Nat) (s : State) : Result :=
  hostOp s fun s =>
    if bufSize s.cfg buf < n then .fault .outOfBuffer
    else .next (deliver (.byte (lrcSum (bufView s buf n) n)) (lrcRun buf n s))

/-- What LRC_STORE gives back: a given sequence with its checksum slot written; nothing for a buffer of the block,
which is written in place (log 17). -/
def storeResult (buf : BufRef) (n : Nat) (sum : Byte) : OpResult :=
  match buf with
  | .snap => .nothing
  | .stage => .nothing
  | .given bs => .bytes (bs.set (n - 1) sum)

/-- `LRC_STORE buf, n` (40_lrc.md R121); with n = 0 there is no checksum slot (R124). A slot of `snap` beyond the frame
held stays without a value (10_state.md R23, log 30). -/
def execLrcStore (buf : BufRef) (n : Nat) (s : State) : Result :=
  hostOp s fun s =>
    if n = 0 then .refused .noChecksumSlot
    else if bufSize s.cfg buf < n then .fault .outOfBuffer
    else .next (deliver (storeResult buf n (lrcSum (bufView s buf n) n)) (lrcStoreRun buf n s))

/-- `LRC_CHECK buf, n` (40_lrc.md R122); with n = 0 there is no checksum slot (R124). -/
def execLrcCheck (buf : BufRef) (n : Nat) (s : State) : Result :=
  hostOp s fun s =>
    if n = 0 then .refused .noChecksumSlot
    else if bufSize s.cfg buf < n then .fault .outOfBuffer
    else .next (deliver (.flag (lrcHolds (bufView s buf n) n)) (lrcRun buf n s))

end Sys2Proof.Machine
end

