-- ==== Sys2Proof/Machine/Transport.lean ====
section
/-! DEFINITION. The transport controller's operations (41_transport.md): FLUSH, TX_WRITE, AWAIT, READ. -/

namespace Sys2Proof.Machine

/-- `FLUSH` (41_transport.md R130). -/
def execFlush (s : State) : Result :=
  hostOp s fun s => .next (deliver .nothing (flushRx s))

/-- `TX_WRITE bs` (41_transport.md R131). -/
def execTxWrite (bs : List Byte) (s : State) : Result :=
  hostOp s fun s => .next (deliver .nothing (transmit bs s))

/-- `AWAIT n` with the latched request time (41_transport.md R141): timeout is a result. -/
def execAwait (n : Nat) (s : State) : Result :=
  hostOp s fun s => .next (deliver (.awaited (awaitBytes n s).1) (awaitBytes n s).2)

/-- `READ n` (41_transport.md R140). -/
def execRead (n : Nat) (s : State) : Result :=
  hostOp s fun s =>
    if s.rxq.length < n then .refused .readTooShort
    else .next (deliver (.bytes (s.rxq.take n)) (pop n s))

end Sys2Proof.Machine
end

