-- ==== Sys2Proof/Machine/Flags.lean ====
section
/-! DEFINITION. The flags (10_state.md R38): the derived cache `muted` and `decode` (44_driver_ops.md R201). The LRC
sets no flag (40_lrc.md R120); `snap_valid` is set by the commit (43_sequencer.md R187), `busy` by `hostOp` and
`deliver`. -/

namespace Sys2Proof.Machine

/-- `update_cache(op)` (44_driver_ops.md R201): a comparison with each of the four opcodes, nothing for any other. -/
def updateCache (op : Byte) (s : State) : State :=
  if op = s.cfg.opMuteOn then { s with muted := true }
  else if op = s.cfg.opMuteOff then { s with muted := false }
  else if op = s.cfg.opDecodeOn then { s with decode := true }
  else if op = s.cfg.opDecodeOff then { s with decode := false }
  else s

end Sys2Proof.Machine
end

