-- ==== Sys2Proof/Machine/Sequencer.lean ====
section
/-! DEFINITION. The sequencer's operations (43_sequencer.md): POLL and TEMP, with the bodies that other operations
share. -/

namespace Sys2Proof.Machine

/-- `fail(cause)` in POLL: `seq` passes through Failed to Idle and the result is false (43_sequencer.md R188). -/
def pollFail (c : Cause) (s : State) : Bool × State := (false, setSeq .idle (setSeq .failed (noteFailure c s)))

/-- Step 7, commit, in one indivisible step (43_sequencer.md R187): bytes beyond the new frame hold no value. -/
def pollCommit (s : State) : Bool × State :=
  (true, setSeq .idle (setSeq .valid
    { s with snap := memBelow s.stage s.stageLen, snapLen := s.stageLen, snapValid := true }))

/-- Step 6, validation of the staged frame (43_sequencer.md R186). -/
def pollValidate (s : State) : Bool × State :=
  if statusValid (bufView s .stage s.stageLen) s.stageLen then pollCommit (lrcRun .stage s.stageLen s)
  else pollFail .frameInvalid (lrcRun .stage s.stageLen s)

/-- Step 5: the remaining L + 1 bytes go to `stage[3]` on (43_sequencer.md R186). -/
def takePayload (l : Byte) (s : State) : State :=
  { pop (l.toNat + 1) s with stage := memStore s.stage headerSize (s.rxq.take (l.toNat + 1)) }

/-- Steps 4 to 7: wait for L + 1 more bytes under the same request time (43_sequencer.md R185). -/
def pollPayload (l : Byte) (s : State) : Bool × State :=
  if (awaitBytes (l.toNat + 1) s).1 then pollValidate (takePayload l (awaitBytes (l.toNat + 1) s).2)
  else pollFail .timeout (awaitBytes (l.toNat + 1) s).2

/-- The declared payload length of the header at the front of the queue (43_sequencer.md R183). -/
def headerLen (s : State) : Byte := byteAt s.rxq lenOff

/-- Step 3: three header bytes go to `stage[0]` to `stage[2]`, and `stage_len <- L + 4` (43_sequencer.md R183). -/
def takeHeader (s : State) : State :=
  { pop headerSize s with
    stage := memStore s.stage 0 (s.rxq.take headerSize)
    stageLen := (headerLen s).toNat + frameOverhead }

/-- Steps 3 to 7, with the capacity check between steps 3 and 4 (43_sequencer.md R183, R184). -/
def pollHeader (s : State) : Bool × State :=
  if s.cfg.bufCap < (headerLen s).toNat + frameOverhead then pollFail .frameInvalid (takeHeader s)
  else pollPayload (headerLen s) (setSeq .awaitPayload (takeHeader s))

/-- The whole of POLL (43_sequencer.md R180): its boolean and the state when it returns. -/
def pollBody (s : State) : Bool × State :=
  let r := awaitBytes (headerSize + 1) (request [s.cfg.opGetStatus] s)
  if r.1 then pollHeader r.2 else pollFail .timeout r.2

/-- POLL as an operation: its boolean is delivered. -/
def pollRun (s : State) : Result :=
  hostOp s fun s => .next (deliver (.flag (pollBody s).1) (pollBody s).2)

/-- The ten bytes of a probe go to `tmp` (43_sequencer.md R190). -/
def takeTemp (s : State) : State := { pop tempLen s with tmp := memStore s.tmp 0 (s.rxq.take tempLen) }

/-- TEMP after its wait succeeded: the validation of the sentinel, then the value at offset 7 (43_sequencer.md R190). -/
def tempValidate (s : State) : Byte × State :=
  if tempValid (s.rxq.take tempLen) then (byteAt s.rxq tempValOff, setSeq .idle (takeTemp s))
  else (0, noteFailure .frameInvalid (setSeq .idle (takeTemp s)))

/-- The whole of TEMP (43_sequencer.md R190): its byte, 0 on failure, and the state when it returns. -/
def tempBody (s : State) : Byte × State :=
  let r := awaitBytes tempLen (request [s.cfg.opGetTemp] s)
  if r.1 then tempValidate r.2 else (0, setSeq .idle (noteFailure .timeout r.2))

/-- TEMP as an operation: its byte is delivered. -/
def tempRun (s : State) : Result :=
  hostOp s fun s => .next (deliver (.byte (tempBody s).1) (tempBody s).2)

/-- `POLL` (43_sequencer.md R180). -/
def execPoll (s : State) : Result := pollRun s

/-- `TEMP` (43_sequencer.md R190). -/
def execTemp (s : State) : Result := tempRun s

end Sys2Proof.Machine
end

