-- ==== Sys2Proof/Machine/Driver.lean ====
section
/-! DEFINITION. The driver layer's operations (44_driver_ops.md): SEND_COMMAND, POWER, WRITE_REGISTER, READ_FIELD,
SELECT_INPUT and the getters, with the bodies that wire commands and register opcodes share. -/

namespace Sys2Proof.Machine

/-- SEND_COMMAND after its wait succeeded: the oldest byte is the response (44_driver_ops.md R200). -/
def takeResponse (s : State) : Byte × State := (byteAt s.rxq 0, setSeq .idle (pop 1 s))

/-- The whole of SEND_COMMAND (44_driver_ops.md R200): the cache is updated at issue (R201), whatever answers. -/
def sendBody (op : Byte) (s : State) : Byte × State :=
  let r := awaitBytes 1 (updateCache op (request [op] s))
  if r.1 then takeResponse r.2 else (0, setSeq .idle (noteFailure .timeout r.2))

/-- SEND_COMMAND as an operation: the response byte, or 0, is delivered. -/
def sendRun (op : Byte) (s : State) : Result :=
  hostOp s fun s => .next (deliver (.byte (sendBody op s).1) (sendBody op s).2)

/-- `SEND_COMMAND op` (44_driver_ops.md R200). -/
def execSendCommand (op : Byte) (s : State) : Result := sendRun op s

/-- `POWER on` and `POWER off` (44_driver_ops.md R203). -/
def execPower (on : Bool) (s : State) : Result := sendRun (if on then s.cfg.opPwrOn else s.cfg.opPwrOff) s

/-- Whether a register write ends after its poll: the poll failed and there is no snapshot, or the policy is abort
(44_driver_ops.md R208). -/
def writeEndsEarly (ok : Bool) (s : State) : Bool :=
  !ok && (!s.snapValid || decide (s.cfg.wregOnPollFail = .abort))

/-- Whether an offset lies outside the payload of the frame held: `off < 3 or off > snap_len - 2`
(44_driver_ops.md R207). -/
def outsidePayload (off : Nat) (s : State) : Bool := decide (off < headerSize) || decide (s.snapLen < off + 2)

/-- The patch: the value at the offset, then the checksum over the latched length (44_driver_ops.md R205). -/
def patchSnapshot (off : Nat) (val : Byte) (s : State) : State :=
  lrcStoreRun .snap s.snapLen { s with snap := memWrite s.snap off (registerValue s.cfg off val) }

/-- The transmission of the whole snapshot and the closing flush (44_driver_ops.md R205). -/
def sendSnapshot (s : State) : State :=
  flushRx (transmit (bufView s .snap s.snapLen) (afterView .snap s.snapLen s))

/-- WRITE_REGISTER after its poll (44_driver_ops.md R205 to R208). -/
def writeAfterPoll (off : Nat) (val : Byte) (ok : Bool) (s : State) : State :=
  if writeEndsEarly ok s then s
  else if outsidePayload off s then s
  else sendSnapshot (patchSnapshot off val s)

/-- The whole of WRITE_REGISTER (44_driver_ops.md R205). -/
def writeBody (off : Nat) (val : Byte) (s : State) : State :=
  writeAfterPoll off val (pollBody s).1 (pollBody s).2

/-- WRITE_REGISTER as an operation: it has no result. -/
def writeRun (off : Nat) (val : Byte) (s : State) : Result :=
  hostOp s fun s => .next (deliver .nothing (writeBody off val s))

/-- `WRITE_REGISTER off, val` (44_driver_ops.md R205). -/
def execWriteRegister (off : Nat) (val : Byte) (s : State) : Result := writeRun off val s

/-- Whether an offset a field reads is part of what the field may read: for a raw offset the frame held
(44_driver_ops.md R216), for a special field its payload (R217). -/
def fieldHolds (f : Field) (s : State) (off : Nat) : Bool :=
  match f with
  | .raw _ => decide (off < s.snapLen)
  | .version => decide (off + 2 ≤ s.snapLen)
  | .power => decide (off + 2 ≤ s.snapLen)
  | .input => decide (off + 2 ≤ s.snapLen)
  | .vol _ => decide (off + 2 ≤ s.snapLen)

/-- The bytes at a list of offsets, none where one of them is outside the frame or holds no value. -/
def fieldBytes (f : Field) (s : State) : List Nat → Option (List Byte)
  | [] => some []
  | off :: rest =>
    if fieldHolds f s off then
      match memRead s.snap off, fieldBytes f s rest with
      | some b, some bs => some (b :: bs)
      | _, _ => none
    else none

/-- READ_FIELD after a successful poll: the field's number, a free number where the spec leaves the result unspecified
(44_driver_ops.md R210 to R217, log 15). -/
def readAfterPoll (f : Field) (s : State) : Nat × State :=
  match fieldBytes f s (fieldOffsets s.cfg f) with
  | some bs => (fieldValue f bs, s)
  | none => (Config.freeNumber s.draws, { s with draws := s.draws + 1 })

/-- The whole of READ_FIELD (44_driver_ops.md R210): 0 when the poll fails. -/
def readBody (f : Field) (s : State) : Nat × State :=
  if (pollBody s).1 then readAfterPoll f (pollBody s).2 else (0, (pollBody s).2)

/-- READ_FIELD as an operation: the number is delivered. -/
def readRun (f : Field) (s : State) : Result :=
  hostOp s fun s => .next (deliver (.number (readBody f s).1) (readBody f s).2)

/-- `READ_FIELD f` (44_driver_ops.md R210). -/
def execReadField (f : Field) (s : State) : Result := readRun f s

/-- The four bytes of the input-select sequence (44_driver_ops.md R218). -/
def selectSequence (c : Config) (i : Input) (eff : Byte) : List Byte := [c.opMuteOn, inputOpcode c i, eff, c.opMuteOff]

/-- The input-select exchange: one write of four bytes, then the closing flush; no cache effect
(44_driver_ops.md R218). -/
def selectRun (i : Input) (e : Effect) (s : State) : Result :=
  hostOp s fun s =>
    match effectOpcode s.cfg e with
    | some op => .next (deliver .nothing (flushRx (transmit (selectSequence s.cfg i op) s)))
    | none => .refused .illFormed

/-- `SELECT_INPUT in` (44_driver_ops.md R218, R219). -/
def execSelectInput (i : Input) (s : State) : Result := selectRun i (defaultEffect i) s

/-- `SELECT_INPUT in, eff` (44_driver_ops.md R218). -/
def execSelectInputEffect (i : Input) (e : Effect) (s : State) : Result := selectRun i e s

/-- `MUTED` (44_driver_ops.md R220). -/
def execMuted (s : State) : Result := hostOp s fun s => .next (deliver (.flag s.muted) s)

/-- `DECODE_MODE` (44_driver_ops.md R221). -/
def execDecodeMode (s : State) : Result := hostOp s fun s => .next (deliver (.flag s.decode) s)

/-- `SNAPSHOT` (44_driver_ops.md R222). -/
def execSnapshot (s : State) : Result :=
  hostOp s fun s =>
    if s.snapValid then .next (deliver (.bytes (bufView s .snap s.snapLen)) (afterView .snap s.snapLen s))
    else .refused .noSnapshot

/-- `CURRENT_EFFECT` (44_driver_ops.md R223): "The spec gives it no meaning: a model refuses it." -/
def execCurrentEffect (s : State) : Result := hostOp s fun _ => .refused .currentEffectUndefined

end Sys2Proof.Machine
end

