-- ==== Sys2Proof/Machine/Wire.lean ====
section
/-! DEFINITION. The rows of the wire, the line and the register opcodes (30_encoding.md R70 to R99). An outbound
message means the exchange in which the block sends it (log 3, log 6); an inbound message means its arrival (log 5). -/

namespace Sys2Proof.Machine

/-- `GET_STATUS` (30_encoding.md R74): "Sent only by POLL". -/
def execGetStatus (s : State) : Result := pollRun s

/-- `GET_TEMP` (30_encoding.md R75): "Sent only by TEMP". -/
def execGetTemp (s : State) : Result := tempRun s

/-- `PWR_ON` (30_encoding.md R76). -/
def execPwrOn (s : State) : Result := sendRun s.cfg.opPwrOn s

/-- `PWR_OFF` (30_encoding.md R77). -/
def execPwrOff (s : State) : Result := sendRun s.cfg.opPwrOff s

/-- `MUTE_ON`, format W1 (30_encoding.md R78). -/
def execMuteOn (s : State) : Result := sendRun s.cfg.opMuteOn s

/-- `MUTE_OFF`, format W1 (30_encoding.md R79). -/
def execMuteOff (s : State) : Result := sendRun s.cfg.opMuteOff s

/-- `INPUT_UP` (30_encoding.md R80). -/
def execInputUp (s : State) : Result := sendRun s.cfg.opInputUp s

/-- `INPUT_DOWN` (30_encoding.md R81). -/
def execInputDown (s : State) : Result := sendRun s.cfg.opInputDown s

/-- `SEL_INPUT_AUX`, format W1 (30_encoding.md R82). -/
def execSelInputAux (s : State) : Result := sendRun s.cfg.opSelInputAux s

/-- `SEL_INPUT_DSTEREO`, format W1 (30_encoding.md R83). -/
def execSelInputDStereo (s : State) : Result := sendRun s.cfg.opSelInputDStereo s

/-- `SEL_INPUT_C`, format W1 (30_encoding.md R84). -/
def execSelInputC (s : State) : Result := sendRun s.cfg.opSelInputC s

/-- `SEL_INPUT_D`, format W1 (30_encoding.md R85). -/
def execSelInputD (s : State) : Result := sendRun s.cfg.opSelInputD s

/-- `SEL_INPUT_E`, format W1 (30_encoding.md R86). -/
def execSelInputE (s : State) : Result := sendRun s.cfg.opSelInputE s

/-- `SEL_INPUT_F`, format W1 (30_encoding.md R87). -/
def execSelInputF (s : State) : Result := sendRun s.cfg.opSelInputF s

/-- `SEL_EFFECT_3D`, format W1 (30_encoding.md R88). -/
def execSelEffect3D (s : State) : Result := sendRun s.cfg.opSelEffect3D s

/-- `SEL_EFFECT_NONE`, format W1 (30_encoding.md R89). -/
def execSelEffectNone (s : State) : Result := sendRun s.cfg.opSelEffectNone s

/-- `SEL_EFFECT_e`, format W1, for the k-th further effect (30_encoding.md R90). -/
def execSelEffectE (k : Nat) (s : State) : Result :=
  match effectOpcode s.cfg (.further k) with
  | some op => sendRun op s
  | none => .refused .illFormed

/-- `DECODE_ON` (30_encoding.md R91). -/
def execDecodeOn (s : State) : Result := sendRun s.cfg.opDecodeOn s

/-- `DECODE_OFF` (30_encoding.md R92). -/
def execDecodeOff (s : State) : Result := sendRun s.cfg.opDecodeOff s

/-- `BLOCK_ON` (30_encoding.md R93). -/
def execBlockOn (s : State) : Result := sendRun s.cfg.opBlockOn s

/-- `BLOCK_OFF` (30_encoding.md R94). -/
def execBlockOff (s : State) : Result := sendRun s.cfg.opBlockOff s

/-- `EEPROM_SAVE` (30_encoding.md R95). -/
def execEepromSave (s : State) : Result := sendRun s.cfg.opEepromSave s

/-- `INPUT_SELECT_SEQUENCE`, format W4 (30_encoding.md R73, 44_driver_ops.md R218). -/
def execInputSelectSequence (i : Input) (e : Effect) (s : State) : Result := selectRun i e s

/-- A register opcode as the operand of READ_FIELD or WRITE_REGISTER (30_encoding.md R96, log 4). -/
def volumeRun (ch : VolChannel) (use : VolUse) (s : State) : Result :=
  match use with
  | .read => readRun (.vol ch) s
  | .write val => writeRun (volOffset s.cfg ch) val s

/-- `VOL_MAIN` (30_encoding.md R96). -/
def execVolMain (use : VolUse) (s : State) : Result := volumeRun .main use s

/-- `VOL_REAR` (30_encoding.md R96). -/
def execVolRear (use : VolUse) (s : State) : Result := volumeRun .rear use s

/-- `VOL_CENTER` (30_encoding.md R96). -/
def execVolCenter (use : VolUse) (s : State) : Result := volumeRun .center use s

/-- `VOL_SUB` (30_encoding.md R96). -/
def execVolSub (use : VolUse) (s : State) : Result := volumeRun .sub use s

/-- `STATUS_FRAME` (30_encoding.md R98): the amplifier sends it; its bytes arrive in order (41_transport.md R136). -/
def execStatusFrame (payload : List Byte) (s : State) : Result :=
  if payload.length ≤ 255 then .next (arriveAll (frameOf payload) s) else .refused .illFormed

/-- Whether a payload has the length of the one held and agrees with it everywhere but at its k-th byte. -/
def differsOnlyAt (payload : List Byte) (k : Nat) (s : State) : Bool :=
  decide (s.snapLen = payload.length + frameOverhead) &&
    (List.range payload.length).all fun j => j == k || memRead s.snap (headerSize + j) == payload[j]?

/-- The operands with which WRITE_REGISTER would make a payload of the one held, if there are any: "the snapshot with
one payload byte replaced" (30_encoding.md R98). -/
def frameArguments (payload : List Byte) (s : State) : Option (Nat × Byte) :=
  (List.range payload.length).findSome? fun k =>
    if differsOnlyAt payload k s then
      (registerArgument s.cfg (headerSize + k) (byteAt payload k)).map fun v => (headerSize + k, v)
    else none

/-- WRITE_REGISTER's exchange for a register-write frame: its poll, then the frame where it is the polled snapshot with
one payload byte replaced, and nothing more where it is not (30_encoding.md R98, 44_driver_ops.md R205, R207; log 6). -/
def writeFrameBody (payload : List Byte) (s : State) : State :=
  match frameArguments payload (pollBody s).2 with
  | some (off, val) => writeAfterPoll off val (pollBody s).1 (pollBody s).2
  | none => (pollBody s).2

/-- `REGISTER_WRITE_FRAME` (30_encoding.md R98, 44_driver_ops.md R205): the frame WRITE_REGISTER emits, and so the
exchange of the WRITE_REGISTER that emits it (DEDUCED, log 6). -/
def execRegisterWriteFrame (payload : List Byte) (s : State) : Result :=
  hostOp s fun s =>
    if payload.length ≤ 255 then .next (deliver .nothing (writeFrameBody payload s))
    else .refused .illFormed

/-- `TEMPERATURE_FRAME` (30_encoding.md R99): its ten bytes arrive in order (41_transport.md R136). -/
def execTemperatureFrame (f : TempFrame) (s : State) : Result :=
  .next (arriveAll (tempFrameOf f.x0 f.x1 f.x3 f.x4 f.x5 f.x6 f.t f.x8 f.x9) s)

/-- `RESPONSE_BYTE` (30_encoding.md R73, format R1): it arrives (41_transport.md R136). -/
def execResponseByte (v : Byte) (s : State) : Result := .next (arriveAll [v] s)

/-- Whether a character is undamaged: its parity is odd and its stop bit is there (30_encoding.md R70, R71). -/
def characterIntact (d : Byte) (parity stop : Bool) : Bool := parity == oddParity d && stop

/-- `UART_CHARACTER` (30_encoding.md R70 to R72). Inbound, the byte enters `rxq` at the stop bit when the character is
intact, and under RX_ERR_POLICY = deliver whatever the character (41_transport.md R136). Outbound, the block has handed
one byte to the line (R132), always as an intact character (log 7). -/
def execUartCharacter (dir : LineDir) (d : Byte) (parity stop : Bool) (s : State) : Result :=
  match dir with
  | .inbound =>
    if characterIntact d parity stop || decide (s.cfg.rxErrPolicy = .deliver) then .next (arrive d s) else .next s
  | .outbound => if characterIntact d parity stop then .next (tx [d] s) else .refused .illFormed

end Sys2Proof.Machine
end

