-- ==== Sys2Proof/Machine/Dispatch.lean ====
section
/-! DEFINITION. The dispatch: one arm per constructor of `Instr`, each one call of a meaning of its own. -/

namespace Sys2Proof.Machine

/-- The meaning of an instruction. -/
def exec (i : Instr) (s : State) : Host.Outcome State Fault Refusal :=
  match i with
  | .getStatus => Sys2Proof.Machine.execGetStatus s
  | .getTemp => Sys2Proof.Machine.execGetTemp s
  | .pwrOn => Sys2Proof.Machine.execPwrOn s
  | .pwrOff => Sys2Proof.Machine.execPwrOff s
  | .muteOn => Sys2Proof.Machine.execMuteOn s
  | .muteOff => Sys2Proof.Machine.execMuteOff s
  | .inputUp => Sys2Proof.Machine.execInputUp s
  | .inputDown => Sys2Proof.Machine.execInputDown s
  | .selInputAux => Sys2Proof.Machine.execSelInputAux s
  | .selInputDStereo => Sys2Proof.Machine.execSelInputDStereo s
  | .selInputC => Sys2Proof.Machine.execSelInputC s
  | .selInputD => Sys2Proof.Machine.execSelInputD s
  | .selInputE => Sys2Proof.Machine.execSelInputE s
  | .selInputF => Sys2Proof.Machine.execSelInputF s
  | .selEffect3D => Sys2Proof.Machine.execSelEffect3D s
  | .selEffectNone => Sys2Proof.Machine.execSelEffectNone s
  | .selEffectE k => Sys2Proof.Machine.execSelEffectE k s
  | .decodeOn => Sys2Proof.Machine.execDecodeOn s
  | .decodeOff => Sys2Proof.Machine.execDecodeOff s
  | .blockOn => Sys2Proof.Machine.execBlockOn s
  | .blockOff => Sys2Proof.Machine.execBlockOff s
  | .eepromSave => Sys2Proof.Machine.execEepromSave s
  | .inputSelectSequence inp eff => Sys2Proof.Machine.execInputSelectSequence inp eff s
  | .volMain use => Sys2Proof.Machine.execVolMain use s
  | .volRear use => Sys2Proof.Machine.execVolRear use s
  | .volCenter use => Sys2Proof.Machine.execVolCenter use s
  | .volSub use => Sys2Proof.Machine.execVolSub use s
  | .statusFrame payload => Sys2Proof.Machine.execStatusFrame payload s
  | .registerWriteFrame payload => Sys2Proof.Machine.execRegisterWriteFrame payload s
  | .temperatureFrame f => Sys2Proof.Machine.execTemperatureFrame f s
  | .responseByte v => Sys2Proof.Machine.execResponseByte v s
  | .uartCharacter dir d parity stop => Sys2Proof.Machine.execUartCharacter dir d parity stop s
  | .lrc buf n => Sys2Proof.Machine.execLrc buf n s
  | .lrcStore buf n => Sys2Proof.Machine.execLrcStore buf n s
  | .lrcCheck buf n => Sys2Proof.Machine.execLrcCheck buf n s
  | .flush => Sys2Proof.Machine.execFlush s
  | .txWrite bs => Sys2Proof.Machine.execTxWrite bs s
  | .await n => Sys2Proof.Machine.execAwait n s
  | .read n => Sys2Proof.Machine.execRead n s
  | .validateStatus buf n => Sys2Proof.Machine.execValidateStatus buf n s
  | .validateTemp buf => Sys2Proof.Machine.execValidateTemp buf s
  | .demux => Sys2Proof.Machine.execDemux s
  | .poll => Sys2Proof.Machine.execPoll s
  | .temp => Sys2Proof.Machine.execTemp s
  | .sendCommand op => Sys2Proof.Machine.execSendCommand op s
  | .writeRegister off val => Sys2Proof.Machine.execWriteRegister off val s
  | .readField f => Sys2Proof.Machine.execReadField f s
  | .selectInput inp => Sys2Proof.Machine.execSelectInput inp s
  | .selectInputEffect inp eff => Sys2Proof.Machine.execSelectInputEffect inp eff s
  | .power on => Sys2Proof.Machine.execPower on s
  | .muted => Sys2Proof.Machine.execMuted s
  | .decodeMode => Sys2Proof.Machine.execDecodeMode s
  | .snapshot => Sys2Proof.Machine.execSnapshot s
  | .currentEffect => Sys2Proof.Machine.execCurrentEffect s

end Sys2Proof.Machine
end

