-- ==== Sys2Proof/Machine/Step.lean ====
section
/-! DEFINITION. The step: the oldest presented message is decoded and run; with nothing presented the block is idle
and the environment may move (00_scope.md R16). The block fetches no instructions (00_scope.md R2): the operation port
stands in the place of a program counter. -/

namespace Sys2Proof.Machine

/-- One step. -/
def step (s : State) : Host.Outcome State Fault Refusal :=
  match s.port with
  | [] => .next (idle s)
  | m :: rest =>
    match Sys2Proof.decode s.cfg m with
    | .ok i => exec i { s with port := rest }
    | .error e => .refused (.undecoded e)

/-- `s` with the instruction of a table word presented as the next message; nothing else changes (log 22). -/
def State.withFetchWord (s : State) (nbits w : Nat) : State :=
  match tableRead s.cfg nbits w with
  | some (m, _) => { s with port := m :: s.port }
  | none => { s with port := ⟨.host, bytesOfNumber ((nbits + 7) / 8) w, []⟩ :: s.port }

end Sys2Proof.Machine
end

