-- ==== Sys2Proof/Safety.lean ====
section
/-! DEFINITION. The terms in which statements about the machine are written: which parts of the state an instruction
leaves alone, what the environment's schedule delivers, which instructions are the same exchange, the invariants. -/

namespace Sys2Proof.Safety

open Sys2Proof.Machine

/-! ## Frames -/

/-- The parts of the state. -/
inductive Part where
  | acc | snap | snapLen | snapValid | stage | stageLen | tmp | rxq | txs | seq | t0 | now | muted | decode | busy
  | cfg | cause | hist | result | port | env | draws
  deriving DecidableEq, Repr

/-- Two memories read the same byte, or hold no value alike, at every address. -/
def SameBytes (m m' : Memory) : Prop := ∀ a, memRead m' a = memRead m a

/-- A part of the state is the same before and after; a buffer when every address reads the same. -/
def samePart (s t : State) : Part → Prop
  | .acc => t.acc = s.acc
  | .snap => SameBytes s.snap t.snap
  | .snapLen => t.snapLen = s.snapLen
  | .snapValid => t.snapValid = s.snapValid
  | .stage => SameBytes s.stage t.stage
  | .stageLen => t.stageLen = s.stageLen
  | .tmp => SameBytes s.tmp t.tmp
  | .rxq => t.rxq = s.rxq
  | .txs => t.txs = s.txs
  | .seq => t.seq = s.seq
  | .t0 => t.t0 = s.t0
  | .now => t.now = s.now
  | .muted => t.muted = s.muted
  | .decode => t.decode = s.decode
  | .busy => t.busy = s.busy
  | .cfg => t.cfg = s.cfg
  | .cause => t.cause = s.cause
  | .hist => t.hist = s.hist
  | .result => t.result = s.result
  | .port => t.port = s.port
  | .env => t.env = s.env
  | .draws => t.draws = s.draws

/-- Every part of the state but the listed ones is the same after. -/
def OnlyChanges (ps : List Part) (s t : State) : Prop := ∀ p, p ∉ ps → samePart s t p

/-- The snapshot, its length and its validity are the same after. -/
def SnapshotKept (s t : State) : Prop :=
  SameBytes s.snap t.snap ∧ t.snapLen = s.snapLen ∧ t.snapValid = s.snapValid

/-! ## Bytes an instruction reads -/

/-- The byte a buffer reference holds at an index, none where it holds no value. -/
def heldByte (s : State) (b : BufRef) (i : Nat) : Option Byte :=
  match b with
  | .snap => memRead s.snap i
  | .stage => memRead s.stage i
  | .given bs => bs[i]?

/-- The same of VALIDATE_TEMP's operand. -/
def heldTemp (s : State) (b : TempRef) (i : Nat) : Option Byte :=
  match b with
  | .tmp => memRead s.tmp i
  | .given bs => bs[i]?

/-- The part of the state a buffer reference names, none for a given sequence. -/
def bufPart : BufRef → List Part
  | .snap => [.snap]
  | .stage => [.stage]
  | .given _ => []

/-- Whether the byte at an index of a buffer of the block can be given a value: of `snap`, the bytes of the frame held
and no others (10_state.md R23). -/
def Storable (s : State) (b : BufRef) (i : Nat) : Prop :=
  match b with
  | .snap => s.snapValid = true ∧ i < s.snapLen
  | .stage => True
  | .given _ => False

/-- A buffer holds a value at each index of a range that includes both ends, and `f` says which. -/
def HeldOn (s : State) (b : BufRef) (lo hi : Nat) (f : Nat → Byte) : Prop :=
  ∀ i, lo ≤ i → i ≤ hi → heldByte s b i = some (f i)

/-- The sum of the bytes at the indices of a range that includes both ends (empty where the first end is greater). -/
def sumOn (lo hi : Nat) (f : Nat → Byte) : Nat := ∑ i ∈ Finset.Icc lo hi, (f i).toNat

/-- `(256 − (Σ mod 256)) mod 256`, the sum being over the indices 1 to n−2 (40_lrc.md R120, R124). -/
def lrcClosedForm (n : Nat) (f : Nat → Byte) : Nat := (256 - sumOn 1 (n - 2) f % 256) % 256

/-! ## Schedules of the environment -/

/-- The ticks a schedule adds. -/
def totalTicks (ms : List EnvMove) : Nat := (ms.map EnvMove.ticks).sum

/-- The bytes a schedule delivers, in order. -/
def allBytes (ms : List EnvMove) : List Byte := ms.flatMap EnvMove.bytes

/-- The environment's schedule opens with one move for the deadtime of the request and then `ms`, whose moves together
stay below TIMEOUT: whatever `ms` delivers comes in time for an exchange of one write. -/
def AnswersInTime (s : State) (ms : List EnvMove) : Prop :=
  totalTicks ms < s.cfg.timeout ∧ ∃ first rest, s.env = first :: (ms ++ rest)

/-- Those moves deliver exactly the bytes `bs`, and the queue has room for all of them. -/
def Brings (s : State) (ms : List EnvMove) (bs : List Byte) : Prop :=
  AnswersInTime s ms ∧ allBytes ms = bs ∧ bs.length ≤ s.cfg.rxDepth

/-- Nothing the environment will send is a byte: a dead or silent link (60_exceptions.md R241). -/
def SilentLink (s : State) : Prop := allBytes s.env = []

/-- The moves of the schedule `ms` that an exchange of one write has used up, and what it has left in the queue: the
move of the deadtime and a first part of `ms` are gone from the schedule, and what that part brought is queued but for
its n oldest bytes. -/
def LeftQueued (s t : State) (ms : List EnvMove) (n : Nat) : Prop :=
  ∃ used, used <+: ms ∧ s.env.tail = used ++ t.env ∧ t.rxq = (allBytes used).drop n

/-- After the move of the deadtime the schedule is `ms`, which brings exactly the bytes `bs`, and no more come before
TIMEOUT: the schedule ends with `ms`, or `ms` lasts until TIMEOUT. The queue has room for all of them. -/
def BringsOnly (s : State) (ms : List EnvMove) (bs : List Byte) : Prop :=
  (∃ rest, s.env.tail = ms ++ rest ∧ (rest = [] ∨ s.cfg.timeout ≤ totalTicks ms)) ∧ allBytes ms = bs ∧
    bs.length ≤ s.cfg.rxDepth

/-! ## The order of the event history -/

/-- Every event of a piece of history is a byte that arrived, queued or lost. -/
def OnlyArrivals (h : List Event) : Prop :=
  ∀ e ∈ h, (∃ b, e = .arrived b) ∨ ∃ b, e = .lost b

/-- A history goes on with one discard instant, bytes having arrived before it and nothing else having happened. -/
def FlushFollows (h h' : List Event) : Prop := ∃ pre q, OnlyArrivals pre ∧ h' = h ++ pre ++ [.flushed q]

/-- A history goes on with one discard instant and then one write of the bytes `bs`: bytes may have arrived before the
discard instant, and nothing else happened (41_transport.md R131: "Exactly one flush precedes each write"). -/
def WriteFollows (h h' : List Event) (bs : List Byte) : Prop :=
  ∃ pre q, OnlyArrivals pre ∧ h' = h ++ pre ++ [.flushed q, .sent bs]

/-- The moves of `seq` in a history, oldest first. -/
def seqMoves (h : List Event) : List Seq :=
  h.filterMap fun e => match e with | .seqTo q => some q | _ => none

/-- The number of discard instants in a history. -/
def flushCount (h : List Event) : Nat :=
  (h.filter fun e => match e with | .flushed _ => true | _ => false).length

/-! ## Families of instructions that are one exchange -/

/-- The opcode an instruction issues as a single-byte command with a response: SEND_COMMAND, POWER, and every wire
command but GET_STATUS and GET_TEMP (44_driver_ops.md R200, R203; 30_encoding.md R76 to R95). -/
def commandOpcode (c : Config) : Instr → Option Byte
  | .sendCommand op => some op
  | .power on => some (if on then c.opPwrOn else c.opPwrOff)
  | .pwrOn => some c.opPwrOn
  | .pwrOff => some c.opPwrOff
  | .muteOn => some c.opMuteOn
  | .muteOff => some c.opMuteOff
  | .inputUp => some c.opInputUp
  | .inputDown => some c.opInputDown
  | .selInputAux => some c.opSelInputAux
  | .selInputDStereo => some c.opSelInputDStereo
  | .selInputC => some c.opSelInputC
  | .selInputD => some c.opSelInputD
  | .selInputE => some c.opSelInputE
  | .selInputF => some c.opSelInputF
  | .selEffect3D => some c.opSelEffect3D
  | .selEffectNone => some c.opSelEffectNone
  | .selEffectE k => c.opSelEffectMore[k]?
  | .decodeOn => some c.opDecodeOn
  | .decodeOff => some c.opDecodeOff
  | .blockOn => some c.opBlockOn
  | .blockOff => some c.opBlockOff
  | .eepromSave => some c.opEepromSave
  | _ => none

/-- The offset and the value of a register write: WRITE_REGISTER, or a register opcode used as its operand
(44_driver_ops.md R205, 30_encoding.md R96). -/
def registerWrite (c : Config) : Instr → Option (Nat × Byte)
  | .writeRegister off val => some (off, val)
  | .volMain (.write val) => some (c.offMain, val)
  | .volRear (.write val) => some (c.offRear, val)
  | .volCenter (.write val) => some (c.offCenter, val)
  | .volSub (.write val) => some (c.offSub, val)
  | _ => none

/-- The field of a field read: READ_FIELD, or a register opcode used as its operand (44_driver_ops.md R210,
30_encoding.md R96). -/
def fieldRead : Instr → Option Field
  | .readField f => some f
  | .volMain .read => some (.vol .main)
  | .volRear .read => some (.vol .rear)
  | .volCenter .read => some (.vol .center)
  | .volSub .read => some (.vol .sub)
  | _ => none

/-- The input and the effect of an input selection (44_driver_ops.md R218, R219): an absent effect is E3D for the
auxiliary-analog and the stereo-digital input and ENONE for every other. -/
def inputSelection : Instr → Option (Input × Effect)
  | .selectInput i => some (i, if i = .aux ∨ i = .dstereo then .e3d else .noEffect)
  | .selectInputEffect i e => some (i, e)
  | .inputSelectSequence i e => some (i, e)
  | _ => none

/-- The bytes an inbound message brings (30_encoding.md R73). -/
def inboundBytes : Instr → Option (List Byte)
  | .statusFrame payload => if payload.length ≤ 255 then some (frameOf payload) else none
  | .temperatureFrame f => some [f.x0, f.x1, 0x0C, f.x3, f.x4, f.x5, f.x6, f.t, f.x8, f.x9]
  | .responseByte v => some [v]
  | _ => none

/-- Whether an instruction is an event of the line and not an operation of the host (00_scope.md R16). -/
def isLineEvent : Instr → Bool
  | .statusFrame _ => true
  | .temperatureFrame _ => true
  | .responseByte _ => true
  | .uartCharacter _ _ _ _ => true
  | _ => false

/-- Whether an instruction polls: POLL, GET_STATUS, READ_FIELD, WRITE_REGISTER with its frame, and the register opcodes
(43_sequencer.md R189). -/
def polls : Instr → Bool
  | .poll => true
  | .getStatus => true
  | .readField _ => true
  | .writeRegister _ _ => true
  | .registerWriteFrame _ => true
  | .volMain _ => true
  | .volRear _ => true
  | .volCenter _ => true
  | .volSub _ => true
  | _ => false

/-- Whether an instruction is LRC_STORE on the snapshot itself, the one operation besides a poll and a register write
that writes `snap` (40_lrc.md R121). -/
def storesIntoSnapshot : Instr → Bool
  | .lrcStore .snap _ => true
  | _ => false

/-! ## Frames held in a buffer -/

/-- The snapshot holds exactly the bytes of a frame, and no value beyond them. -/
def SnapshotIs (s : State) (frame : List Byte) : Prop :=
  s.snapValid = true ∧ s.snapLen = frame.length ∧ ∀ a, memRead s.snap a = frame[a]?

/-- A byte sequence is a valid status frame (42_frame_codec.md R150 with the length of 30_encoding.md R98). -/
def ValidFrame (frame : List Byte) : Prop :=
  ∃ payload : List Byte, payload.length ≤ 255 ∧ frame = frameOf payload

/-- The number 44_driver_ops.md R211 to R215 give a field of a frame, none where an offset it reads lies outside what
R216 and R217 let it read. -/
def fieldNumber (c : Config) (f : Field) (frame : List Byte) : Option Nat :=
  let at' : Nat → Option Nat := fun off => if off + 2 ≤ frame.length then frame[off]?.map BitVec.toNat else none
  match f with
  | .version =>
    match at' c.offFwA, at' c.offFwB, at' c.offFwC with
    | some a, some b, some c => some (c + 10 * b + 100 * a)
    | _, _, _ => none
  | .power => (at' c.offStandby).map fun v => if v = 0 then 1 else 0
  | .input => at' c.offInput
  | .vol .main => (at' c.offMain).map fun v => v * 255 / 43
  | .vol .rear => (at' c.offRear).map fun v => v * 255 / 43
  | .vol .center => (at' c.offCenter).map fun v => v * 255 / 43
  | .vol .sub => (at' c.offSub).map fun v => v * 255 / 43
  | .raw off => frame[off]?.map BitVec.toNat

/-- The payload of a frame with the byte at an offset of the frame replaced. -/
def patchedPayload (payload : List Byte) (off : Nat) (v : Byte) : List Byte := payload.set (off - 3) v

/-- The byte a register write puts at an offset (44_driver_ops.md R206). -/
def writtenByte (c : Config) (off : Nat) (val : Byte) : Byte :=
  if off = c.offMain ∨ off = c.offRear ∨ off = c.offCenter ∨ off = c.offSub then BitVec.ofNat 8 (val.toNat * 43 / 255)
  else val

/-- An output of the demultiplexer (42_frame_codec.md R155, R166): the byte at the offset, where the offset is not
beyond the payload of the frame held. -/
def payloadByte (s : State) (off : Nat) : Option Byte := if off ≤ s.snapLen - 2 ∧ 2 ≤ s.snapLen then memRead s.snap off else none

/-! ## Invariants -/

/-- Every place below an address holds a value. -/
def Holds (m : Memory) (n : Nat) : Prop := ∀ a, a < n → (memRead m a).isSome = true

/-- No place at or above an address holds a value. -/
def Below (m : Memory) (n : Nat) : Prop := ∀ a, n ≤ a → memRead m a = none

/-- What every step keeps. -/
structure Inv (s : State) : Prop where
  /-- The parameters are legal (00_scope.md R9 to R12). -/
  cfgLegal : s.cfg.wf = true
  /-- The buffers keep their canonical form. -/
  snapForm : Memory.wf s.snap = true
  stageForm : Memory.wf s.stage = true
  tmpForm : Memory.wf s.tmp = true
  /-- The buffers hold nothing beyond their sizes (10_state.md R22, R25, R27). -/
  snapSize : Below s.snap s.cfg.bufCap
  stageSize : Below s.stage s.cfg.bufCap
  tmpSize : Below s.tmp tempLen
  /-- The queue holds at most RX_DEPTH bytes (10_state.md R28). -/
  rxqSize : s.rxq.length ≤ s.cfg.rxDepth
  /-- `snap` holds no value from `snap_len` up, and none at all while no frame is held (10_state.md R23, R24). -/
  snapEnd : Below s.snap (if s.snapValid then s.snapLen else 0)
  /-- A valid snapshot has a length of 4..BUF_CAP and holds a value at each of its offsets (10_state.md R23). -/
  snapshotHeld : s.snapValid = true → 4 ≤ s.snapLen ∧ s.snapLen ≤ s.cfg.bufCap ∧ Holds s.snap s.snapLen
  /-- The request time is not in the future (10_state.md R31, R32). -/
  requestPast : s.t0 ≤ s.now
  /-- Between operations the block is ready (70_reset_and_hazards.md R286). -/
  notBusy : s.busy = false
  seqIdle : s.seq = .idle

/-- While `snap_valid` = 1 the bytes at the offsets of the frame held make a valid frame: start marker, model, a length
byte that says the frame's own length, and the right checksum (10_state.md R36, 44_driver_ops.md R207, R209). -/
def SnapshotFrameValid (s : State) : Prop :=
  s.snapValid = true → ∃ frame, ValidFrame frame ∧ s.snapLen = frame.length ∧ ∀ a, a < s.snapLen → memRead s.snap a = frame[a]?

/-! ## Ghost state -/

/-- The state with the ghosts of 10_state.md R44 wiped. -/
def eraseGhost (s : State) : State := { s with cause := none, hist := [] }

/-- An outcome with the ghosts of its next state wiped. -/
def eraseOutcome : Host.Outcome State Fault Refusal → Host.Outcome State Fault Refusal
  | .next s => .next (eraseGhost s)
  | .fault f => .fault f
  | .refused r => .refused r

end Sys2Proof.Safety
end

