-- ==== Sys2Proof/Certificates/Slice0/Obligations.lean ====
section
/-! DEFINITION. The statements about the machine that are handed to the provers. Parts, premises and computed values
are those of Sys2Proof/Safety.lean. In every statement about an operation of the host `busy` = 0 is a premise: with
`busy` = 1 the host has no move, which `Obligations.BusyBlockRefuses` says. -/

open Sys2Proof Sys2Proof.Machine Sys2Proof.Safety

/-! ## Messages -/

/-- 30_encoding.md R73, R96, R98 to R100: whatever a well-formed instruction is written as, it is read back, with every
operand. -/
def Obligations.DecodeOfEncode : Prop :=
  ∀ (c : Config) (i : Instr), c.wf = true → i.wf c = true → decode c (encode c i) = .ok i

/-- 30_encoding.md R73, R96, R98 to R113: no message decodes to operands outside their domains. -/
def Obligations.DecodedIsWellFormed : Prop :=
  ∀ (c : Config) (m : Message) (i : Instr), decode c m = .ok i → i.wf c = true

/-- 30_encoding.md R73, R96, R98 to R100: each message that decodes is the one message of its instruction. -/
def Obligations.EncodeOfDecode : Prop :=
  ∀ (c : Config) (m : Message) (i : Instr), decode c m = .ok i → encode c i = m

/-- A few words written out from 30_encoding.md R98 to R113 under EX1 of 95_test_vectors.md, and the eleven bits of the
character of R70 for 34, packed into two bytes, the first bit lowest: the packing is the model's (log 7, PRESUMED). -/
def Obligations.SpecWordsDecode : Prop :=
  decode Config.ex1 ⟨.host, [0x22, 0x03], []⟩ = .ok (.readField (.vol .main)) ∧
  decode Config.ex1 ⟨.host, [0x21, 0x03, 0x80], []⟩ = .ok (.writeRegister 3 128) ∧
  decode Config.ex1 ⟨.host, [0x23, 0x00], []⟩ = .ok (.selectInput .aux) ∧
  decode Config.ex1 ⟨.host, [0x23, 0x02, 0x00], []⟩ = .ok (.selectInputEffect .inC .e3d) ∧
  decode Config.ex1 ⟨.host, [0x24, 0x01], []⟩ = .ok (.power true) ∧
  decode Config.ex1 ⟨.w1, [0xE2], []⟩ = .ok .muteOn ∧
  decode Config.ex1 ⟨.w4, [0xE2, 0xE4, 0xEA, 0xE3], []⟩ = .ok (.inputSelectSequence .aux .e3d) ∧
  decode Config.ex1 ⟨.rs, [0xAA, 0x0A, 0x01, 0xF6, 0xFF], []⟩ = .ok (.statusFrame [0xF6]) ∧
  decode Config.ex1 ⟨.rs, [0xAA, 0x0A, 0x00, 0xF7], []⟩ = .error .badChecksum ∧
  decode Config.ex1 ⟨.charIn, [0x68, 0x04], []⟩ = .ok (.uartCharacter .inbound 0x34 false true)

/-- 30_encoding.md R98, R115: the layout of formats RS and WF, and the sum that is 0 modulo 256. -/
def Obligations.StatusFrameLayout : Prop :=
  ∀ p : List Byte, p.length ≤ 255 →
    (frameOf p).length = p.length + 4 ∧
    (frameOf p)[0]? = some 0xAA ∧ (frameOf p)[1]? = some 0x0A ∧
    (∃ l : Byte, (frameOf p)[2]? = some l ∧ l.toNat = p.length) ∧
    (∀ k, k < p.length → (frameOf p)[k + 3]? = p[k]?) ∧
    sumOn 1 (p.length + 3) (byteAt (frameOf p)) % 256 = 0

/-- 30_encoding.md R71: "P is chosen so that the number of 1 bits among d0..d7 and P is odd", with its four examples. -/
def Obligations.ParityIsOdd : Prop :=
  (∀ d : Byte, ((dataBitsOf d).count true + (oddParity d).toNat) % 2 = 1 ∧
    oddParity d =
      (true ^^ d.getLsbD 0 ^^ d.getLsbD 1 ^^ d.getLsbD 2 ^^ d.getLsbD 3 ^^ d.getLsbD 4 ^^ d.getLsbD 5 ^^ d.getLsbD 6 ^^
        d.getLsbD 7)) ∧
  oddParity 0x34 = false ∧ oddParity 0xAA = true ∧ oddParity 0x00 = true ∧ oddParity 0xFF = true

/-! ## The LRC unit -/

/-- 40_lrc.md R120: LRC completes on every buffer of at least n bytes; the result, which also stands in `acc`, is the
closed form of the bytes at 1 to n−2, whatever bytes 0 and n−1 are and whether they hold a value; nothing else is
written. -/
def Obligations.LrcComputes : Prop :=
  ∀ (s : State) (buf : BufRef) (n : Nat), s.busy = false → n ≤ bufSize s.cfg buf →
    ∃ t, exec (.lrc buf n) s = .next t ∧ OnlyChanges [.acc, .result, .draws] s t ∧ t.result = .byte t.acc ∧
      ∀ f : Nat → Byte, HeldOn s buf 1 (n - 2) f → t.acc.toNat = lrcClosedForm n f

/-- 40_lrc.md R124: for n ≤ 2 the range is empty and the result is 0; LRC_STORE and LRC_CHECK with n = 0 are refused. -/
def Obligations.LrcShortLengths : Prop :=
  (∀ (s : State) (buf : BufRef) (n : Nat), s.busy = false → n ≤ 2 → n ≤ bufSize s.cfg buf →
    ∃ t, exec (.lrc buf n) s = .next t ∧ t.result = .byte 0 ∧ t.acc = 0) ∧
  ∀ (s : State) (buf : BufRef), s.busy = false →
    exec (.lrcStore buf 0) s = .refused .noChecksumSlot ∧ exec (.lrcCheck buf 0) s = .refused .noChecksumSlot

/-- 40_lrc.md R121: LRC_STORE completes on every buffer of at least n ≥ 1 bytes; it writes the closed form of the
bytes at 1 to n−2 to index n−1 of the buffer, and nothing else of it. A slot of `snap` beyond the frame held gets no
value (10_state.md R23 with 20_memory.md R58; DEDUCED, log 30); a sequence given to the unit comes back with its slot
written (log 17). -/
def Obligations.LrcStoreWritesSlot : Prop :=
  ∀ (s : State) (buf : BufRef) (n : Nat), s.busy = false → 1 ≤ n → n ≤ bufSize s.cfg buf →
    ∃ t, exec (.lrcStore buf n) s = .next t ∧ OnlyChanges (bufPart buf ++ [.acc, .result, .draws]) s t ∧
      (bufPart buf ≠ [] → t.result = .nothing) ∧ (∀ a, a ≠ n - 1 → heldByte t buf a = heldByte s buf a) ∧
      (Storable s buf (n - 1) → heldByte t buf (n - 1) = some t.acc) ∧
      (¬Storable s buf (n - 1) → heldByte t buf (n - 1) = heldByte s buf (n - 1)) ∧
      (∀ bs, buf = .given bs → t.result = .bytes (bs.set (n - 1) t.acc)) ∧
      ∀ f : Nat → Byte, HeldOn s buf 1 (n - 2) f → t.acc.toNat = lrcClosedForm n f

/-- 40_lrc.md R121: after LRC_STORE on a buffer of the block whose slot can hold a value, LRC_CHECK at the same length
is true. -/
def Obligations.LrcStoreThenCheck : Prop :=
  ∀ (s : State) (buf : BufRef) (n : Nat) (f : Nat → Byte), s.busy = false → 1 ≤ n → n ≤ bufSize s.cfg buf →
    Storable s buf (n - 1) → HeldOn s buf 1 (n - 2) f →
    ∃ t u, exec (.lrcStore buf n) s = .next t ∧ exec (.lrcCheck buf n) t = .next u ∧ u.result = .flag true

/-- 40_lrc.md R122, R123: LRC_CHECK completes on every buffer of at least n ≥ 1 bytes, writes `acc` alone, and compares
the byte at n−1 with the closed form of the bytes at 1 to n−2; for n of at least 2 that is the sum of the bytes at 1 to
n−1 being 0 modulo 256. At n = 1 the model follows the comparison of R122, of byte 0 with 0, and not the empty sum of R123
(DEDUCED, log 26). -/
def Obligations.LrcCheckIsSumToZero : Prop :=
  ∀ (s : State) (buf : BufRef) (n : Nat), s.busy = false → 1 ≤ n → n ≤ bufSize s.cfg buf →
    ∃ t, exec (.lrcCheck buf n) s = .next t ∧ OnlyChanges [.acc, .result, .draws] s t ∧
      ∀ f : Nat → Byte, HeldOn s buf (min 1 (n - 1)) (n - 1) f →
        t.result = .flag (decide ((f (n - 1)).toNat = lrcClosedForm n f)) ∧
        (2 ≤ n → t.result = .flag (decide (sumOn 1 (n - 1) f % 256 = 0)))

/-- 40_lrc.md R125: at a fixed length, a true check turns false when exactly one byte at 1 to n−1 changes; a change of
byte 0 is not seen; two changes, of the covered bytes 3 and 4 of a sequence, can cancel. -/
def Obligations.SingleByteFlipDetected : Prop :=
  (∀ (s t : State) (bs : List Byte) (n i : Nat) (v : Byte), s.busy = false → n ≤ bs.length → 1 ≤ i → i + 1 ≤ n →
    bs[i]? ≠ some v → exec (.lrcCheck (.given bs) n) s = .next t → t.result = .flag true →
    ∃ u, exec (.lrcCheck (.given (bs.set i v)) n) s = .next u ∧ u.result = .flag false) ∧
  (∀ (s : State) (bs : List Byte) (n : Nat) (v : Byte), s.busy = false → n ≤ bs.length → 2 ≤ n →
    ∃ t u, exec (.lrcCheck (.given bs) n) s = .next t ∧ exec (.lrcCheck (.given (bs.set 0 v)) n) s = .next u ∧
      t.result = u.result) ∧
  ∃ (s t u : State) (bs : List Byte) (a b : Byte), 4 < bs.length ∧
    exec (.lrcCheck (.given bs) bs.length) s = .next t ∧ t.result = .flag true ∧ bs[3]? ≠ some a ∧ bs[4]? ≠ some b ∧
    exec (.lrcCheck (.given ((bs.set 3 a).set 4 b)) bs.length) s = .next u ∧ u.result = .flag true

/-- The model's choice (log 16; 40_lrc.md R120 requires `n ≤` the buffer's size): a length beyond the buffer stops the
operation by name. -/
def Obligations.LengthBeyondBufferFaults : Prop :=
  (∀ (s : State) (buf : BufRef) (n : Nat), s.busy = false → bufSize s.cfg buf < n →
    exec (.lrc buf n) s = .fault .outOfBuffer ∧ exec (.lrcStore buf n) s = .fault .outOfBuffer ∧
    exec (.lrcCheck buf n) s = .fault .outOfBuffer ∧ exec (.validateStatus buf n) s = .fault .outOfBuffer) ∧
  ∀ (s : State) (buf : TempRef), s.busy = false → tempSize buf ≤ 2 →
    exec (.validateTemp buf) s = .fault .outOfBuffer

/-! ## The transport controller -/

/-- 41_transport.md R130: the deadtime passes, then the queue is emptied, once. -/
def Obligations.FlushDiscards : Prop :=
  ∀ s : State, s.busy = false →
    ∃ t, exec .flush s = .next t ∧ OnlyChanges [.rxq, .now, .env, .hist, .result] s t ∧ t.rxq = [] ∧
      s.now + s.cfg.deadtime ≤ t.now ∧ t.result = .nothing ∧ flushCount t.hist = flushCount s.hist + 1

/-- 41_transport.md R131: for every non-empty sequence, exactly one flush and after it, in one write, the bytes verbatim,
the first of them first; the event history records the discard instant and the write in that order, and nothing else but
bytes that arrived before the discard. -/
def Obligations.WriteFlushesOnceThenSends : Prop :=
  ∀ (s : State) (bs : List Byte), s.busy = false → bs ≠ [] →
    ∃ t, exec (.txWrite bs) s = .next t ∧ OnlyChanges [.rxq, .txs, .now, .env, .hist, .result] s t ∧
      t.txs = s.txs ++ bs ∧ t.rxq = [] ∧ s.now + s.cfg.deadtime ≤ t.now ∧ t.result = .nothing ∧
      flushCount t.hist = flushCount s.hist + 1 ∧ WriteFollows s.hist t.hist bs

/-- 41_transport.md R140: the n oldest bytes are returned, oldest first, and leave the queue; with fewer queued READ is
refused. -/
def Obligations.ReadPops : Prop :=
  ∀ (s : State) (n : Nat), s.busy = false →
    (n ≤ s.rxq.length → ∃ t, exec (.read n) s = .next t ∧ OnlyChanges [.rxq, .hist, .result] s t ∧
      ∃ bs, bs.length = n ∧ s.rxq = bs ++ t.rxq ∧ t.result = .bytes bs) ∧
    (s.rxq.length < n → exec (.read n) s = .refused .readTooShort)

/-- 41_transport.md R141: availability is tested first, `timeout` only with too few bytes and once TIMEOUT has elapsed,
nothing is consumed, and the wait ends. -/
def Obligations.AwaitDecides : Prop :=
  ∀ (s : State) (n : Nat), s.busy = false →
    ∃ ok t, exec (.await n) s = .next t ∧ OnlyChanges [.rxq, .now, .env, .hist, .result] s t ∧
      t.result = .awaited ok ∧ (∃ more, t.rxq = s.rxq ++ more) ∧ s.now ≤ t.now ∧
      (ok = true → n ≤ t.rxq.length) ∧
      (ok = false → t.rxq.length < n ∧ s.cfg.timeout ≤ t.now - s.t0) ∧
      (n ≤ s.rxq.length → ok = true ∧ t.now = s.now ∧ t.rxq = s.rxq)

/-- 41_transport.md R141, R142: a wait never fails before TIMEOUT has elapsed: bytes that bring the queue to n by then
make it succeed, however the environment paces them (the schedule is the model's, log 8). -/
def Obligations.AwaitSeesTimelyBytes : Prop :=
  ∀ (s : State) (n : Nat) (ms rest : List EnvMove), s.busy = false → s.env = ms ++ rest → s.t0 ≤ s.now →
    s.now - s.t0 + totalTicks ms < s.cfg.timeout → n ≤ s.rxq.length + (allBytes ms).length →
    s.rxq.length + (allBytes ms).length ≤ s.cfg.rxDepth →
    ∃ t, exec (.await n) s = .next t ∧ OnlyChanges [.rxq, .now, .env, .hist, .result] s t ∧ t.result = .awaited true ∧
      t.now ≤ s.now + totalTicks ms ∧ ∃ k, t.rxq = s.rxq ++ (allBytes ms).take k

/-! ## The frame codec -/

/-- 42_frame_codec.md R150, R151: VALIDATE_STATUS completes on every buffer of n ≥ 4 bytes, and is the conjunction of
the start marker, the model identifier and the checksum. R150 takes n = buf[2] + 4 at most BUF_CAP; that the three
checks are made at every other n of at least 4 is the model's choice (log 20). -/
def Obligations.ValidateStatusIsConjunction : Prop :=
  ∀ (s : State) (buf : BufRef) (n : Nat), s.busy = false → 4 ≤ n → n ≤ bufSize s.cfg buf →
    ∃ t, exec (.validateStatus buf n) s = .next t ∧ OnlyChanges [.acc, .result, .draws] s t ∧
      ∀ f : Nat → Byte, HeldOn s buf 0 (n - 1) f →
        t.result = .flag (decide (f 0 = 0xAA ∧ f 1 = 0x0A ∧ (f (n - 1)).toNat = lrcClosedForm n f)) ∧
        t.draws = s.draws

/-- 42_frame_codec.md R153, R154: VALIDATE_TEMP looks at the byte at offset 2 alone and writes nothing of the block. R153
gives it a buffer of 10 bytes; that a given sequence of 3 to 9 bytes or of more than 10 is judged in the same way is the
model's choice (log 31). -/
def Obligations.ValidateTempIsSentinel : Prop :=
  ∀ (s : State) (buf : TempRef), s.busy = false → 3 ≤ tempSize buf →
    ∃ t, exec (.validateTemp buf) s = .next t ∧ OnlyChanges [.result, .draws] s t ∧
      ∀ b : Byte, heldTemp s buf 2 = some b → t.result = .flag (decide (b = 0x0C))

/-- 42_frame_codec.md R155 to R163, R166: every output is the raw byte at its offset, and holds no value beyond the
payload; with no valid snapshot DEMUX is refused. -/
def Obligations.DemuxPresentsFields : Prop :=
  ∀ s : State, s.busy = false →
    (s.snapValid = true → ∃ t d, exec .demux s = .next t ∧ OnlyChanges [.result] s t ∧ t.result = .fields d ∧
      d.mainLevel = payloadByte s s.cfg.offMain ∧ d.rearLevel = payloadByte s s.cfg.offRear ∧
      d.centerLevel = payloadByte s s.cfg.offCenter ∧ d.subLevel = payloadByte s s.cfg.offSub ∧
      d.currentInput = payloadByte s s.cfg.offInput ∧ d.muteFlag = payloadByte s s.cfg.offMute ∧
      d.effect.length = 6 ∧
      (∀ k : Fin 6, d.effect[k.val]? = some (payloadByte s (s.cfg.offEffect.get k))) ∧
      d.spdifStatus = payloadByte s s.cfg.offSpdif ∧ d.signalPresent = payloadByte s s.cfg.offSignal ∧
      d.fwA = payloadByte s s.cfg.offFwA ∧ d.fwB = payloadByte s s.cfg.offFwB ∧ d.fwC = payloadByte s s.cfg.offFwC ∧
      d.standby = payloadByte s s.cfg.offStandby ∧ d.autoStandby = payloadByte s s.cfg.offAutoStby ∧
      d.sofByte = memRead s.snap 0 ∧ d.model = memRead s.snap 1 ∧ d.payloadLen = memRead s.snap 2 ∧
      d.checksum = memRead s.snap (s.snapLen - 1)) ∧
    (s.snapValid = false → exec .demux s = .refused .noSnapshot)

/-- 44_driver_ops.md R222: SNAPSHOT returns the whole frame held and changes nothing; with no valid snapshot it is
refused. -/
def Obligations.SnapshotReturnsFrame : Prop :=
  ∀ s : State, s.busy = false →
    (s.snapValid = true → ∃ t bs, exec .snapshot s = .next t ∧ OnlyChanges [.result, .draws] s t ∧
      t.result = .bytes bs ∧ bs.length = s.snapLen ∧
      ∀ a b, a < s.snapLen → memRead s.snap a = some b → bs[a]? = some b) ∧
    (s.snapValid = false → exec .snapshot s = .refused .noSnapshot)

/-! ## The sequencer -/

/-- 43_sequencer.md R180 to R187, 30_encoding.md R74: for POLL and GET_STATUS, a valid frame that arrives in time, in
whatever pieces, is taken into the snapshot and the result is true; one flush, one transmitted byte; what had arrived
after the frame stays queued. -/
def Obligations.PollTakesTimelyFrame : Prop :=
  ∀ (i : Instr) (s : State) (ms : List EnvMove) (p extra : List Byte), i = .poll ∨ i = .getStatus → s.busy = false →
    p.length ≤ 255 → p.length + 4 ≤ s.cfg.bufCap → Brings s ms (frameOf p ++ extra) →
    ∃ t, exec i s = .next t ∧
      OnlyChanges [.acc, .snap, .snapLen, .snapValid, .stage, .stageLen, .rxq, .txs, .seq, .t0, .now, .hist, .result,
        .env] s t ∧
      t.result = .flag true ∧ SnapshotIs t (frameOf p) ∧ t.txs = s.txs ++ [s.cfg.opGetStatus] ∧ t.seq = .idle ∧
      t.stageLen = p.length + 4 ∧ t.acc = frameChecksum p ∧
      (∀ a, memRead t.stage a = if a < p.length + 4 then (frameOf p)[a]? else memRead s.stage a) ∧
      LeftQueued s t ms (p.length + 4) ∧ flushCount t.hist = flushCount s.hist + 1

/-- 43_sequencer.md R180, R187, R188, 60_exceptions.md R240, 41_transport.md R142: every poll ends, and in one of two
ways: true with a valid frame of at most BUF_CAP bytes in the snapshot, or false with the snapshot exactly as before,
by a timeout no earlier than `t0 + TIMEOUT` or by an invalid frame. -/
def Obligations.PollEndsOneOfTwoWays : Prop :=
  ∀ (i : Instr) (s : State), i = .poll ∨ i = .getStatus → s.busy = false →
    ∃ ok t, exec i s = .next t ∧
      OnlyChanges [.acc, .snap, .snapLen, .snapValid, .stage, .stageLen, .rxq, .txs, .seq, .t0, .now, .cause, .hist,
        .result, .env] s t ∧
      t.result = .flag ok ∧ t.txs = s.txs ++ [s.cfg.opGetStatus] ∧ t.seq = .idle ∧
      (∀ a, t.stageLen ≤ a → memRead t.stage a = memRead s.stage a) ∧
      s.now + s.cfg.deadtime ≤ t.t0 ∧ t.t0 ≤ t.now ∧
      (ok = true → ∃ p : List Byte, p.length ≤ 255 ∧ p.length + 4 ≤ s.cfg.bufCap ∧ SnapshotIs t (frameOf p)) ∧
      (ok = false → SnapshotKept s t ∧
        ((t.cause = some .timeout ∧ t.t0 + s.cfg.timeout ≤ t.now) ∨ t.cause = some .frameInvalid))

/-- 43_sequencer.md R184: a declared length beyond the buffer fails the poll as an invalid frame before anything is
read into `stage[3]` on; every byte that had arrived after the header stays queued. That GET_STATUS is the poll is the
model's reading (log 3). -/
def Obligations.PollRefusesOverlongFrame : Prop :=
  ∀ (i : Instr) (s : State) (ms : List EnvMove) (a b l : Byte) (more : List Byte), i = .poll ∨ i = .getStatus →
    s.busy = false → s.cfg.bufCap < l.toNat + 4 → more ≠ [] → Brings s ms (a :: b :: l :: more) →
    ∃ t, exec i s = .next t ∧
      OnlyChanges [.stage, .stageLen, .rxq, .txs, .seq, .t0, .now, .cause, .hist, .result, .env] s t ∧
      t.result = .flag false ∧ t.cause = some .frameInvalid ∧ t.seq = .idle ∧ t.stageLen = l.toNat + 4 ∧
      (∀ k, memRead t.stage k = if k < 3 then [a, b, l][k]? else memRead s.stage k) ∧ LeftQueued s t ms 3 ∧ t.rxq ≠ []

/-- 43_sequencer.md R186, 42_frame_codec.md R151, 60_exceptions.md R242: a whole frame of the declared length whose
start marker, model identifier or checksum is wrong fails the poll as an invalid frame, and the snapshot is kept. -/
def Obligations.PollRefusesDamagedFrame : Prop :=
  ∀ (i : Instr) (s : State) (ms : List EnvMove) (a b l : Byte) (body extra : List Byte), i = .poll ∨ i = .getStatus →
    s.busy = false → l.toNat + 4 ≤ s.cfg.bufCap → body.length = l.toNat + 1 →
    Brings s ms (a :: b :: l :: body ++ extra) →
    a ≠ 0xAA ∨ b ≠ 0x0A ∨ sumOn 1 (l.toNat + 3) (byteAt (a :: b :: l :: body)) % 256 ≠ 0 →
    ∃ t, exec i s = .next t ∧
      OnlyChanges [.acc, .stage, .stageLen, .rxq, .txs, .seq, .t0, .now, .cause, .hist, .result, .env] s t ∧
      (∀ a, t.stageLen ≤ a → memRead t.stage a = memRead s.stage a) ∧
      t.result = .flag false ∧ t.cause = some .frameInvalid ∧ t.seq = .idle ∧ SnapshotKept s t ∧
      LeftQueued s t ms (l.toNat + 4)

/-- 60_exceptions.md R241, 41_transport.md R142, R143: on a silent link a poll gives false, a probe and a command give
0 and a field read gives 0, each as a timeout, and none of them before `t0 + TIMEOUT`. -/
def Obligations.SilentLinkTimesOut : Prop :=
  ∀ (i : Instr) (s : State), s.busy = false → SilentLink s →
    (i = .poll ∨ i = .getStatus ∨ i = .temp ∨ i = .getTemp ∨ (commandOpcode s.cfg i).isSome = true ∨
      (fieldRead i).isSome = true) →
    ∃ t, exec i s = .next t ∧ t.cause = some .timeout ∧ s.now + s.cfg.deadtime + s.cfg.timeout ≤ t.now ∧
      t.t0 + s.cfg.timeout ≤ t.now ∧ t.rxq = [] ∧ t.seq = .idle ∧ SnapshotKept s t ∧
      (i = .poll ∨ i = .getStatus → t.result = .flag false) ∧
      (i = .temp ∨ i = .getTemp ∨ (commandOpcode s.cfg i).isSome = true → t.result = .byte 0) ∧
      ((fieldRead i).isSome = true → t.result = .number 0)

/-- 43_sequencer.md R190, R191, 30_encoding.md R75, R99, 42_frame_codec.md R165: for TEMP and GET_TEMP, ten bytes that
arrive in time are taken into `tmp`; the result is the byte at offset 7 when the byte at offset 2 is 0C, and otherwise
0 by an invalid frame; what had arrived after them stays queued. -/
def Obligations.ProbeTakesTimelyBytes : Prop :=
  ∀ (i : Instr) (s : State) (ms : List EnvMove) (bs extra : List Byte), i = .temp ∨ i = .getTemp → s.busy = false →
    bs.length = 10 → Brings s ms (bs ++ extra) →
    ∃ t, exec i s = .next t ∧
      OnlyChanges [.tmp, .rxq, .txs, .seq, .t0, .now, .cause, .hist, .result, .env] s t ∧
      (bs[2]? = some 0x0C → t.result = .byte (byteAt bs 7) ∧ t.cause = s.cause) ∧
      (bs[2]? ≠ some 0x0C → t.result = .byte 0 ∧ t.cause = some .frameInvalid) ∧
      (∀ a, memRead t.tmp a = if a < 10 then bs[a]? else memRead s.tmp a) ∧
      t.txs = s.txs ++ [s.cfg.opGetTemp] ∧ t.seq = .idle ∧ LeftQueued s t ms 10 ∧
      flushCount t.hist = flushCount s.hist + 1

/-- 43_sequencer.md R190, R191: every probe ends, and a probe touches neither the snapshot, the staging buffer nor the
cache; where fewer than ten bytes come before TIMEOUT it gives 0 by a timeout and reads none of them: they stay
queued. -/
def Obligations.ProbeIsIndependent : Prop :=
  ∀ (i : Instr) (s : State), i = .temp ∨ i = .getTemp → s.busy = false →
    ∃ v t, exec i s = .next t ∧
      OnlyChanges [.tmp, .rxq, .txs, .seq, .t0, .now, .cause, .hist, .result, .env] s t ∧
      (∀ a, 10 ≤ a → memRead t.tmp a = memRead s.tmp a) ∧
      t.result = .byte v ∧ t.txs = s.txs ++ [s.cfg.opGetTemp] ∧ t.seq = .idle ∧
      ((v = 0 ∧ t.cause = some .timeout ∧ t.t0 + s.cfg.timeout ≤ t.now ∧ t.rxq.length < 10 ∧ SameBytes s.tmp t.tmp) ∨
        (v = 0 ∧ t.cause = some .frameInvalid ∧ memRead t.tmp 2 ≠ some 0x0C) ∨
        (t.cause = s.cause ∧ memRead t.tmp 2 = some 0x0C ∧ memRead t.tmp 7 = some v)) ∧
      ∀ (ms : List EnvMove) (bs : List Byte), BringsOnly s ms bs → bs.length < 10 →
        v = 0 ∧ t.cause = some .timeout ∧ t.t0 + s.cfg.timeout ≤ t.now ∧ SameBytes s.tmp t.tmp ∧ LeftQueued s t ms 0

/-! ## The driver layer -/

/-- 44_driver_ops.md R200, R203, 30_encoding.md R76 to R95: for SEND_COMMAND, POWER and every single-byte wire command
but GET_STATUS and GET_TEMP, the oldest byte that arrives in time is the result, and what had arrived after it stays
queued; the opcode is all that is sent, after one flush. -/
def Obligations.CommandReturnsOldestByte : Prop :=
  ∀ (i : Instr) (s : State) (op : Byte) (ms : List EnvMove) (r : Byte) (more : List Byte),
    commandOpcode s.cfg i = some op → s.busy = false → Brings s ms (r :: more) →
    ∃ t, exec i s = .next t ∧
      OnlyChanges [.rxq, .txs, .seq, .t0, .now, .muted, .decode, .hist, .result, .env] s t ∧
      t.result = .byte r ∧ t.txs = s.txs ++ [op] ∧ t.seq = .idle ∧ LeftQueued s t ms 1 ∧
      flushCount t.hist = flushCount s.hist + 1

/-- 44_driver_ops.md R200, R201, 10_state.md R33, R34: every command ends, and whatever answers, the cache says which
of the four opcodes was sent, and is untouched by any other. -/
def Obligations.CommandUpdatesCacheAtIssue : Prop :=
  ∀ (i : Instr) (s : State) (op : Byte), commandOpcode s.cfg i = some op → s.busy = false → s.cfg.wf = true →
    ∃ v t, exec i s = .next t ∧
      OnlyChanges [.rxq, .txs, .seq, .t0, .now, .muted, .decode, .cause, .hist, .result, .env] s t ∧
      t.result = .byte v ∧ t.txs = s.txs ++ [op] ∧ t.seq = .idle ∧
      t.muted = (if op = s.cfg.opMuteOn then true else if op = s.cfg.opMuteOff then false else s.muted) ∧
      t.decode = (if op = s.cfg.opDecodeOn then true else if op = s.cfg.opDecodeOff then false else s.decode) ∧
      ((v = 0 ∧ t.cause = some .timeout ∧ t.t0 + s.cfg.timeout ≤ t.now ∧ t.rxq = []) ∨ t.cause = s.cause)

/-- 10_state.md R33, R34, 44_driver_ops.md R201: no other instruction touches the cache, SELECT_INPUT included. -/
def Obligations.CacheOnlyByCommands : Prop :=
  ∀ (i : Instr) (s t : State), commandOpcode s.cfg i = none → exec i s = .next t →
    t.muted = s.muted ∧ t.decode = s.decode

/-- 44_driver_ops.md R205, R206, R209, 30_encoding.md R96, R98: for WRITE_REGISTER and the volume register opcodes, when
the poll brings a frame and the offset lies in its payload, the block sends the request and then the whole frame with
the one byte replaced (rescaled for a volume register) and the checksum regenerated, keeps that frame as its snapshot,
and flushes three times in all. -/
def Obligations.RegisterWriteSendsPatchedFrame : Prop :=
  ∀ (i : Instr) (s : State) (off : Nat) (val : Byte) (ms : List EnvMove) (p extra : List Byte),
    registerWrite s.cfg i = some (off, val) → s.busy = false → p.length ≤ 255 → p.length + 4 ≤ s.cfg.bufCap →
    Brings s ms (frameOf p ++ extra) → 3 ≤ off → off ≤ p.length + 2 →
    ∃ t q, exec i s = .next t ∧
      OnlyChanges [.acc, .snap, .snapLen, .snapValid, .stage, .stageLen, .rxq, .txs, .seq, .t0, .now, .hist, .result,
        .env] s t ∧
      (∀ a, t.stageLen ≤ a → memRead t.stage a = memRead s.stage a) ∧
      q = patchedPayload p off (writtenByte s.cfg off val) ∧ SnapshotIs t (frameOf q) ∧
      t.txs = s.txs ++ [s.cfg.opGetStatus] ++ frameOf q ∧ t.rxq = [] ∧ t.seq = .idle ∧ t.result = .nothing ∧
      flushCount t.hist = flushCount s.hist + 3

/-- 44_driver_ops.md R207, R208: an offset outside the payload of the frame held writes nothing and sends nothing beyond
the poll's request, whether the frame is the one the poll brought or, under `proceed`, the stale one after a failed
poll. -/
def Obligations.RegisterWriteRefusesOffset : Prop :=
  (∀ (i : Instr) (s : State) (off : Nat) (val : Byte) (ms : List EnvMove) (p extra : List Byte),
    registerWrite s.cfg i = some (off, val) → s.busy = false → p.length ≤ 255 → p.length + 4 ≤ s.cfg.bufCap →
    Brings s ms (frameOf p ++ extra) → off < 3 ∨ p.length + 2 < off →
    ∃ t, exec i s = .next t ∧
      OnlyChanges [.acc, .snap, .snapLen, .snapValid, .stage, .stageLen, .rxq, .txs, .seq, .t0, .now, .hist, .result,
        .env] s t ∧
      (∀ a, t.stageLen ≤ a → memRead t.stage a = memRead s.stage a) ∧
      SnapshotIs t (frameOf p) ∧ t.txs = s.txs ++ [s.cfg.opGetStatus] ∧ t.result = .nothing ∧
      flushCount t.hist = flushCount s.hist + 1) ∧
  ∀ (i : Instr) (s u : State) (off : Nat) (val : Byte) (p : List Byte), registerWrite s.cfg i = some (off, val) →
    exec .poll s = .next u → u.result = .flag false → s.cfg.wregOnPollFail = .proceed → p.length ≤ 255 →
    SnapshotIs s (frameOf p) → off < 3 ∨ p.length + 2 < off →
    ∃ t, exec i s = .next t ∧ OnlyChanges [.result] u t ∧ SnapshotIs t (frameOf p) ∧
      t.txs = s.txs ++ [s.cfg.opGetStatus] ∧ t.result = .nothing

/-- 44_driver_ops.md R208: when the forced poll fails, by a timeout or by an invalid frame, the write ends there without a
snapshot or under the policy `abort`, and its next state is that of the failed poll (but for its result); under `proceed`
it goes on from there with the stale snapshot. -/
def Obligations.RegisterWriteAfterFailedPoll : Prop :=
  ∀ (i : Instr) (s u : State) (off : Nat) (val : Byte), registerWrite s.cfg i = some (off, val) →
    exec .poll s = .next u → u.result = .flag false →
    (s.snapValid = false ∨ s.cfg.wregOnPollFail = .abort →
      ∃ t, exec i s = .next t ∧ OnlyChanges [.result] u t ∧ SnapshotKept s t ∧
        t.txs = s.txs ++ [s.cfg.opGetStatus] ∧ t.result = .nothing) ∧
    (∀ p : List Byte, p.length ≤ 255 → SnapshotIs s (frameOf p) → s.cfg.wregOnPollFail = .proceed →
      3 ≤ off → off ≤ p.length + 2 →
      ∃ t q, exec i s = .next t ∧ OnlyChanges [.acc, .snap, .rxq, .txs, .now, .hist, .result, .env] u t ∧
        q = patchedPayload p off (writtenByte s.cfg off val) ∧ SnapshotIs t (frameOf q) ∧
        t.txs = s.txs ++ [s.cfg.opGetStatus] ++ frameOf q ∧ t.rxq = [] ∧ t.result = .nothing ∧
        flushCount t.hist = flushCount u.hist + 2)

/-- 44_driver_ops.md R205, R207 to R209: every register write ends, has no result, and leaves the cache, `tmp` and the
parameters alone; a snapshot that was valid is valid after. -/
def Obligations.RegisterWriteCompletes : Prop :=
  ∀ (i : Instr) (s : State) (off : Nat) (val : Byte), registerWrite s.cfg i = some (off, val) → s.busy = false →
    ∃ t, exec i s = .next t ∧
      OnlyChanges [.acc, .snap, .snapLen, .snapValid, .stage, .stageLen, .rxq, .txs, .seq, .t0, .now, .cause, .hist,
        .result, .env, .draws] s t ∧
      t.result = .nothing ∧ t.seq = .idle ∧ (s.snapValid = true → t.snapValid = true) ∧
      (∀ a, t.stageLen ≤ a → memRead t.stage a = memRead s.stage a) ∧
      ∃ sent, t.txs = s.txs ++ [s.cfg.opGetStatus] ++ sent ∧ (sent = [] ∨ sent.length = t.snapLen)

/-- 44_driver_ops.md R206, R214, R224, 95_test_vectors.md V30 to V37: the two rescalings at the values the spec lists,
the bound of the round trip, and the widths that hold every intermediate. -/
def Obligations.VolumeScaling : Prop :=
  (∀ v : Fin 256, scaleDown v ≤ 43 ∧ scaleUp (scaleDown v) ≤ v ∧ v ≤ scaleUp (scaleDown v) + 6) ∧
  scaleDown 0 = 0 ∧ scaleDown 1 = 0 ∧ scaleDown 5 = 0 ∧ scaleDown 6 = 1 ∧ scaleDown 127 = 21 ∧ scaleDown 128 = 21 ∧
  scaleDown 254 = 42 ∧ scaleDown 255 = 43 ∧
  scaleUp 0 = 0 ∧ scaleUp 1 = 5 ∧ scaleUp 20 = 118 ∧ scaleUp 21 = 124 ∧ scaleUp 42 = 249 ∧ scaleUp 43 = 255 ∧
  scaleUp 44 = 260 ∧ scaleUp 255 = 1512 ∧
  scaleUp (scaleDown 11) + 6 = 11 ∧ (∀ v : Fin 11, v < scaleUp (scaleDown v) + 6) ∧
  255 * volDevMax < 2 ^ 14 ∧ 255 * volExtMax < 2 ^ 16 ∧ versionOf 255 255 255 < 2 ^ 15

/-- 44_driver_ops.md R210 to R215, 30_encoding.md R96: for READ_FIELD and the volume register opcodes, when the poll
brings a frame that holds the field, the result is the field's number in that frame. -/
def Obligations.FieldReadGivesNumber : Prop :=
  ∀ (i : Instr) (s : State) (f : Field) (ms : List EnvMove) (p extra : List Byte) (v : Nat),
    fieldRead i = some f → s.busy = false → p.length ≤ 255 → p.length + 4 ≤ s.cfg.bufCap →
    Brings s ms (frameOf p ++ extra) → fieldNumber s.cfg f (frameOf p) = some v →
    ∃ t, exec i s = .next t ∧
      OnlyChanges [.acc, .snap, .snapLen, .snapValid, .stage, .stageLen, .rxq, .txs, .seq, .t0, .now, .hist, .result,
        .env] s t ∧
      (∀ a, t.stageLen ≤ a → memRead t.stage a = memRead s.stage a) ∧
      t.result = .number v ∧ SnapshotIs t (frameOf p) ∧ t.txs = s.txs ++ [s.cfg.opGetStatus]

/-- 44_driver_ops.md R210, R216, R217, 60_exceptions.md R248: every field read ends with a number, whatever the field
and the frame; when its poll fails the number is 0 and the snapshot is kept. -/
def Obligations.FieldReadCompletes : Prop :=
  ∀ (i : Instr) (s : State) (f : Field), fieldRead i = some f → s.busy = false →
    ∃ ok v t, exec i s = .next t ∧
      OnlyChanges [.acc, .snap, .snapLen, .snapValid, .stage, .stageLen, .rxq, .txs, .seq, .t0, .now, .cause, .hist,
        .result, .env, .draws] s t ∧
      t.result = .number v ∧ t.txs = s.txs ++ [s.cfg.opGetStatus] ∧ t.seq = .idle ∧
      (∀ a, t.stageLen ≤ a → memRead t.stage a = memRead s.stage a) ∧
      (ok = false → v = 0 ∧ SnapshotKept s t ∧ t.draws = s.draws ∧
        (t.cause = some .timeout ∨ t.cause = some .frameInvalid)) ∧
      (ok = true → t.cause = s.cause ∧ ∃ p : List Byte, p.length ≤ 255 ∧ SnapshotIs t (frameOf p) ∧
        ∀ w, fieldNumber s.cfg f (frameOf p) = some w → v = w)

/-- 44_driver_ops.md R218, R219, 30_encoding.md R73: for SELECT_INPUT in both forms, and for the input-select sequence,
which by itself is that exchange in the model's reading (log 6), the four bytes go out in one write after one flush, and
the closing flush follows, in that order in the history; the cache does not change. -/
def Obligations.SelectInputSendsFourBytes : Prop :=
  ∀ (i : Instr) (s : State) (inp : Input) (e : Effect) (op : Byte), inputSelection i = some (inp, e) →
    effectOpcode s.cfg e = some op → s.busy = false →
    ∃ t, exec i s = .next t ∧ OnlyChanges [.rxq, .txs, .now, .env, .hist, .result] s t ∧
      t.txs = s.txs ++ [s.cfg.opMuteOn, inputOpcode s.cfg inp, op, s.cfg.opMuteOff] ∧ t.rxq = [] ∧
      t.result = .nothing ∧ s.now + 2 * s.cfg.deadtime ≤ t.now ∧ flushCount t.hist = flushCount s.hist + 2 ∧
      ∃ h, WriteFollows s.hist h [s.cfg.opMuteOn, inputOpcode s.cfg inp, op, s.cfg.opMuteOff] ∧ FlushFollows h t.hist

/-- 44_driver_ops.md R220, R221: the getters return the cache bits; no state of the block changes. -/
def Obligations.GettersReportCache : Prop :=
  ∀ s : State, s.busy = false →
    (∃ t, exec .muted s = .next t ∧ OnlyChanges [.result] s t ∧ t.result = .flag s.muted) ∧
    ∃ t, exec .decodeMode s = .next t ∧ OnlyChanges [.result] s t ∧ t.result = .flag s.decode

/-- 44_driver_ops.md R223: CURRENT_EFFECT is refused. -/
def Obligations.CurrentEffectRefused : Prop :=
  (∀ s : State, s.busy = false → exec .currentEffect s = .refused .currentEffectUndefined) ∧
  ∀ s t : State, exec .currentEffect s ≠ .next t

/-- 10_state.md R35, 60_exceptions.md R244: while `busy` = 1 every operation of the host is refused. -/
def Obligations.BusyBlockRefuses : Prop :=
  ∀ (i : Instr) (s : State), i.wf s.cfg = true → isLineEvent i = false → s.busy = true →
    exec i s = .refused .hostBusy

/-! ## The line -/

/-- 41_transport.md R136, R137, 30_encoding.md R73: for STATUS_FRAME, TEMPERATURE_FRAME and RESPONSE_BYTE, the bytes
enter the queue in order, whatever the block is doing, up to its depth; the rest is lost. That an inbound message is
its arrival is the model's reading (log 5). -/
def Obligations.InboundMessageArrives : Prop :=
  ∀ (i : Instr) (s : State) (bs : List Byte), inboundBytes i = some bs →
    ∃ t, exec i s = .next t ∧ OnlyChanges [.rxq, .hist] s t ∧
      t.rxq = s.rxq ++ bs.take (s.cfg.rxDepth - s.rxq.length)

/-- 41_transport.md R136, R137, 30_encoding.md R70 to R72: an inbound character delivers its byte when its parity is
odd and its stop bit is there, or whatever it is under `deliver`; a damaged one is dropped under `drop`; an outbound
one, always intact, has been handed to the line (log 7). -/
def Obligations.CharacterCrosses : Prop :=
  ∀ (s : State) (d : Byte) (parity stop : Bool),
    (((dataBitsOf d).count true + parity.toNat) % 2 = 1 ∧ stop = true ∨ s.cfg.rxErrPolicy = .deliver →
      ∃ t, exec (.uartCharacter .inbound d parity stop) s = .next t ∧ OnlyChanges [.rxq, .hist] s t ∧
        t.rxq = (if s.rxq.length < s.cfg.rxDepth then s.rxq ++ [d] else s.rxq)) ∧
    (¬(((dataBitsOf d).count true + parity.toNat) % 2 = 1 ∧ stop = true) → s.cfg.rxErrPolicy = .drop →
      exec (.uartCharacter .inbound d parity stop) s = .next s) ∧
    (((dataBitsOf d).count true + parity.toNat) % 2 = 1 ∧ stop = true →
      ∃ t, exec (.uartCharacter .outbound d parity stop) s = .next t ∧ OnlyChanges [.txs, .hist] s t ∧
        t.txs = s.txs ++ [d])

/-- The model's choice (log 28; 30_encoding.md R71, R90, R98, R115): an effect outside EFFECTS, a payload of more than
255 bytes and an outbound character the block would not send are refused by name. -/
def Obligations.IllFormedOperandsRefused : Prop :=
  (∀ (s : State) (e : Effect) (inp : Input), effectOpcode s.cfg e = none → s.busy = false →
    exec (.selectInputEffect inp e) s = .refused .illFormed ∧
    exec (.inputSelectSequence inp e) s = .refused .illFormed ∧
    ∀ k, e = .further k → exec (.selEffectE k) s = .refused .illFormed) ∧
  (∀ (s : State) (p : List Byte), 255 < p.length → s.busy = false →
    exec (.statusFrame p) s = .refused .illFormed ∧ exec (.registerWriteFrame p) s = .refused .illFormed) ∧
  ∀ (s : State) (d : Byte) (parity stop : Bool),
    ¬(((dataBitsOf d).count true + parity.toNat) % 2 = 1 ∧ stop = true) →
    exec (.uartCharacter .outbound d parity stop) s = .refused .illFormed

/-- 30_encoding.md R98, 44_driver_ops.md R205 to R209: when the poll brings a frame, a register-write frame whose payload
is the polled one with the byte replaced that some register write puts there goes out whole, in one write between two
flushes in that order in the history, and stays the snapshot. Any other is not sent, and the operation ends after its
poll; so every frame completes, and what goes out beyond the request is that frame or nothing. That the message by
itself is the exchange of the WRITE_REGISTER that emits it is the model's reading (log 6). -/
def Obligations.RegisterWriteFrameSends : Prop :=
  (∀ (s : State) (ms : List EnvMove) (p q extra : List Byte) (off : Nat) (val : Byte), s.busy = false →
    p.length ≤ 255 → p.length + 4 ≤ s.cfg.bufCap → Brings s ms (frameOf p ++ extra) → 3 ≤ off → off ≤ p.length + 2 →
    q = patchedPayload p off (writtenByte s.cfg off val) →
    ∃ t h h', exec (.registerWriteFrame q) s = .next t ∧
      OnlyChanges [.acc, .snap, .snapLen, .snapValid, .stage, .stageLen, .rxq, .txs, .seq, .t0, .now, .hist, .result,
        .env] s t ∧
      (∀ a, t.stageLen ≤ a → memRead t.stage a = memRead s.stage a) ∧ SnapshotIs t (frameOf q) ∧
      t.txs = s.txs ++ [s.cfg.opGetStatus] ++ frameOf q ∧ t.rxq = [] ∧ t.seq = .idle ∧ t.result = .nothing ∧
      flushCount t.hist = flushCount s.hist + 3 ∧ flushCount h = flushCount s.hist + 1 ∧
      WriteFollows h h' (frameOf q) ∧ FlushFollows h' t.hist) ∧
  (∀ (s : State) (ms : List EnvMove) (p q extra : List Byte), s.busy = false → p.length ≤ 255 → q.length ≤ 255 →
    p.length + 4 ≤ s.cfg.bufCap → Brings s ms (frameOf p ++ extra) →
    (∀ off val, 3 ≤ off → off ≤ p.length + 2 → q ≠ patchedPayload p off (writtenByte s.cfg off val)) →
    ∃ t, exec (.registerWriteFrame q) s = .next t ∧
      OnlyChanges [.acc, .snap, .snapLen, .snapValid, .stage, .stageLen, .rxq, .txs, .seq, .t0, .now, .hist, .result,
        .env] s t ∧
      (∀ a, t.stageLen ≤ a → memRead t.stage a = memRead s.stage a) ∧ SnapshotIs t (frameOf p) ∧
      t.txs = s.txs ++ [s.cfg.opGetStatus] ∧ t.result = .nothing ∧ flushCount t.hist = flushCount s.hist + 1) ∧
  ∀ (s : State) (q : List Byte), s.busy = false → q.length ≤ 255 → SnapshotFrameValid s →
    ∃ t, exec (.registerWriteFrame q) s = .next t ∧ t.result = .nothing ∧ t.seq = .idle ∧
      (t.txs = s.txs ++ [s.cfg.opGetStatus] ∨ t.txs = s.txs ++ [s.cfg.opGetStatus] ++ frameOf q)

/-! ## The whole machine -/

/-- A step runs the decoded instruction: the oldest presented message, taken off the port, is decoded and run; a
message that is no instruction is refused; with nothing presented only the environment may move. This is the model's
choice throughout, since the block fetches nothing (00_scope.md R2): the port of presented messages (log 22), what a
message is and the refusal of one that is no instruction (log 2), the idle step (log 11). -/
def Obligations.StepRunsDecoded : Prop :=
  (∀ (s : State) (m : Message) (rest : List Message) (i : Instr), s.port = m :: rest → decode s.cfg m = .ok i →
    step s = exec i { s with port := rest }) ∧
  (∀ (s : State) (m : Message) (rest : List Message) (e : DecodeError), s.port = m :: rest →
    decode s.cfg m = .error e → step s = .refused (.undecoded e)) ∧
  ∀ s : State, s.port = [] → ∃ t, step s = .next t ∧ OnlyChanges [.rxq, .env, .hist] s t

/-- The invariant of Sys2Proof/Safety.lean (10_state.md R22 to R31, R28, R35, R39; 70_reset_and_hazards.md R286) is
kept by every step from every state that has it. -/
def Obligations.InvKept : Prop := ∀ s t : State, Inv s → step s = .next t → Inv t

/-- The state after reset has the invariant, for every legal configuration, every schedule of the environment and
every queue of messages. That the request time is not after the clock rests on the zeros that the model chose for both
(log 12; 10_state.md R43 leaves them unspecified), and State.reset on the configuration that the model chose (log 1). -/
def Obligations.InvAtReset : Prop :=
  Inv State.reset ∧
  ∀ (c : Config) (env : List EnvMove) (port : List Message), c.wf = true → Inv (State.resetWith c env port)

/-- 10_state.md R36, 44_driver_ops.md R207, R209 (b), 40_lrc.md R121: every instruction but LRC_STORE with its slot inside
the frame held keeps the snapshot a valid frame: right start marker, model identifier and checksum, and
`snap[2] + 4 = snap_len`. LRC_STORE at n = snap_len stores the checksum the frame has; a greater n stores nothing. -/
def Obligations.SnapshotStaysValidFrame : Prop :=
  ∀ (i : Instr) (s t : State), (∀ n, i = .lrcStore .snap n → s.snapLen ≤ n) → SnapshotFrameValid s →
    exec i s = .next t → SnapshotFrameValid t

/-- 10_state.md R22, R24, 20_memory.md R64: nothing but a poll, a register write or LRC_STORE on the snapshot touches
the snapshot, and no instruction ever clears `snap_valid`. -/
def Obligations.SnapshotWriters : Prop :=
  ∀ (i : Instr) (s t : State), exec i s = .next t →
    (polls i = false → storesIntoSnapshot i = false → SnapshotKept s t) ∧ (s.snapValid = true → t.snapValid = true)

/-- 10_state.md R44: "Neither may influence any rule of this spec": wiping the ghosts before an instruction changes
nothing but the ghosts after it. -/
def Obligations.GhostsDoNotInfluence : Prop :=
  ∀ (i : Instr) (s : State), eraseOutcome (exec i (eraseGhost s)) = eraseOutcome (exec i s)

/-- 10_state.md R39: no step writes a parameter. -/
def Obligations.ParametersFixed : Prop :=
  (∀ s t : State, step s = .next t → t.cfg = s.cfg) ∧
  ∀ (c : Config) (env : List EnvMove) (port : List Message), (State.resetWith c env port).cfg = c

/-- 10_state.md R29, R32: no step takes back a transmitted byte or sets the clock back. -/
def Obligations.OutputAndClockOnlyGrow : Prop :=
  ∀ s t : State, step s = .next t → s.txs <+: t.txs ∧ s.now ≤ t.now

/-- 70_reset_and_hazards.md R286, 60_exceptions.md R247: when an operation is over, `busy` = 0, and a `seq` that was
Idle is Idle again. -/
def Obligations.OperationEndsReady : Prop :=
  ∀ (i : Instr) (s t : State), isLineEvent i = false → exec i s = .next t →
    t.busy = false ∧ (s.seq = .idle → t.seq = .idle)

/-- 60_exceptions.md R243: "No operation of this spec raises it." -/
def Obligations.DeviceUnreachableNeverRaised : Prop :=
  ∀ (i : Instr) (s t : State), exec i s = .next t → t.cause = some .deviceUnreachable →
    s.cause = some .deviceUnreachable

/-- 10_state.md R43, 70_reset_and_hazards.md R270: what the reset event leaves, for every configuration: the values the
spec gives. (The zeros of the items it leaves unspecified are the model's, log 12, and are not stated.) -/
def Obligations.ResetLeaves : Prop :=
  ∀ (c : Config) (env : List EnvMove) (port : List Message) (s : State), s = State.resetWith c env port →
    s.seq = .idle ∧ s.busy = false ∧ s.rxq = [] ∧ s.txs = [] ∧ s.snapValid = false ∧
    (∀ a, memRead s.snap a = none) ∧ s.muted = c.resetMuted ∧ s.decode = c.resetDecode

/-! ## The sequencer: short answers, and the path of `seq` -/

/-- 60_exceptions.md R241, 43_sequencer.md R185, 41_transport.md R142: an answer that is too short fails the poll by a
timeout, never before `t0 + TIMEOUT`, with the snapshot kept. Short of four bytes none of them is read; with a whole
header and not its whole payload the header is staged; the other bytes stay queued. That GET_STATUS is the poll is the
model's reading (log 3). -/
def Obligations.ShortAnswerTimesOut : Prop :=
  (∀ (i : Instr) (s : State) (ms : List EnvMove) (bs : List Byte), i = .poll ∨ i = .getStatus → s.busy = false →
    BringsOnly s ms bs → bs.length < 4 →
    ∃ t, exec i s = .next t ∧ OnlyChanges [.rxq, .txs, .seq, .t0, .now, .cause, .hist, .result, .env] s t ∧
      t.result = .flag false ∧ t.cause = some .timeout ∧ t.seq = .idle ∧ t.t0 + s.cfg.timeout ≤ t.now ∧
      t.txs = s.txs ++ [s.cfg.opGetStatus] ∧ LeftQueued s t ms 0) ∧
  ∀ (i : Instr) (s : State) (ms more : List EnvMove) (a b l : Byte) (bs bs' : List Byte), i = .poll ∨ i = .getStatus →
    s.busy = false → l.toNat + 4 ≤ s.cfg.bufCap → Brings s ms (a :: b :: l :: bs) → bs ≠ [] →
    BringsOnly s (ms ++ more) bs' → bs'.length < l.toNat + 4 →
    ∃ t, exec i s = .next t ∧
      OnlyChanges [.stage, .stageLen, .rxq, .txs, .seq, .t0, .now, .cause, .hist, .result, .env] s t ∧
      t.result = .flag false ∧ t.cause = some .timeout ∧ t.seq = .idle ∧ t.t0 + s.cfg.timeout ≤ t.now ∧
      t.txs = s.txs ++ [s.cfg.opGetStatus] ∧ t.stageLen = l.toNat + 4 ∧
      (∀ k, memRead t.stage k = if k < 3 then [a, b, l][k]? else memRead s.stage k) ∧ LeftQueued s t (ms ++ more) 3

/-- 43_sequencer.md R189: the path of `seq`, which the model's history records (log 18). A poll, by itself or as the first
part of a field read or a register write, goes from Idle to AwaitHeader, and from there to AwaitPayload, to Valid with a
true result, and to Idle; or to Failed and Idle, from AwaitHeader by a timeout or a declared length beyond the buffer,
from AwaitPayload by a timeout or an invalid frame. A probe and a command go to AwaitHeader and back. Nothing else moves
`seq`. -/
def Obligations.SequencerPath : Prop :=
  ∀ (i : Instr) (s t : State), exec i s = .next t →
    (polls i = true →
      (seqMoves t.hist = seqMoves s.hist ++ [.awaitHeader, .awaitPayload, .valid, .idle] ∧ t.snapValid = true ∧
        (i = .poll ∨ i = .getStatus → t.result = .flag true)) ∨
      (seqMoves t.hist = seqMoves s.hist ++ [.awaitHeader, .failed, .idle] ∧
        (i = .poll ∨ i = .getStatus → t.result = .flag false) ∧
        (t.cause = some .timeout ∧ t.stageLen = s.stageLen ∨
          t.cause = some .frameInvalid ∧ s.cfg.bufCap < t.stageLen)) ∨
      (seqMoves t.hist = seqMoves s.hist ++ [.awaitHeader, .awaitPayload, .failed, .idle] ∧
        (i = .poll ∨ i = .getStatus → t.result = .flag false) ∧ t.stageLen ≤ s.cfg.bufCap ∧
        (t.cause = some .timeout ∨ t.cause = some .frameInvalid))) ∧
    (i = .temp ∨ i = .getTemp ∨ (commandOpcode s.cfg i).isSome = true →
      seqMoves t.hist = seqMoves s.hist ++ [.awaitHeader, .idle]) ∧
    (polls i = false → i ≠ .temp → i ≠ .getTemp → commandOpcode s.cfg i = none → seqMoves t.hist = seqMoves s.hist)
end

