-- ==== Sys2Proof/Laws/State.lean ====
section
/-! SUPPORT. One lemma per field per record update of the shared operations, true by rfl, so that no later proof unfolds
an update. -/

namespace Sys2Proof.Machine

@[simp] theorem setSeq_acc (q : Seq) (s : State) : (setSeq q s).acc = s.acc := rfl
@[simp] theorem setSeq_snap (q : Seq) (s : State) : (setSeq q s).snap = s.snap := rfl
@[simp] theorem setSeq_snapLen (q : Seq) (s : State) : (setSeq q s).snapLen = s.snapLen := rfl
@[simp] theorem setSeq_snapValid (q : Seq) (s : State) : (setSeq q s).snapValid = s.snapValid := rfl
@[simp] theorem setSeq_stage (q : Seq) (s : State) : (setSeq q s).stage = s.stage := rfl
@[simp] theorem setSeq_stageLen (q : Seq) (s : State) : (setSeq q s).stageLen = s.stageLen := rfl
@[simp] theorem setSeq_tmp (q : Seq) (s : State) : (setSeq q s).tmp = s.tmp := rfl
@[simp] theorem setSeq_rxq (q : Seq) (s : State) : (setSeq q s).rxq = s.rxq := rfl
@[simp] theorem setSeq_txs (q : Seq) (s : State) : (setSeq q s).txs = s.txs := rfl
@[simp] theorem setSeq_seq (q : Seq) (s : State) : (setSeq q s).seq = q := rfl
@[simp] theorem setSeq_t0 (q : Seq) (s : State) : (setSeq q s).t0 = s.t0 := rfl
@[simp] theorem setSeq_now (q : Seq) (s : State) : (setSeq q s).now = s.now := rfl
@[simp] theorem setSeq_muted (q : Seq) (s : State) : (setSeq q s).muted = s.muted := rfl
@[simp] theorem setSeq_decode (q : Seq) (s : State) : (setSeq q s).decode = s.decode := rfl
@[simp] theorem setSeq_busy (q : Seq) (s : State) : (setSeq q s).busy = s.busy := rfl
@[simp] theorem setSeq_cfg (q : Seq) (s : State) : (setSeq q s).cfg = s.cfg := rfl
@[simp] theorem setSeq_cause (q : Seq) (s : State) : (setSeq q s).cause = s.cause := rfl
@[simp] theorem setSeq_hist (q : Seq) (s : State) : (setSeq q s).hist = s.hist ++ [.seqTo q] := rfl
@[simp] theorem setSeq_result (q : Seq) (s : State) : (setSeq q s).result = s.result := rfl
@[simp] theorem setSeq_port (q : Seq) (s : State) : (setSeq q s).port = s.port := rfl
@[simp] theorem setSeq_env (q : Seq) (s : State) : (setSeq q s).env = s.env := rfl
@[simp] theorem setSeq_draws (q : Seq) (s : State) : (setSeq q s).draws = s.draws := rfl

@[simp] theorem latchRequest_acc (s : State) : (latchRequest s).acc = s.acc := rfl
@[simp] theorem latchRequest_snap (s : State) : (latchRequest s).snap = s.snap := rfl
@[simp] theorem latchRequest_snapLen (s : State) : (latchRequest s).snapLen = s.snapLen := rfl
@[simp] theorem latchRequest_snapValid (s : State) : (latchRequest s).snapValid = s.snapValid := rfl
@[simp] theorem latchRequest_stage (s : State) : (latchRequest s).stage = s.stage := rfl
@[simp] theorem latchRequest_stageLen (s : State) : (latchRequest s).stageLen = s.stageLen := rfl
@[simp] theorem latchRequest_tmp (s : State) : (latchRequest s).tmp = s.tmp := rfl
@[simp] theorem latchRequest_rxq (s : State) : (latchRequest s).rxq = s.rxq := rfl
@[simp] theorem latchRequest_txs (s : State) : (latchRequest s).txs = s.txs := rfl
@[simp] theorem latchRequest_seq (s : State) : (latchRequest s).seq = s.seq := rfl
@[simp] theorem latchRequest_t0 (s : State) : (latchRequest s).t0 = s.now := rfl
@[simp] theorem latchRequest_now (s : State) : (latchRequest s).now = s.now := rfl
@[simp] theorem latchRequest_muted (s : State) : (latchRequest s).muted = s.muted := rfl
@[simp] theorem latchRequest_decode (s : State) : (latchRequest s).decode = s.decode := rfl
@[simp] theorem latchRequest_busy (s : State) : (latchRequest s).busy = s.busy := rfl
@[simp] theorem latchRequest_cfg (s : State) : (latchRequest s).cfg = s.cfg := rfl
@[simp] theorem latchRequest_cause (s : State) : (latchRequest s).cause = s.cause := rfl
@[simp] theorem latchRequest_hist (s : State) : (latchRequest s).hist = s.hist := rfl
@[simp] theorem latchRequest_result (s : State) : (latchRequest s).result = s.result := rfl
@[simp] theorem latchRequest_port (s : State) : (latchRequest s).port = s.port := rfl
@[simp] theorem latchRequest_env (s : State) : (latchRequest s).env = s.env := rfl
@[simp] theorem latchRequest_draws (s : State) : (latchRequest s).draws = s.draws := rfl

@[simp] theorem beginOp_acc (s : State) : (beginOp s).acc = s.acc := rfl
@[simp] theorem beginOp_snap (s : State) : (beginOp s).snap = s.snap := rfl
@[simp] theorem beginOp_snapLen (s : State) : (beginOp s).snapLen = s.snapLen := rfl
@[simp] theorem beginOp_snapValid (s : State) : (beginOp s).snapValid = s.snapValid := rfl
@[simp] theorem beginOp_stage (s : State) : (beginOp s).stage = s.stage := rfl
@[simp] theorem beginOp_stageLen (s : State) : (beginOp s).stageLen = s.stageLen := rfl
@[simp] theorem beginOp_tmp (s : State) : (beginOp s).tmp = s.tmp := rfl
@[simp] theorem beginOp_rxq (s : State) : (beginOp s).rxq = s.rxq := rfl
@[simp] theorem beginOp_txs (s : State) : (beginOp s).txs = s.txs := rfl
@[simp] theorem beginOp_seq (s : State) : (beginOp s).seq = s.seq := rfl
@[simp] theorem beginOp_t0 (s : State) : (beginOp s).t0 = s.t0 := rfl
@[simp] theorem beginOp_now (s : State) : (beginOp s).now = s.now := rfl
@[simp] theorem beginOp_muted (s : State) : (beginOp s).muted = s.muted := rfl
@[simp] theorem beginOp_decode (s : State) : (beginOp s).decode = s.decode := rfl
@[simp] theorem beginOp_busy (s : State) : (beginOp s).busy = true := rfl
@[simp] theorem beginOp_cfg (s : State) : (beginOp s).cfg = s.cfg := rfl
@[simp] theorem beginOp_cause (s : State) : (beginOp s).cause = s.cause := rfl
@[simp] theorem beginOp_hist (s : State) : (beginOp s).hist = s.hist := rfl
@[simp] theorem beginOp_result (s : State) : (beginOp s).result = s.result := rfl
@[simp] theorem beginOp_port (s : State) : (beginOp s).port = s.port := rfl
@[simp] theorem beginOp_env (s : State) : (beginOp s).env = s.env := rfl
@[simp] theorem beginOp_draws (s : State) : (beginOp s).draws = s.draws := rfl

@[simp] theorem noteFailure_acc (c : Cause) (s : State) : (noteFailure c s).acc = s.acc := rfl
@[simp] theorem noteFailure_snap (c : Cause) (s : State) : (noteFailure c s).snap = s.snap := rfl
@[simp] theorem noteFailure_snapLen (c : Cause) (s : State) : (noteFailure c s).snapLen = s.snapLen := rfl
@[simp] theorem noteFailure_snapValid (c : Cause) (s : State) : (noteFailure c s).snapValid = s.snapValid := rfl
@[simp] theorem noteFailure_stage (c : Cause) (s : State) : (noteFailure c s).stage = s.stage := rfl
@[simp] theorem noteFailure_stageLen (c : Cause) (s : State) : (noteFailure c s).stageLen = s.stageLen := rfl
@[simp] theorem noteFailure_tmp (c : Cause) (s : State) : (noteFailure c s).tmp = s.tmp := rfl
@[simp] theorem noteFailure_rxq (c : Cause) (s : State) : (noteFailure c s).rxq = s.rxq := rfl
@[simp] theorem noteFailure_txs (c : Cause) (s : State) : (noteFailure c s).txs = s.txs := rfl
@[simp] theorem noteFailure_seq (c : Cause) (s : State) : (noteFailure c s).seq = s.seq := rfl
@[simp] theorem noteFailure_t0 (c : Cause) (s : State) : (noteFailure c s).t0 = s.t0 := rfl
@[simp] theorem noteFailure_now (c : Cause) (s : State) : (noteFailure c s).now = s.now := rfl
@[simp] theorem noteFailure_muted (c : Cause) (s : State) : (noteFailure c s).muted = s.muted := rfl
@[simp] theorem noteFailure_decode (c : Cause) (s : State) : (noteFailure c s).decode = s.decode := rfl
@[simp] theorem noteFailure_busy (c : Cause) (s : State) : (noteFailure c s).busy = s.busy := rfl
@[simp] theorem noteFailure_cfg (c : Cause) (s : State) : (noteFailure c s).cfg = s.cfg := rfl
@[simp] theorem noteFailure_cause (c : Cause) (s : State) : (noteFailure c s).cause = some c := rfl
@[simp] theorem noteFailure_hist (c : Cause) (s : State) : (noteFailure c s).hist = s.hist := rfl
@[simp] theorem noteFailure_result (c : Cause) (s : State) : (noteFailure c s).result = s.result := rfl
@[simp] theorem noteFailure_port (c : Cause) (s : State) : (noteFailure c s).port = s.port := rfl
@[simp] theorem noteFailure_env (c : Cause) (s : State) : (noteFailure c s).env = s.env := rfl
@[simp] theorem noteFailure_draws (c : Cause) (s : State) : (noteFailure c s).draws = s.draws := rfl

@[simp] theorem deliver_acc (r : OpResult) (s : State) : (deliver r s).acc = s.acc := rfl
@[simp] theorem deliver_snap (r : OpResult) (s : State) : (deliver r s).snap = s.snap := rfl
@[simp] theorem deliver_snapLen (r : OpResult) (s : State) : (deliver r s).snapLen = s.snapLen := rfl
@[simp] theorem deliver_snapValid (r : OpResult) (s : State) : (deliver r s).snapValid = s.snapValid := rfl
@[simp] theorem deliver_stage (r : OpResult) (s : State) : (deliver r s).stage = s.stage := rfl
@[simp] theorem deliver_stageLen (r : OpResult) (s : State) : (deliver r s).stageLen = s.stageLen := rfl
@[simp] theorem deliver_tmp (r : OpResult) (s : State) : (deliver r s).tmp = s.tmp := rfl
@[simp] theorem deliver_rxq (r : OpResult) (s : State) : (deliver r s).rxq = s.rxq := rfl
@[simp] theorem deliver_txs (r : OpResult) (s : State) : (deliver r s).txs = s.txs := rfl
@[simp] theorem deliver_seq (r : OpResult) (s : State) : (deliver r s).seq = s.seq := rfl
@[simp] theorem deliver_t0 (r : OpResult) (s : State) : (deliver r s).t0 = s.t0 := rfl
@[simp] theorem deliver_now (r : OpResult) (s : State) : (deliver r s).now = s.now := rfl
@[simp] theorem deliver_muted (r : OpResult) (s : State) : (deliver r s).muted = s.muted := rfl
@[simp] theorem deliver_decode (r : OpResult) (s : State) : (deliver r s).decode = s.decode := rfl
@[simp] theorem deliver_busy (r : OpResult) (s : State) : (deliver r s).busy = false := rfl
@[simp] theorem deliver_cfg (r : OpResult) (s : State) : (deliver r s).cfg = s.cfg := rfl
@[simp] theorem deliver_cause (r : OpResult) (s : State) : (deliver r s).cause = s.cause := rfl
@[simp] theorem deliver_hist (r : OpResult) (s : State) : (deliver r s).hist = s.hist := rfl
@[simp] theorem deliver_result (r : OpResult) (s : State) : (deliver r s).result = r := rfl
@[simp] theorem deliver_port (r : OpResult) (s : State) : (deliver r s).port = s.port := rfl
@[simp] theorem deliver_env (r : OpResult) (s : State) : (deliver r s).env = s.env := rfl
@[simp] theorem deliver_draws (r : OpResult) (s : State) : (deliver r s).draws = s.draws := rfl

@[simp] theorem tx_acc (bs : List Byte) (s : State) : (tx bs s).acc = s.acc := rfl
@[simp] theorem tx_snap (bs : List Byte) (s : State) : (tx bs s).snap = s.snap := rfl
@[simp] theorem tx_snapLen (bs : List Byte) (s : State) : (tx bs s).snapLen = s.snapLen := rfl
@[simp] theorem tx_snapValid (bs : List Byte) (s : State) : (tx bs s).snapValid = s.snapValid := rfl
@[simp] theorem tx_stage (bs : List Byte) (s : State) : (tx bs s).stage = s.stage := rfl
@[simp] theorem tx_stageLen (bs : List Byte) (s : State) : (tx bs s).stageLen = s.stageLen := rfl
@[simp] theorem tx_tmp (bs : List Byte) (s : State) : (tx bs s).tmp = s.tmp := rfl
@[simp] theorem tx_rxq (bs : List Byte) (s : State) : (tx bs s).rxq = s.rxq := rfl
@[simp] theorem tx_txs (bs : List Byte) (s : State) : (tx bs s).txs = s.txs ++ bs := rfl
@[simp] theorem tx_seq (bs : List Byte) (s : State) : (tx bs s).seq = s.seq := rfl
@[simp] theorem tx_t0 (bs : List Byte) (s : State) : (tx bs s).t0 = s.t0 := rfl
@[simp] theorem tx_now (bs : List Byte) (s : State) : (tx bs s).now = s.now := rfl
@[simp] theorem tx_muted (bs : List Byte) (s : State) : (tx bs s).muted = s.muted := rfl
@[simp] theorem tx_decode (bs : List Byte) (s : State) : (tx bs s).decode = s.decode := rfl
@[simp] theorem tx_busy (bs : List Byte) (s : State) : (tx bs s).busy = s.busy := rfl
@[simp] theorem tx_cfg (bs : List Byte) (s : State) : (tx bs s).cfg = s.cfg := rfl
@[simp] theorem tx_cause (bs : List Byte) (s : State) : (tx bs s).cause = s.cause := rfl
@[simp] theorem tx_hist (bs : List Byte) (s : State) : (tx bs s).hist = s.hist ++ [.sent bs] := rfl
@[simp] theorem tx_result (bs : List Byte) (s : State) : (tx bs s).result = s.result := rfl
@[simp] theorem tx_port (bs : List Byte) (s : State) : (tx bs s).port = s.port := rfl
@[simp] theorem tx_env (bs : List Byte) (s : State) : (tx bs s).env = s.env := rfl
@[simp] theorem tx_draws (bs : List Byte) (s : State) : (tx bs s).draws = s.draws := rfl

@[simp] theorem pop_acc (n : Nat) (s : State) : (pop n s).acc = s.acc := rfl
@[simp] theorem pop_snap (n : Nat) (s : State) : (pop n s).snap = s.snap := rfl
@[simp] theorem pop_snapLen (n : Nat) (s : State) : (pop n s).snapLen = s.snapLen := rfl
@[simp] theorem pop_snapValid (n : Nat) (s : State) : (pop n s).snapValid = s.snapValid := rfl
@[simp] theorem pop_stage (n : Nat) (s : State) : (pop n s).stage = s.stage := rfl
@[simp] theorem pop_stageLen (n : Nat) (s : State) : (pop n s).stageLen = s.stageLen := rfl
@[simp] theorem pop_tmp (n : Nat) (s : State) : (pop n s).tmp = s.tmp := rfl
@[simp] theorem pop_rxq (n : Nat) (s : State) : (pop n s).rxq = s.rxq.drop n := rfl
@[simp] theorem pop_txs (n : Nat) (s : State) : (pop n s).txs = s.txs := rfl
@[simp] theorem pop_seq (n : Nat) (s : State) : (pop n s).seq = s.seq := rfl
@[simp] theorem pop_t0 (n : Nat) (s : State) : (pop n s).t0 = s.t0 := rfl
@[simp] theorem pop_now (n : Nat) (s : State) : (pop n s).now = s.now := rfl
@[simp] theorem pop_muted (n : Nat) (s : State) : (pop n s).muted = s.muted := rfl
@[simp] theorem pop_decode (n : Nat) (s : State) : (pop n s).decode = s.decode := rfl
@[simp] theorem pop_busy (n : Nat) (s : State) : (pop n s).busy = s.busy := rfl
@[simp] theorem pop_cfg (n : Nat) (s : State) : (pop n s).cfg = s.cfg := rfl
@[simp] theorem pop_cause (n : Nat) (s : State) : (pop n s).cause = s.cause := rfl
@[simp] theorem pop_hist (n : Nat) (s : State) : (pop n s).hist = s.hist ++ [.popped (s.rxq.take n)] := rfl
@[simp] theorem pop_result (n : Nat) (s : State) : (pop n s).result = s.result := rfl
@[simp] theorem pop_port (n : Nat) (s : State) : (pop n s).port = s.port := rfl
@[simp] theorem pop_env (n : Nat) (s : State) : (pop n s).env = s.env := rfl
@[simp] theorem pop_draws (n : Nat) (s : State) : (pop n s).draws = s.draws := rfl

@[simp] theorem afterView_acc (b : BufRef) (n : Nat) (s : State) : (afterView b n s).acc = s.acc := rfl
@[simp] theorem afterView_snap (b : BufRef) (n : Nat) (s : State) : (afterView b n s).snap = s.snap := rfl
@[simp] theorem afterView_snapLen (b : BufRef) (n : Nat) (s : State) : (afterView b n s).snapLen = s.snapLen := rfl
@[simp] theorem afterView_snapValid (b : BufRef) (n : Nat) (s : State) : (afterView b n s).snapValid = s.snapValid := rfl
@[simp] theorem afterView_stage (b : BufRef) (n : Nat) (s : State) : (afterView b n s).stage = s.stage := rfl
@[simp] theorem afterView_stageLen (b : BufRef) (n : Nat) (s : State) : (afterView b n s).stageLen = s.stageLen := rfl
@[simp] theorem afterView_tmp (b : BufRef) (n : Nat) (s : State) : (afterView b n s).tmp = s.tmp := rfl
@[simp] theorem afterView_rxq (b : BufRef) (n : Nat) (s : State) : (afterView b n s).rxq = s.rxq := rfl
@[simp] theorem afterView_txs (b : BufRef) (n : Nat) (s : State) : (afterView b n s).txs = s.txs := rfl
@[simp] theorem afterView_seq (b : BufRef) (n : Nat) (s : State) : (afterView b n s).seq = s.seq := rfl
@[simp] theorem afterView_t0 (b : BufRef) (n : Nat) (s : State) : (afterView b n s).t0 = s.t0 := rfl
@[simp] theorem afterView_now (b : BufRef) (n : Nat) (s : State) : (afterView b n s).now = s.now := rfl
@[simp] theorem afterView_muted (b : BufRef) (n : Nat) (s : State) : (afterView b n s).muted = s.muted := rfl
@[simp] theorem afterView_decode (b : BufRef) (n : Nat) (s : State) : (afterView b n s).decode = s.decode := rfl
@[simp] theorem afterView_busy (b : BufRef) (n : Nat) (s : State) : (afterView b n s).busy = s.busy := rfl
@[simp] theorem afterView_cfg (b : BufRef) (n : Nat) (s : State) : (afterView b n s).cfg = s.cfg := rfl
@[simp] theorem afterView_cause (b : BufRef) (n : Nat) (s : State) : (afterView b n s).cause = s.cause := rfl
@[simp] theorem afterView_hist (b : BufRef) (n : Nat) (s : State) : (afterView b n s).hist = s.hist := rfl
@[simp] theorem afterView_result (b : BufRef) (n : Nat) (s : State) : (afterView b n s).result = s.result := rfl
@[simp] theorem afterView_port (b : BufRef) (n : Nat) (s : State) : (afterView b n s).port = s.port := rfl
@[simp] theorem afterView_env (b : BufRef) (n : Nat) (s : State) : (afterView b n s).env = s.env := rfl
@[simp] theorem afterView_draws (b : BufRef) (n : Nat) (s : State) : (afterView b n s).draws = s.draws + bufDraws s b n := rfl

@[simp] theorem afterTempView_acc (b : TempRef) (n : Nat) (s : State) : (afterTempView b n s).acc = s.acc := rfl
@[simp] theorem afterTempView_snap (b : TempRef) (n : Nat) (s : State) : (afterTempView b n s).snap = s.snap := rfl
@[simp] theorem afterTempView_snapLen (b : TempRef) (n : Nat) (s : State) : (afterTempView b n s).snapLen = s.snapLen := rfl
@[simp] theorem afterTempView_snapValid (b : TempRef) (n : Nat) (s : State) : (afterTempView b n s).snapValid = s.snapValid := rfl
@[simp] theorem afterTempView_stage (b : TempRef) (n : Nat) (s : State) : (afterTempView b n s).stage = s.stage := rfl
@[simp] theorem afterTempView_stageLen (b : TempRef) (n : Nat) (s : State) : (afterTempView b n s).stageLen = s.stageLen := rfl
@[simp] theorem afterTempView_tmp (b : TempRef) (n : Nat) (s : State) : (afterTempView b n s).tmp = s.tmp := rfl
@[simp] theorem afterTempView_rxq (b : TempRef) (n : Nat) (s : State) : (afterTempView b n s).rxq = s.rxq := rfl
@[simp] theorem afterTempView_txs (b : TempRef) (n : Nat) (s : State) : (afterTempView b n s).txs = s.txs := rfl
@[simp] theorem afterTempView_seq (b : TempRef) (n : Nat) (s : State) : (afterTempView b n s).seq = s.seq := rfl
@[simp] theorem afterTempView_t0 (b : TempRef) (n : Nat) (s : State) : (afterTempView b n s).t0 = s.t0 := rfl
@[simp] theorem afterTempView_now (b : TempRef) (n : Nat) (s : State) : (afterTempView b n s).now = s.now := rfl
@[simp] theorem afterTempView_muted (b : TempRef) (n : Nat) (s : State) : (afterTempView b n s).muted = s.muted := rfl
@[simp] theorem afterTempView_decode (b : TempRef) (n : Nat) (s : State) : (afterTempView b n s).decode = s.decode := rfl
@[simp] theorem afterTempView_busy (b : TempRef) (n : Nat) (s : State) : (afterTempView b n s).busy = s.busy := rfl
@[simp] theorem afterTempView_cfg (b : TempRef) (n : Nat) (s : State) : (afterTempView b n s).cfg = s.cfg := rfl
@[simp] theorem afterTempView_cause (b : TempRef) (n : Nat) (s : State) : (afterTempView b n s).cause = s.cause := rfl
@[simp] theorem afterTempView_hist (b : TempRef) (n : Nat) (s : State) : (afterTempView b n s).hist = s.hist := rfl
@[simp] theorem afterTempView_result (b : TempRef) (n : Nat) (s : State) : (afterTempView b n s).result = s.result := rfl
@[simp] theorem afterTempView_port (b : TempRef) (n : Nat) (s : State) : (afterTempView b n s).port = s.port := rfl
@[simp] theorem afterTempView_env (b : TempRef) (n : Nat) (s : State) : (afterTempView b n s).env = s.env := rfl
@[simp] theorem afterTempView_draws (b : TempRef) (n : Nat) (s : State) : (afterTempView b n s).draws = s.draws + tempDraws s b n := rfl

@[simp] theorem setAcc_acc (a : Byte) (s : State) : (setAcc a s).acc = a := rfl
@[simp] theorem setAcc_snap (a : Byte) (s : State) : (setAcc a s).snap = s.snap := rfl
@[simp] theorem setAcc_snapLen (a : Byte) (s : State) : (setAcc a s).snapLen = s.snapLen := rfl
@[simp] theorem setAcc_snapValid (a : Byte) (s : State) : (setAcc a s).snapValid = s.snapValid := rfl
@[simp] theorem setAcc_stage (a : Byte) (s : State) : (setAcc a s).stage = s.stage := rfl
@[simp] theorem setAcc_stageLen (a : Byte) (s : State) : (setAcc a s).stageLen = s.stageLen := rfl
@[simp] theorem setAcc_tmp (a : Byte) (s : State) : (setAcc a s).tmp = s.tmp := rfl
@[simp] theorem setAcc_rxq (a : Byte) (s : State) : (setAcc a s).rxq = s.rxq := rfl
@[simp] theorem setAcc_txs (a : Byte) (s : State) : (setAcc a s).txs = s.txs := rfl
@[simp] theorem setAcc_seq (a : Byte) (s : State) : (setAcc a s).seq = s.seq := rfl
@[simp] theorem setAcc_t0 (a : Byte) (s : State) : (setAcc a s).t0 = s.t0 := rfl
@[simp] theorem setAcc_now (a : Byte) (s : State) : (setAcc a s).now = s.now := rfl
@[simp] theorem setAcc_muted (a : Byte) (s : State) : (setAcc a s).muted = s.muted := rfl
@[simp] theorem setAcc_decode (a : Byte) (s : State) : (setAcc a s).decode = s.decode := rfl
@[simp] theorem setAcc_busy (a : Byte) (s : State) : (setAcc a s).busy = s.busy := rfl
@[simp] theorem setAcc_cfg (a : Byte) (s : State) : (setAcc a s).cfg = s.cfg := rfl
@[simp] theorem setAcc_cause (a : Byte) (s : State) : (setAcc a s).cause = s.cause := rfl
@[simp] theorem setAcc_hist (a : Byte) (s : State) : (setAcc a s).hist = s.hist := rfl
@[simp] theorem setAcc_result (a : Byte) (s : State) : (setAcc a s).result = s.result := rfl
@[simp] theorem setAcc_port (a : Byte) (s : State) : (setAcc a s).port = s.port := rfl
@[simp] theorem setAcc_env (a : Byte) (s : State) : (setAcc a s).env = s.env := rfl
@[simp] theorem setAcc_draws (a : Byte) (s : State) : (setAcc a s).draws = s.draws := rfl

@[simp] theorem lrcRun_acc (b : BufRef) (n : Nat) (s : State) : (lrcRun b n s).acc = lrcSum (bufView s b n) n := rfl
@[simp] theorem lrcRun_snap (b : BufRef) (n : Nat) (s : State) : (lrcRun b n s).snap = s.snap := rfl
@[simp] theorem lrcRun_snapLen (b : BufRef) (n : Nat) (s : State) : (lrcRun b n s).snapLen = s.snapLen := rfl
@[simp] theorem lrcRun_snapValid (b : BufRef) (n : Nat) (s : State) : (lrcRun b n s).snapValid = s.snapValid := rfl
@[simp] theorem lrcRun_stage (b : BufRef) (n : Nat) (s : State) : (lrcRun b n s).stage = s.stage := rfl
@[simp] theorem lrcRun_stageLen (b : BufRef) (n : Nat) (s : State) : (lrcRun b n s).stageLen = s.stageLen := rfl
@[simp] theorem lrcRun_tmp (b : BufRef) (n : Nat) (s : State) : (lrcRun b n s).tmp = s.tmp := rfl
@[simp] theorem lrcRun_rxq (b : BufRef) (n : Nat) (s : State) : (lrcRun b n s).rxq = s.rxq := rfl
@[simp] theorem lrcRun_txs (b : BufRef) (n : Nat) (s : State) : (lrcRun b n s).txs = s.txs := rfl
@[simp] theorem lrcRun_seq (b : BufRef) (n : Nat) (s : State) : (lrcRun b n s).seq = s.seq := rfl
@[simp] theorem lrcRun_t0 (b : BufRef) (n : Nat) (s : State) : (lrcRun b n s).t0 = s.t0 := rfl
@[simp] theorem lrcRun_now (b : BufRef) (n : Nat) (s : State) : (lrcRun b n s).now = s.now := rfl
@[simp] theorem lrcRun_muted (b : BufRef) (n : Nat) (s : State) : (lrcRun b n s).muted = s.muted := rfl
@[simp] theorem lrcRun_decode (b : BufRef) (n : Nat) (s : State) : (lrcRun b n s).decode = s.decode := rfl
@[simp] theorem lrcRun_busy (b : BufRef) (n : Nat) (s : State) : (lrcRun b n s).busy = s.busy := rfl
@[simp] theorem lrcRun_cfg (b : BufRef) (n : Nat) (s : State) : (lrcRun b n s).cfg = s.cfg := rfl
@[simp] theorem lrcRun_cause (b : BufRef) (n : Nat) (s : State) : (lrcRun b n s).cause = s.cause := rfl
@[simp] theorem lrcRun_hist (b : BufRef) (n : Nat) (s : State) : (lrcRun b n s).hist = s.hist := rfl
@[simp] theorem lrcRun_result (b : BufRef) (n : Nat) (s : State) : (lrcRun b n s).result = s.result := rfl
@[simp] theorem lrcRun_port (b : BufRef) (n : Nat) (s : State) : (lrcRun b n s).port = s.port := rfl
@[simp] theorem lrcRun_env (b : BufRef) (n : Nat) (s : State) : (lrcRun b n s).env = s.env := rfl
@[simp] theorem lrcRun_draws (b : BufRef) (n : Nat) (s : State) : (lrcRun b n s).draws = s.draws + bufDraws s b n := rfl

@[simp] theorem takeHeader_acc (s : State) : (takeHeader s).acc = s.acc := rfl
@[simp] theorem takeHeader_snap (s : State) : (takeHeader s).snap = s.snap := rfl
@[simp] theorem takeHeader_snapLen (s : State) : (takeHeader s).snapLen = s.snapLen := rfl
@[simp] theorem takeHeader_snapValid (s : State) : (takeHeader s).snapValid = s.snapValid := rfl
@[simp] theorem takeHeader_stage (s : State) : (takeHeader s).stage = memStore s.stage 0 (s.rxq.take headerSize) := rfl
@[simp] theorem takeHeader_stageLen (s : State) : (takeHeader s).stageLen = (headerLen s).toNat + frameOverhead := rfl
@[simp] theorem takeHeader_tmp (s : State) : (takeHeader s).tmp = s.tmp := rfl
@[simp] theorem takeHeader_rxq (s : State) : (takeHeader s).rxq = s.rxq.drop headerSize := rfl
@[simp] theorem takeHeader_txs (s : State) : (takeHeader s).txs = s.txs := rfl
@[simp] theorem takeHeader_seq (s : State) : (takeHeader s).seq = s.seq := rfl
@[simp] theorem takeHeader_t0 (s : State) : (takeHeader s).t0 = s.t0 := rfl
@[simp] theorem takeHeader_now (s : State) : (takeHeader s).now = s.now := rfl
@[simp] theorem takeHeader_muted (s : State) : (takeHeader s).muted = s.muted := rfl
@[simp] theorem takeHeader_decode (s : State) : (takeHeader s).decode = s.decode := rfl
@[simp] theorem takeHeader_busy (s : State) : (takeHeader s).busy = s.busy := rfl
@[simp] theorem takeHeader_cfg (s : State) : (takeHeader s).cfg = s.cfg := rfl
@[simp] theorem takeHeader_cause (s : State) : (takeHeader s).cause = s.cause := rfl
@[simp] theorem takeHeader_hist (s : State) : (takeHeader s).hist = s.hist ++ [.popped (s.rxq.take headerSize)] := rfl
@[simp] theorem takeHeader_result (s : State) : (takeHeader s).result = s.result := rfl
@[simp] theorem takeHeader_port (s : State) : (takeHeader s).port = s.port := rfl
@[simp] theorem takeHeader_env (s : State) : (takeHeader s).env = s.env := rfl
@[simp] theorem takeHeader_draws (s : State) : (takeHeader s).draws = s.draws := rfl

@[simp] theorem takePayload_acc (l : Byte) (s : State) : (takePayload l s).acc = s.acc := rfl
@[simp] theorem takePayload_snap (l : Byte) (s : State) : (takePayload l s).snap = s.snap := rfl
@[simp] theorem takePayload_snapLen (l : Byte) (s : State) : (takePayload l s).snapLen = s.snapLen := rfl
@[simp] theorem takePayload_snapValid (l : Byte) (s : State) : (takePayload l s).snapValid = s.snapValid := rfl
@[simp] theorem takePayload_stage (l : Byte) (s : State) : (takePayload l s).stage = memStore s.stage headerSize (s.rxq.take (l.toNat + 1)) := rfl
@[simp] theorem takePayload_stageLen (l : Byte) (s : State) : (takePayload l s).stageLen = s.stageLen := rfl
@[simp] theorem takePayload_tmp (l : Byte) (s : State) : (takePayload l s).tmp = s.tmp := rfl
@[simp] theorem takePayload_rxq (l : Byte) (s : State) : (takePayload l s).rxq = s.rxq.drop (l.toNat + 1) := rfl
@[simp] theorem takePayload_txs (l : Byte) (s : State) : (takePayload l s).txs = s.txs := rfl
@[simp] theorem takePayload_seq (l : Byte) (s : State) : (takePayload l s).seq = s.seq := rfl
@[simp] theorem takePayload_t0 (l : Byte) (s : State) : (takePayload l s).t0 = s.t0 := rfl
@[simp] theorem takePayload_now (l : Byte) (s : State) : (takePayload l s).now = s.now := rfl
@[simp] theorem takePayload_muted (l : Byte) (s : State) : (takePayload l s).muted = s.muted := rfl
@[simp] theorem takePayload_decode (l : Byte) (s : State) : (takePayload l s).decode = s.decode := rfl
@[simp] theorem takePayload_busy (l : Byte) (s : State) : (takePayload l s).busy = s.busy := rfl
@[simp] theorem takePayload_cfg (l : Byte) (s : State) : (takePayload l s).cfg = s.cfg := rfl
@[simp] theorem takePayload_cause (l : Byte) (s : State) : (takePayload l s).cause = s.cause := rfl
@[simp] theorem takePayload_hist (l : Byte) (s : State) : (takePayload l s).hist = s.hist ++ [.popped (s.rxq.take (l.toNat + 1))] := rfl
@[simp] theorem takePayload_result (l : Byte) (s : State) : (takePayload l s).result = s.result := rfl
@[simp] theorem takePayload_port (l : Byte) (s : State) : (takePayload l s).port = s.port := rfl
@[simp] theorem takePayload_env (l : Byte) (s : State) : (takePayload l s).env = s.env := rfl
@[simp] theorem takePayload_draws (l : Byte) (s : State) : (takePayload l s).draws = s.draws := rfl

@[simp] theorem takeTemp_acc (s : State) : (takeTemp s).acc = s.acc := rfl
@[simp] theorem takeTemp_snap (s : State) : (takeTemp s).snap = s.snap := rfl
@[simp] theorem takeTemp_snapLen (s : State) : (takeTemp s).snapLen = s.snapLen := rfl
@[simp] theorem takeTemp_snapValid (s : State) : (takeTemp s).snapValid = s.snapValid := rfl
@[simp] theorem takeTemp_stage (s : State) : (takeTemp s).stage = s.stage := rfl
@[simp] theorem takeTemp_stageLen (s : State) : (takeTemp s).stageLen = s.stageLen := rfl
@[simp] theorem takeTemp_tmp (s : State) : (takeTemp s).tmp = memStore s.tmp 0 (s.rxq.take tempLen) := rfl
@[simp] theorem takeTemp_rxq (s : State) : (takeTemp s).rxq = s.rxq.drop tempLen := rfl
@[simp] theorem takeTemp_txs (s : State) : (takeTemp s).txs = s.txs := rfl
@[simp] theorem takeTemp_seq (s : State) : (takeTemp s).seq = s.seq := rfl
@[simp] theorem takeTemp_t0 (s : State) : (takeTemp s).t0 = s.t0 := rfl
@[simp] theorem takeTemp_now (s : State) : (takeTemp s).now = s.now := rfl
@[simp] theorem takeTemp_muted (s : State) : (takeTemp s).muted = s.muted := rfl
@[simp] theorem takeTemp_decode (s : State) : (takeTemp s).decode = s.decode := rfl
@[simp] theorem takeTemp_busy (s : State) : (takeTemp s).busy = s.busy := rfl
@[simp] theorem takeTemp_cfg (s : State) : (takeTemp s).cfg = s.cfg := rfl
@[simp] theorem takeTemp_cause (s : State) : (takeTemp s).cause = s.cause := rfl
@[simp] theorem takeTemp_hist (s : State) : (takeTemp s).hist = s.hist ++ [.popped (s.rxq.take tempLen)] := rfl
@[simp] theorem takeTemp_result (s : State) : (takeTemp s).result = s.result := rfl
@[simp] theorem takeTemp_port (s : State) : (takeTemp s).port = s.port := rfl
@[simp] theorem takeTemp_env (s : State) : (takeTemp s).env = s.env := rfl
@[simp] theorem takeTemp_draws (s : State) : (takeTemp s).draws = s.draws := rfl

/-- Reading places that all hold a value changes nothing (20_memory.md R54 (d)). -/
theorem afterView_of_held {b : BufRef} {n : Nat} {s : State} (h : bufDraws s b n = 0) : afterView b n s = s := by
  rw [afterView, h]
  rfl

/-- With `busy` = 0 an operation is its body (10_state.md R35). -/
theorem hostOp_idle {s : State} (h : s.busy = false) (body : State → Result) : hostOp s body = body (beginOp s) := by
  rw [hostOp, h]
  rfl

/-- With `busy` = 1 every operation is refused (10_state.md R35). -/
theorem hostOp_busy {s : State} (h : s.busy = true) (body : State → Result) : hostOp s body = .refused .hostBusy := by
  rw [hostOp, h]
  rfl

/-- An operation that answers a next state was begun with `busy` = 0. -/
theorem hostOp_next {s t : State} {body : State → Result} (h : hostOp s body = .next t) :
    s.busy = false ∧ body (beginOp s) = .next t := by
  cases hb : s.busy with
  | false => exact ⟨rfl, by rwa [hostOp_idle hb] at h⟩
  | true => rw [hostOp_busy hb] at h; cases h

end Sys2Proof.Machine
end

