-- ==== Sys2Proof/Laws/Checksum.lean ====
section
/-! SUPPORT. The LRC as a negated sum, and which byte sequences are valid status frames. -/

namespace Sys2Proof.Machine

open Sys2Proof.Safety

/-- Subtracting the bytes one by one subtracts their sum. -/
theorem foldl_sub_eq (bs : List Byte) (z : Byte) : bs.foldl (fun acc b => acc - b) z = z - bs.sum := by
  induction bs generalizing z with
  | nil => simp
  | cons b bs ih =>
    rw [List.foldl_cons, ih, List.sum_cons]
    ring

/-- The LRC is the two's complement of the sum of the covered bytes (40_lrc.md R126). -/
theorem lrcSum_eq_neg_sum (buf : List Byte) (n : Nat) : lrcSum buf n = -(lrcRange buf n).sum := by
  rw [lrcSum, foldl_sub_eq]
  ring

/-- The value of a sum of bytes is the sum of their values modulo 256. -/
theorem toNat_sum (bs : List Byte) : bs.sum.toNat = (bs.map BitVec.toNat).sum % 256 := by
  induction bs with
  | nil => rfl
  | cons b bs ih =>
    rw [List.sum_cons, BitVec.toNat_add, ih, List.map_cons, List.sum_cons]
    simp

/-- The closed form of 40_lrc.md R120: `(256 - (Σ mod 256)) mod 256`. -/
theorem lrcSum_toNat (buf : List Byte) (n : Nat) :
    (lrcSum buf n).toNat = (256 - ((lrcRange buf n).map BitVec.toNat).sum % 256) % 256 := by
  rw [lrcSum_eq_neg_sum, BitVec.toNat_neg, toNat_sum]

/-- The LRC looks only at the bytes before the checksum slot. -/
theorem lrcSum_congr {a b : List Byte} {n : Nat} (h : a.take (n - 1) = b.take (n - 1)) : lrcSum a n = lrcSum b n := by
  rw [lrcSum, lrcSum, lrcRange, lrcRange, h]

/-! ## The closed form -/

/-- A sum over the indices 1 to k, as a sum over a list. -/
theorem sumOn_one (k : Nat) (f : Nat → Byte) :
    sumOn 1 k f = ((List.range k).map fun i => (f (i + 1)).toNat).sum := by
  induction k with
  | zero => rfl
  | succ k ih =>
    rw [sumOn, Finset.sum_Icc_succ_top (by omega), List.range_succ, List.map_append, List.sum_append, ← ih]
    simp [sumOn]

/-- The covered bytes of a sequence whose indices 1 to n−2 hold the values of `f`. -/
theorem lrcRange_eq {buf : List Byte} {n : Nat} {f : Nat → Byte}
    (h : ∀ i, 1 ≤ i → i ≤ n - 2 → buf[i]? = some (f i)) :
    lrcRange buf n = (List.range (n - 2)).map fun i => f (i + 1) := by
  apply List.ext_getElem?
  intro i
  rw [lrcRange, List.getElem?_drop, List.getElem?_take, List.getElem?_map]
  by_cases hi : i < n - 2
  · rw [if_pos (by omega), h (1 + i) (by omega) (by omega), List.getElem?_range hi, Nat.add_comm]
    rfl
  · rw [List.getElem?_eq_none (l := List.range (n - 2)) (by simpa using hi)]
    by_cases h2 : 1 + i < n - 1
    · omega
    · rw [if_neg h2]
      rfl

/-- The LRC is the closed form of 40_lrc.md R120. -/
theorem lrcSum_closed {buf : List Byte} {n : Nat} {f : Nat → Byte}
    (h : ∀ i, 1 ≤ i → i ≤ n - 2 → buf[i]? = some (f i)) : (lrcSum buf n).toNat = lrcClosedForm n f := by
  rw [lrcSum_toNat, lrcRange_eq h, lrcClosedForm, sumOn_one, List.map_map]
  rfl

/-- A checksum byte equals the closed form exactly when the bytes from 1 on, checksum included, sum to 0 modulo 256
(40_lrc.md R123). -/
theorem closedForm_iff_sum_zero {n : Nat} {f : Nat → Byte} (hn : 2 ≤ n) :
    (f (n - 1)).toNat = lrcClosedForm n f ↔ sumOn 1 (n - 1) f % 256 = 0 := by
  obtain ⟨k, rfl⟩ : ∃ k, n = k + 2 := ⟨n - 2, by omega⟩
  have hl := (f (k + 1)).isLt
  have e : sumOn 1 (k + 1) f = sumOn 1 k f + (f (k + 1)).toNat := by
    rw [sumOn, Finset.sum_Icc_succ_top (by omega)]
    rfl
  show (f (k + 1)).toNat = (256 - sumOn 1 k f % 256) % 256 ↔ sumOn 1 (k + 1) f % 256 = 0
  rw [e]
  omega

@[simp] theorem frameBody_length (p : List Byte) : (frameBody p).length = p.length + 3 := by simp [frameBody]
@[simp] theorem frameOf_length (p : List Byte) : (frameOf p).length = p.length + 4 := by simp [frameOf]

/-- The body of a frame is all but its last byte. -/
theorem take_frameOf (p : List Byte) : (frameOf p).take (p.length + 3) = frameBody p := by
  rw [frameOf, List.take_append_of_le_length (by simp), List.take_of_length_le (by simp)]

/-- The LRC of whatever begins with a frame's body is that frame's checksum. -/
theorem lrcSum_of_body {bs p : List Byte} (h : bs.take (p.length + 3) = frameBody p) :
    lrcSum bs (p.length + 4) = frameChecksum p := by
  rw [frameChecksum]
  apply lrcSum_congr
  show bs.take (p.length + 3) = (frameBody p).take (p.length + 3)
  rw [h, List.take_of_length_le (by simp)]

@[simp] theorem frameOf_getElem?_zero (p : List Byte) : (frameOf p)[0]? = some sof := rfl
@[simp] theorem frameOf_getElem?_one (p : List Byte) : (frameOf p)[1]? = some modelStatus := rfl
@[simp] theorem frameOf_getElem?_two (p : List Byte) : (frameOf p)[2]? = some (BitVec.ofNat 8 p.length) := rfl

/-- A payload byte of a frame. -/
theorem frameOf_getElem?_payload (p : List Byte) {i : Nat} (h : i < p.length) : (frameOf p)[i + 3]? = p[i]? := by
  rw [frameOf, List.getElem?_append_left (by simpa using by omega)]
  rfl

/-- The checksum slot of a frame. -/
theorem frameOf_getElem?_last (p : List Byte) : (frameOf p)[p.length + 3]? = some (frameChecksum p) := by
  rw [frameOf, List.getElem?_append_right (by simp)]
  simp

theorem byteAt_eq {bs : List Byte} {i : Nat} {b : Byte} (h : bs[i]? = some b) : byteAt bs i = b := by
  rw [byteAt, List.getD_eq_getElem?_getD, h]
  rfl

/-- The length byte of a frame is its payload's length. -/
theorem frameOf_len_byte {p : List Byte} (h : p.length ≤ 255) : (byteAt (frameOf p) 2).toNat = p.length := by
  rw [byteAt_eq (frameOf_getElem?_two p), BitVec.toNat_ofNat]
  exact Nat.mod_eq_of_lt (by omega)

/-- A frame of format RS passes the validator (42_frame_codec.md R150). -/
theorem statusValid_frameOf (p : List Byte) : statusValid (frameOf p) (p.length + 4) = true := by
  unfold statusValid lrcHolds
  rw [byteAt_eq (frameOf_getElem?_zero p), byteAt_eq (frameOf_getElem?_one p)]
  have h : byteAt (frameOf p) (p.length + 4 - 1) = frameChecksum p := byteAt_eq (frameOf_getElem?_last p)
  rw [h, lrcSum_of_body (take_frameOf p)]
  simp

/-- Whatever passes the validator at the length its own length byte declares is a frame of format RS. -/
theorem frame_of_statusValid {bs : List Byte} {n : Nat} (hl : bs.length = n) (hn : n = (byteAt bs 2).toNat + 4)
    (h : statusValid bs n = true) : ∃ p : List Byte, p.length ≤ 255 ∧ n = p.length + 4 ∧ bs = frameOf p := by
  match bs, hl with
  | a :: b :: l :: rest, hl =>
    have hlen : rest.length = l.toNat + 1 := by
      have e : byteAt (a :: b :: l :: rest) 2 = l := rfl
      rw [e] at hn
      simp only [List.length_cons] at hl
      omega
    have hll := l.isLt
    unfold statusValid at h
    simp only [Bool.and_eq_true, beq_iff_eq] at h
    obtain ⟨⟨h0, h1⟩, h2⟩ := h
    have ha : a = sof := h0
    have hb : b = modelStatus := h1
    subst ha hb
    have hne : rest ≠ [] := by
      intro hr
      rw [hr] at hlen
      simp at hlen
    have hrest := List.dropLast_concat_getLast hne
    have hdl : rest.dropLast.length = l.toNat := by
      rw [List.length_dropLast]
      omega
    have hbody : sof :: modelStatus :: l :: rest.dropLast = frameBody rest.dropLast := by
      rw [frameBody, hdl]
      simp
    have hwhole : sof :: modelStatus :: l :: rest = frameBody rest.dropLast ++ [rest.getLast hne] := by
      rw [← hbody, List.cons_append, List.cons_append, List.cons_append, hrest]
    refine ⟨rest.dropLast, by omega, by simp only [List.length_cons] at hl; omega, ?_⟩
    have hnn : n = rest.dropLast.length + 4 := by simp only [List.length_cons] at hl; omega
    rw [hwhole] at h2 ⊢
    rw [frameOf]
    congr 1
    unfold lrcHolds at h2
    rw [beq_iff_eq, hnn, lrcSum_of_body (by
      rw [List.take_append_of_le_length (by simp), List.take_of_length_le (by simp)])] at h2
    have e : byteAt (frameBody rest.dropLast ++ [rest.getLast hne]) (rest.dropLast.length + 4 - 1) =
        rest.getLast hne := by
      apply byteAt_eq
      show (frameBody rest.dropLast ++ [rest.getLast hne])[rest.dropLast.length + 3]? = _
      rw [List.getElem?_append_right (by simp)]
      simp
    rw [e] at h2
    rw [h2]
  | [], hl => simp at hl; omega
  | [_], hl => simp at hl; omega
  | [_, _], hl => simp at hl; omega

/-- The body of a frame with one payload byte replaced is the body of the replaced payload. -/
theorem frameBody_set (p : List Byte) (i : Nat) (v : Byte) :
    frameBody (p.set i v) = (frameBody p).set (i + 3) v := by
  simp [frameBody]

end Sys2Proof.Machine
end

