-- ==== Sys2Proof/Laws/Exec.lean ====
section
/-! SUPPORT. What each kind of instruction answers when the block is not busy, as one equation each, and which
instructions are the same exchange: later proofs cite these and unfold no meaning. -/

namespace Sys2Proof.Machine

open Sys2Proof.Safety

variable {s : State}

theorem pollRun_idle (h : s.busy = false) :
    pollRun s = .next (deliver (.flag (pollBody (beginOp s)).1) (pollBody (beginOp s)).2) := hostOp_idle h _

theorem tempRun_idle (h : s.busy = false) :
    tempRun s = .next (deliver (.byte (tempBody (beginOp s)).1) (tempBody (beginOp s)).2) := hostOp_idle h _

theorem sendRun_idle (op : Byte) (h : s.busy = false) :
    sendRun op s = .next (deliver (.byte (sendBody op (beginOp s)).1) (sendBody op (beginOp s)).2) := hostOp_idle h _

theorem writeRun_idle (off : Nat) (val : Byte) (h : s.busy = false) :
    writeRun off val s = .next (deliver .nothing (writeBody off val (beginOp s))) := hostOp_idle h _

theorem readRun_idle (f : Field) (h : s.busy = false) :
    readRun f s = .next (deliver (.number (readBody f (beginOp s)).1) (readBody f (beginOp s)).2) := hostOp_idle h _

theorem selectRun_idle (i : Input) {e : Effect} {op : Byte} (he : effectOpcode s.cfg e = some op)
    (h : s.busy = false) :
    selectRun i e s =
      .next (deliver .nothing (flushRx (transmit (selectSequence s.cfg i op) (beginOp s)))) := by
  have he' : effectOpcode (beginOp s).cfg e = some op := he
  rw [selectRun, hostOp_idle h, he']
  rfl

theorem execLrc_idle {b : BufRef} {n : Nat} (hn : n ≤ bufSize s.cfg b) (h : s.busy = false) :
    execLrc b n s =
      .next (deliver (.byte (lrcSum (bufView (beginOp s) b n) n)) (lrcRun b n (beginOp s))) := by
  rw [execLrc, hostOp_idle h]
  exact if_neg (Nat.not_lt.2 hn)

theorem execLrcStore_idle {b : BufRef} {n : Nat} (h1 : 1 ≤ n) (hn : n ≤ bufSize s.cfg b) (h : s.busy = false) :
    execLrcStore b n s =
      .next (deliver (storeResult b n (lrcSum (bufView (beginOp s) b n) n)) (lrcStoreRun b n (beginOp s))) := by
  rw [execLrcStore, hostOp_idle h]
  exact (if_neg (Nat.pos_iff_ne_zero.1 h1)).trans (if_neg (Nat.not_lt.2 hn))

theorem execLrcCheck_idle {b : BufRef} {n : Nat} (h1 : 1 ≤ n) (hn : n ≤ bufSize s.cfg b) (h : s.busy = false) :
    execLrcCheck b n s =
      .next (deliver (.flag (lrcHolds (bufView (beginOp s) b n) n)) (lrcRun b n (beginOp s))) := by
  rw [execLrcCheck, hostOp_idle h]
  exact (if_neg (Nat.pos_iff_ne_zero.1 h1)).trans (if_neg (Nat.not_lt.2 hn))

theorem execValidateStatus_idle {b : BufRef} {n : Nat} (h1 : 1 ≤ n) (hn : n ≤ bufSize s.cfg b) (h : s.busy = false) :
    execValidateStatus b n s =
      .next (deliver (.flag (statusValid (bufView (beginOp s) b n) n)) (lrcRun b n (beginOp s))) := by
  rw [execValidateStatus, hostOp_idle h]
  exact (if_neg (Nat.pos_iff_ne_zero.1 h1)).trans (if_neg (Nat.not_lt.2 hn))

theorem execValidateTemp_idle {b : TempRef} (hn : 3 ≤ tempSize b) (h : s.busy = false) :
    execValidateTemp b s =
      .next (deliver (.flag (tempValid (tempView (beginOp s) b 3))) (afterTempView b 3 (beginOp s))) := by
  rw [execValidateTemp, hostOp_idle h]
  exact if_neg (Nat.not_le.2 hn)

theorem execFlush_idle (h : s.busy = false) : execFlush s = .next (deliver .nothing (flushRx (beginOp s))) :=
  hostOp_idle h _

theorem execTxWrite_idle (bs : List Byte) (h : s.busy = false) :
    execTxWrite bs s = .next (deliver .nothing (transmit bs (beginOp s))) := hostOp_idle h _

theorem execAwait_idle (n : Nat) (h : s.busy = false) :
    execAwait n s = .next (deliver (.awaited (awaitBytes n (beginOp s)).1) (awaitBytes n (beginOp s)).2) :=
  hostOp_idle h _

theorem execRead_idle {n : Nat} (hn : n ≤ s.rxq.length) (h : s.busy = false) :
    execRead n s = .next (deliver (.bytes (s.rxq.take n)) (pop n (beginOp s))) := by
  rw [execRead, hostOp_idle h]
  exact if_neg (Nat.not_lt.2 hn)

theorem execDemux_idle (hv : s.snapValid = true) (h : s.busy = false) :
    execDemux s = .next (deliver (.fields (demuxOut (beginOp s))) (beginOp s)) := by
  rw [execDemux, hostOp_idle h]
  exact if_pos hv

theorem execSnapshot_idle (hv : s.snapValid = true) (h : s.busy = false) :
    execSnapshot s = .next (deliver (.bytes (memView s.snap s.snapLen s.draws))
      (afterView .snap s.snapLen (beginOp s))) := by
  rw [execSnapshot, hostOp_idle h]
  exact if_pos hv

theorem execMuted_idle (h : s.busy = false) : execMuted s = .next (deliver (.flag s.muted) (beginOp s)) :=
  hostOp_idle h _

theorem execDecodeMode_idle (h : s.busy = false) : execDecodeMode s = .next (deliver (.flag s.decode) (beginOp s)) :=
  hostOp_idle h _

theorem execRegisterWriteFrame_idle {p : List Byte} (hp : p.length ≤ 255) (h : s.busy = false) :
    execRegisterWriteFrame p s = .next (deliver .nothing (writeFrameBody p (beginOp s))) := by
  rw [execRegisterWriteFrame, hostOp_idle h]
  exact if_pos hp

/-- The exchange of a register-write frame is that of some register write: where no operands make the frame, of one
whose offset 44_driver_ops.md R207 refuses. -/
theorem writeFrameBody_eq (p : List Byte) (s : State) : ∃ off val, writeFrameBody p s = writeBody off val s := by
  unfold writeFrameBody
  split
  · rename_i off val _
    exact ⟨off, val, rfl⟩
  · refine ⟨0, 0, ?_⟩
    rw [writeBody, writeAfterPoll]
    split <;> rfl

/-! ## Instructions that are one exchange -/

/-- POLL and GET_STATUS are one exchange (log 3). -/
theorem exec_of_poll {i : Instr} (h : i = .poll ∨ i = .getStatus) : exec i s = pollRun s := by
  rcases h with rfl | rfl <;> rfl

/-- TEMP and GET_TEMP are one exchange (log 3). -/
theorem exec_of_temp {i : Instr} (h : i = .temp ∨ i = .getTemp) : exec i s = tempRun s := by
  rcases h with rfl | rfl <;> rfl

/-- An instruction with a command opcode sends it and takes one response (44_driver_ops.md R200). -/
theorem exec_of_commandOpcode {i : Instr} {op : Byte} (h : commandOpcode s.cfg i = some op) :
    exec i s = sendRun op s := by
  cases i <;> simp only [commandOpcode, Option.some.injEq, reduceCtorEq] at h <;> first | (subst h; rfl) | skip
  case selEffectE k =>
    show execSelEffectE k s = _
    rw [execSelEffectE, effectOpcode, h]

/-- An instruction with a register write writes that register (44_driver_ops.md R205, 30_encoding.md R96). -/
theorem exec_of_registerWrite {i : Instr} {off : Nat} {val : Byte} (h : registerWrite s.cfg i = some (off, val)) :
    exec i s = writeRun off val s := by
  cases i <;> simp only [registerWrite, reduceCtorEq] at h
  case writeRegister o v =>
    simp only [Option.some.injEq, Prod.mk.injEq] at h
    obtain ⟨rfl, rfl⟩ := h
    rfl
  all_goals
    rename_i use
    cases use <;> simp only [Option.some.injEq, Prod.mk.injEq, reduceCtorEq] at h
    obtain ⟨rfl, rfl⟩ := h
    rfl

/-- An instruction with a field read reads that field (44_driver_ops.md R210, 30_encoding.md R96). -/
theorem exec_of_fieldRead {i : Instr} {f : Field} (h : fieldRead i = some f) : exec i s = readRun f s := by
  cases i <;> simp only [fieldRead, reduceCtorEq] at h
  case readField g =>
    cases h
    rfl
  all_goals
    rename_i use
    cases use <;> cases h
    rfl

/-- An instruction with an input selection sends that selection (44_driver_ops.md R218, R219). -/
theorem exec_of_inputSelection {i : Instr} {inp : Input} {e : Effect} (h : inputSelection i = some (inp, e)) :
    exec i s = selectRun inp e s := by
  cases i <;> simp only [inputSelection, Option.some.injEq, Prod.mk.injEq, reduceCtorEq] at h
  case selectInput j =>
    obtain ⟨rfl, rfl⟩ := h
    cases j <;> rfl
  all_goals
    obtain ⟨rfl, rfl⟩ := h
    rfl

/-- An inbound message is the arrival of its bytes (41_transport.md R136). -/
theorem exec_of_inboundBytes {i : Instr} {bs : List Byte} (h : inboundBytes i = some bs) :
    exec i s = .next (arriveAll bs s) := by
  cases i <;> simp only [inboundBytes, Option.some.injEq, reduceCtorEq, Option.ite_none_right_eq_some] at h
  case statusFrame p =>
    obtain ⟨hp, rfl⟩ := h
    exact if_pos hp
  all_goals
    subst h
    rfl

/-! ## Where a next state comes from -/

theorem pollRun_next {t : State} (h : pollRun s = .next t) :
    s.busy = false ∧ t = deliver (.flag (pollBody (beginOp s)).1) (pollBody (beginOp s)).2 := by
  rw [pollRun] at h
  obtain ⟨hb, h⟩ := hostOp_next h
  cases h
  exact ⟨hb, rfl⟩

theorem tempRun_next {t : State} (h : tempRun s = .next t) :
    s.busy = false ∧ t = deliver (.byte (tempBody (beginOp s)).1) (tempBody (beginOp s)).2 := by
  rw [tempRun] at h
  obtain ⟨hb, h⟩ := hostOp_next h
  cases h
  exact ⟨hb, rfl⟩

theorem sendRun_next {op : Byte} {t : State} (h : sendRun op s = .next t) :
    s.busy = false ∧ t = deliver (.byte (sendBody op (beginOp s)).1) (sendBody op (beginOp s)).2 := by
  rw [sendRun] at h
  obtain ⟨hb, h⟩ := hostOp_next h
  cases h
  exact ⟨hb, rfl⟩

theorem writeRun_next {off : Nat} {val : Byte} {t : State} (h : writeRun off val s = .next t) :
    s.busy = false ∧ t = deliver .nothing (writeBody off val (beginOp s)) := by
  rw [writeRun] at h
  obtain ⟨hb, h⟩ := hostOp_next h
  cases h
  exact ⟨hb, rfl⟩

theorem readRun_next {f : Field} {t : State} (h : readRun f s = .next t) :
    s.busy = false ∧ t = deliver (.number (readBody f (beginOp s)).1) (readBody f (beginOp s)).2 := by
  rw [readRun] at h
  obtain ⟨hb, h⟩ := hostOp_next h
  cases h
  exact ⟨hb, rfl⟩

theorem execRegisterWriteFrame_next {p : List Byte} {t : State} (h : execRegisterWriteFrame p s = .next t) :
    s.busy = false ∧ t = deliver .nothing (writeFrameBody p (beginOp s)) := by
  rw [execRegisterWriteFrame] at h
  obtain ⟨hb, h⟩ := hostOp_next h
  split at h <;> cases h
  exact ⟨hb, rfl⟩

theorem execLrc_next {b : BufRef} {n : Nat} {t : State} (h : execLrc b n s = .next t) :
    s.busy = false ∧ t = deliver (.byte (lrcSum (bufView (beginOp s) b n) n)) (lrcRun b n (beginOp s)) := by
  rw [execLrc] at h
  obtain ⟨hb, h⟩ := hostOp_next h
  split at h <;> cases h
  exact ⟨hb, rfl⟩

theorem execLrcCheck_next {b : BufRef} {n : Nat} {t : State} (h : execLrcCheck b n s = .next t) :
    s.busy = false ∧ t = deliver (.flag (lrcHolds (bufView (beginOp s) b n) n)) (lrcRun b n (beginOp s)) := by
  rw [execLrcCheck] at h
  obtain ⟨hb, h⟩ := hostOp_next h
  split at h
  · cases h
  · split at h <;> cases h
    exact ⟨hb, rfl⟩

theorem execValidateStatus_next {b : BufRef} {n : Nat} {t : State} (h : execValidateStatus b n s = .next t) :
    s.busy = false ∧ t = deliver (.flag (statusValid (bufView (beginOp s) b n) n)) (lrcRun b n (beginOp s)) := by
  rw [execValidateStatus] at h
  obtain ⟨hb, h⟩ := hostOp_next h
  split at h
  · cases h
  · split at h <;> cases h
    exact ⟨hb, rfl⟩

theorem execValidateTemp_next {b : TempRef} {t : State} (h : execValidateTemp b s = .next t) :
    s.busy = false ∧ t = deliver (.flag (tempValid (tempView (beginOp s) b (tempModelOff + 1))))
      (afterTempView b (tempModelOff + 1) (beginOp s)) := by
  rw [execValidateTemp] at h
  obtain ⟨hb, h⟩ := hostOp_next h
  split at h <;> cases h
  exact ⟨hb, rfl⟩

theorem execLrcStore_next {b : BufRef} {n : Nat} {t : State} (h : execLrcStore b n s = .next t) :
    s.busy = false ∧ 1 ≤ n ∧ n ≤ bufSize s.cfg b ∧
      t = deliver (storeResult b n (lrcSum (bufView (beginOp s) b n) n)) (lrcStoreRun b n (beginOp s)) := by
  rw [execLrcStore] at h
  obtain ⟨hb, h⟩ := hostOp_next h
  split at h
  · cases h
  · split at h <;> cases h
    exact ⟨hb, by omega, Nat.not_lt.1 ‹_›, rfl⟩

theorem execFlush_next {t : State} (h : execFlush s = .next t) :
    s.busy = false ∧ t = deliver .nothing (flushRx (beginOp s)) := by
  rw [execFlush] at h
  obtain ⟨hb, h⟩ := hostOp_next h
  cases h
  exact ⟨hb, rfl⟩

theorem execTxWrite_next {bs : List Byte} {t : State} (h : execTxWrite bs s = .next t) :
    s.busy = false ∧ t = deliver .nothing (transmit bs (beginOp s)) := by
  rw [execTxWrite] at h
  obtain ⟨hb, h⟩ := hostOp_next h
  cases h
  exact ⟨hb, rfl⟩

theorem execAwait_next {n : Nat} {t : State} (h : execAwait n s = .next t) :
    s.busy = false ∧ t = deliver (.awaited (awaitBytes n (beginOp s)).1) (awaitBytes n (beginOp s)).2 := by
  rw [execAwait] at h
  obtain ⟨hb, h⟩ := hostOp_next h
  cases h
  exact ⟨hb, rfl⟩

theorem execRead_next {n : Nat} {t : State} (h : execRead n s = .next t) :
    s.busy = false ∧ t = deliver (.bytes (s.rxq.take n)) (pop n (beginOp s)) := by
  rw [execRead] at h
  obtain ⟨hb, h⟩ := hostOp_next h
  split at h <;> cases h
  exact ⟨hb, rfl⟩

theorem execDemux_next {t : State} (h : execDemux s = .next t) :
    s.busy = false ∧ t = deliver (.fields (demuxOut (beginOp s))) (beginOp s) := by
  rw [execDemux] at h
  obtain ⟨hb, h⟩ := hostOp_next h
  split at h <;> cases h
  exact ⟨hb, rfl⟩

theorem execMuted_next {t : State} (h : execMuted s = .next t) :
    s.busy = false ∧ t = deliver (.flag s.muted) (beginOp s) := by
  rw [execMuted] at h
  obtain ⟨hb, h⟩ := hostOp_next h
  cases h
  exact ⟨hb, rfl⟩

theorem execDecodeMode_next {t : State} (h : execDecodeMode s = .next t) :
    s.busy = false ∧ t = deliver (.flag s.decode) (beginOp s) := by
  rw [execDecodeMode] at h
  obtain ⟨hb, h⟩ := hostOp_next h
  cases h
  exact ⟨hb, rfl⟩

theorem execSnapshot_next {t : State} (h : execSnapshot s = .next t) :
    s.busy = false ∧ t = deliver (.bytes (bufView (beginOp s) .snap s.snapLen)) (afterView .snap s.snapLen (beginOp s)) := by
  rw [execSnapshot] at h
  obtain ⟨hb, h⟩ := hostOp_next h
  split at h <;> cases h
  exact ⟨hb, rfl⟩

/-! ## Everything an instruction can do -/

/-- An instruction that makes no request of the amplifier: no poll, no probe, no command. -/
structure NoRequest (c : Config) (i : Instr) : Prop where
  noPoll : polls i = false
  noProbe : i ≠ .temp ∧ i ≠ .getTemp
  noCommand : commandOpcode c i = none

/-- The next states an instruction can answer. -/
inductive RunsTo (s : State) : Instr → State → Prop where
  | poll {i : Instr} : i = .poll ∨ i = .getStatus → s.busy = false →
      RunsTo s i (deliver (.flag (pollBody (beginOp s)).1) (pollBody (beginOp s)).2)
  | temp {i : Instr} : i = .temp ∨ i = .getTemp → s.busy = false →
      RunsTo s i (deliver (.byte (tempBody (beginOp s)).1) (tempBody (beginOp s)).2)
  | command {i : Instr} {op : Byte} : commandOpcode s.cfg i = some op → s.busy = false →
      RunsTo s i (deliver (.byte (sendBody op (beginOp s)).1) (sendBody op (beginOp s)).2)
  | write {i : Instr} (off : Nat) (val : Byte) :
      registerWrite s.cfg i = some (off, val) ∨ (∃ p, i = .registerWriteFrame p) → s.busy = false →
      RunsTo s i (deliver .nothing (writeBody off val (beginOp s)))
  | field {i : Instr} (f : Field) : fieldRead i = some f → s.busy = false →
      RunsTo s i (deliver (.number (readBody f (beginOp s)).1) (readBody f (beginOp s)).2)
  | sendThenFlush {i : Instr} (bs : List Byte) : NoRequest s.cfg i → s.busy = false →
      RunsTo s i (deliver .nothing (flushRx (transmit bs (beginOp s))))
  | lrc {i : Instr} (r : OpResult) (b : BufRef) (n : Nat) : NoRequest s.cfg i → s.busy = false →
      RunsTo s i (deliver r (lrcRun b n (beginOp s)))
  | lrcStore (r : OpResult) (b : BufRef) (n : Nat) : 1 ≤ n → n ≤ bufSize s.cfg b → s.busy = false →
      RunsTo s (.lrcStore b n) (deliver r (lrcStoreRun b n (beginOp s)))
  | view {i : Instr} (r : OpResult) (b : BufRef) (n : Nat) : NoRequest s.cfg i → s.busy = false →
      RunsTo s i (deliver r (afterView b n (beginOp s)))
  | tempView {i : Instr} (r : OpResult) (b : TempRef) (n : Nat) : NoRequest s.cfg i → s.busy = false →
      RunsTo s i (deliver r (afterTempView b n (beginOp s)))
  | flush : s.busy = false → RunsTo s .flush (deliver .nothing (flushRx (beginOp s)))
  | send (bs : List Byte) : s.busy = false → RunsTo s (.txWrite bs) (deliver .nothing (transmit bs (beginOp s)))
  | await (n : Nat) : s.busy = false →
      RunsTo s (.await n) (deliver (.awaited (awaitBytes n (beginOp s)).1) (awaitBytes n (beginOp s)).2)
  | read (n : Nat) : s.busy = false → RunsTo s (.read n) (deliver (.bytes (s.rxq.take n)) (pop n (beginOp s)))
  | report {i : Instr} (r : OpResult) : NoRequest s.cfg i → s.busy = false →
      RunsTo s i (deliver r (beginOp s))
  | arrival {i : Instr} (bs : List Byte) : isLineEvent i = true → RunsTo s i (arriveAll bs s)
  | departure {i : Instr} (bs : List Byte) : isLineEvent i = true → RunsTo s i (tx bs s)

/-- Register writes and their frames poll. -/
theorem polls_of_write {c : Config} {i : Instr} {w : Nat × Byte}
    (h : registerWrite c i = some w ∨ ∃ p, i = .registerWriteFrame p) : polls i = true := by
  rcases h with h | ⟨p, rfl⟩
  · cases i <;> first | rfl | simp [registerWrite] at h
  · rfl

/-- Field reads poll. -/
theorem polls_of_field {i : Instr} {f : Field} (h : fieldRead i = some f) : polls i = true := by
  cases i <;> first | rfl | simp [fieldRead] at h

/-- The polling instructions are no commands. -/
theorem commandOpcode_of_polls {c : Config} {i : Instr} (h : polls i = true) : commandOpcode c i = none := by
  cases i <;> first | rfl | simp [polls] at h

/-- The events of the line request nothing. -/
theorem noRequest_of_lineEvent {c : Config} {i : Instr} (h : isLineEvent i = true) : NoRequest c i := by
  cases i <;> first | (simp [isLineEvent] at h; done) | exact ⟨rfl, ⟨by simp, by simp⟩, rfl⟩

/-- Every next state of an instruction is one of those. -/
theorem exec_runsTo {i : Instr} {t : State} (h : exec i s = .next t) : RunsTo s i t := by
  have hvol : ∀ (ch : VolChannel) (use : VolUse), (use = .read → fieldRead i = some (.vol ch)) →
      (∀ v, use = .write v → registerWrite s.cfg i = some (volOffset s.cfg ch, v)) → volumeRun ch use s = .next t →
      RunsTo s i t := by
    intro ch use hr hw h
    cases use with
    | read =>
      obtain ⟨hb, rfl⟩ := readRun_next (s := s) (f := .vol ch) h
      exact .field _ (hr rfl) hb
    | write v =>
      obtain ⟨hb, rfl⟩ := writeRun_next (s := s) (off := volOffset s.cfg ch) (val := v) h
      exact .write _ _ (.inl (hw v rfl)) hb
  have hsel : ∀ (inp : Input) (e : Effect), NoRequest s.cfg i → selectRun inp e s = .next t → RunsTo s i t := by
    intro inp e hc h
    rw [selectRun] at h
    obtain ⟨hb, h⟩ := hostOp_next h
    cases he : effectOpcode (beginOp s).cfg e with
    | none => simp only [he, reduceCtorEq] at h
    | some op =>
      simp only [he, Host.Outcome.next.injEq] at h
      subst h
      exact .sendThenFlush _ hc hb
  cases hc : commandOpcode s.cfg i with
  | some op =>
    rw [exec_of_commandOpcode hc] at h
    obtain ⟨hb, rfl⟩ := sendRun_next h
    exact .command hc hb
  | none =>
    cases i <;> simp only [commandOpcode, reduceCtorEq] at hc
    case getStatus =>
      obtain ⟨hb, rfl⟩ := pollRun_next (s := s) h
      exact .poll (by simp) hb
    case poll =>
      obtain ⟨hb, rfl⟩ := pollRun_next (s := s) h
      exact .poll (by simp) hb
    case getTemp =>
      obtain ⟨hb, rfl⟩ := tempRun_next (s := s) h
      exact .temp (by simp) hb
    case temp =>
      obtain ⟨hb, rfl⟩ := tempRun_next (s := s) h
      exact .temp (by simp) hb
    case selEffectE k =>
      change execSelEffectE k s = _ at h
      rw [execSelEffectE, effectOpcode, hc] at h
      cases h
    case inputSelectSequence inp e => exact hsel inp e ⟨rfl, ⟨nofun, nofun⟩, rfl⟩ h
    case selectInput inp => exact hsel inp _ ⟨rfl, ⟨nofun, nofun⟩, rfl⟩ h
    case selectInputEffect inp e => exact hsel inp e ⟨rfl, ⟨nofun, nofun⟩, rfl⟩ h
    case volMain use => exact hvol .main use (by rintro rfl; rfl) (by rintro v rfl; rfl) h
    case volRear use => exact hvol .rear use (by rintro rfl; rfl) (by rintro v rfl; rfl) h
    case volCenter use => exact hvol .center use (by rintro rfl; rfl) (by rintro v rfl; rfl) h
    case volSub use => exact hvol .sub use (by rintro rfl; rfl) (by rintro v rfl; rfl) h
    case writeRegister off val =>
      obtain ⟨hb, rfl⟩ := writeRun_next (s := s) (off := off) (val := val) h
      exact .write _ _ (.inl rfl) hb
    case readField f =>
      obtain ⟨hb, rfl⟩ := readRun_next (s := s) (f := f) h
      exact .field _ rfl hb
    case statusFrame p =>
      change execStatusFrame p s = _ at h
      rw [execStatusFrame] at h
      split at h <;> cases h
      exact .arrival _ rfl
    case temperatureFrame f =>
      exact Host.Outcome.next.inj h ▸ .arrival _ rfl
    case responseByte v =>
      exact Host.Outcome.next.inj h ▸ .arrival _ rfl
    case uartCharacter dir d parity stop =>
      change execUartCharacter dir d parity stop s = _ at h
      cases dir with
      | inbound =>
        simp only [execUartCharacter] at h
        split at h <;> cases h
        · exact .arrival [d] rfl
        · exact .arrival [] rfl
      | outbound =>
        simp only [execUartCharacter] at h
        split at h <;> cases h
        exact .departure _ rfl
    case registerWriteFrame p =>
      obtain ⟨hb, rfl⟩ := execRegisterWriteFrame_next (s := s) (p := p) h
      obtain ⟨off, val, e⟩ := writeFrameBody_eq p (beginOp s)
      rw [e]
      exact .write off val (.inr ⟨p, rfl⟩) hb
    case lrc b n =>
      obtain ⟨hb, rfl⟩ := execLrc_next (s := s) (b := b) (n := n) h
      exact .lrc _ _ _ ⟨rfl, ⟨nofun, nofun⟩, rfl⟩ hb
    case lrcStore b n =>
      obtain ⟨hb, h1, h2, rfl⟩ := execLrcStore_next (s := s) (b := b) (n := n) h
      exact .lrcStore _ _ _ h1 h2 hb
    case lrcCheck b n =>
      obtain ⟨hb, rfl⟩ := execLrcCheck_next (s := s) (b := b) (n := n) h
      exact .lrc _ _ _ ⟨rfl, ⟨nofun, nofun⟩, rfl⟩ hb
    case flush =>
      obtain ⟨hb, rfl⟩ := execFlush_next (s := s) h
      exact .flush hb
    case txWrite bs =>
      obtain ⟨hb, rfl⟩ := execTxWrite_next (s := s) (bs := bs) h
      exact .send _ hb
    case await n =>
      obtain ⟨hb, rfl⟩ := execAwait_next (s := s) (n := n) h
      exact .await _ hb
    case read n =>
      obtain ⟨hb, rfl⟩ := execRead_next (s := s) (n := n) h
      exact .read _ hb
    case validateStatus b n =>
      obtain ⟨hb, rfl⟩ := execValidateStatus_next (s := s) (b := b) (n := n) h
      exact .lrc _ _ _ ⟨rfl, ⟨nofun, nofun⟩, rfl⟩ hb
    case validateTemp b =>
      obtain ⟨hb, rfl⟩ := execValidateTemp_next (s := s) (b := b) h
      exact .tempView _ _ _ ⟨rfl, ⟨nofun, nofun⟩, rfl⟩ hb
    case demux =>
      obtain ⟨hb, rfl⟩ := execDemux_next (s := s) h
      exact .report _ ⟨rfl, ⟨nofun, nofun⟩, rfl⟩ hb
    case muted =>
      obtain ⟨hb, rfl⟩ := execMuted_next (s := s) h
      exact .report _ ⟨rfl, ⟨nofun, nofun⟩, rfl⟩ hb
    case decodeMode =>
      obtain ⟨hb, rfl⟩ := execDecodeMode_next (s := s) h
      exact .report _ ⟨rfl, ⟨nofun, nofun⟩, rfl⟩ hb
    case snapshot =>
      obtain ⟨hb, rfl⟩ := execSnapshot_next (s := s) h
      exact .view _ _ _ ⟨rfl, ⟨nofun, nofun⟩, rfl⟩ hb
    case currentEffect =>
      change execCurrentEffect s = _ at h
      rw [execCurrentEffect] at h
      obtain ⟨hb, h⟩ := hostOp_next h
      cases h

/-- Every next state of a step: the idle block's, or that of the decoded instruction. -/
theorem step_next {t : State} (h : step s = .next t) :
    (s.port = [] ∧ t = idle s) ∨
    ∃ m rest i, s.port = m :: rest ∧ decode s.cfg m = .ok i ∧ RunsTo { s with port := rest } i t := by
  unfold step at h
  split at h
  · rename_i hp
    exact .inl ⟨hp, (Host.Outcome.next.inj h).symm⟩
  · rename_i m rest hp
    right
    split at h
    · rename_i i hd
      exact ⟨m, rest, i, hp, hd, exec_runsTo h⟩
    · cases h

end Sys2Proof.Machine
end

