-- ==== Sys2Proof/Laws/Memory.lean ====
section
/-! SUPPORT. The laws of the byte buffers: read after write, what a write leaves alone, and that every operation keeps
the canonical form. -/

namespace Sys2Proof.Machine

/-- Reading after one write. -/
@[simp] theorem memRead_memWrite (m : Memory) (a b : Nat) (v : Byte) :
    memRead (memWrite m a v) b = if b = a then some v else memRead m b := by
  induction m with
  | nil => simp [memWrite, memRead, eq_comm]
  | cons c rest ih =>
    obtain ⟨k, w⟩ := c
    unfold memWrite
    split
    · simp only [memRead]
      by_cases h : a = b
      · simp [h]
      · simp [h, Ne.symm h]
    · split
      · rename_i h1 h2
        subst h2
        by_cases h : a = b
        · simp [memRead, h]
        · simp [memRead, h, Ne.symm h]
      · rename_i h1 h2
        simp only [memRead]
        by_cases h : k = b
        · subst h
          simp [Ne.symm h2]
        · simp [h, ih]

/-- Reading after consecutive writes. -/
theorem memRead_memStore (m : Memory) (a b : Nat) (bs : List Byte) :
    memRead (memStore m a bs) b = if a ≤ b ∧ b < a + bs.length then bs[b - a]? else memRead m b := by
  induction bs generalizing m a with
  | nil =>
    have h : ¬ (a ≤ b ∧ b < a + ([] : List Byte).length) := by simp
    rw [if_neg h]
    rfl
  | cons x xs ih =>
    rw [memStore, ih, memRead_memWrite]
    by_cases hab : b = a
    · subst hab
      have h1 : ¬ (b + 1 ≤ b ∧ b < b + 1 + xs.length) := by omega
      have h2 : b ≤ b ∧ b < b + (x :: xs).length := by simp
      rw [if_neg h1, if_pos h2]
      simp
    · by_cases h : a + 1 ≤ b ∧ b < a + 1 + xs.length
      · have h2 : a ≤ b ∧ b < a + (x :: xs).length := by
          simp only [List.length_cons]
          omega
        rw [if_pos h, if_pos h2]
        have e : b - a = b - (a + 1) + 1 := by omega
        rw [e]
        simp
      · have h2 : ¬ (a ≤ b ∧ b < a + (x :: xs).length) := by
          simp only [List.length_cons]
          omega
        rw [if_neg h, if_neg h2, if_neg hab]

/-- Reading what lies below an address. -/
theorem memRead_memBelow (m : Memory) (n a : Nat) :
    memRead (memBelow m n) a = if a < n then memRead m a else none := by
  induction m with
  | nil => simp [memBelow, memRead]
  | cons c rest ih =>
    obtain ⟨k, w⟩ := c
    unfold memBelow at ih ⊢
    by_cases hk : k < n
    · simp only [List.filter_cons, hk, decide_true, if_true, memRead]
      by_cases h : k = a
      · subst h
        simp [hk]
      · simp [h, ih]
    · simp only [List.filter_cons, hk, decide_false, memRead]
      simp only [Bool.false_eq_true, if_false, ih]
      by_cases h : k = a
      · subst h
        simp [hk]
      · simp [h]

/-- The canonical form says that the addresses rise strictly. -/
theorem memWf_iff_pairwise (m : Memory) : Memory.wf m = true ↔ m.Pairwise (fun x y => x.1 < y.1) := by
  induction m with
  | nil => simp [Memory.wf]
  | cons x rest ih =>
    cases rest with
    | nil => simp [Memory.wf]
    | cons y ys =>
      simp only [Memory.wf, Bool.and_eq_true, decide_eq_true_eq, ih]
      constructor
      · rintro ⟨hxy, hp⟩
        refine List.pairwise_cons.2 ⟨?_, hp⟩
        intro z hz
        rcases List.mem_cons.1 hz with rfl | hz
        · exact hxy
        · exact Nat.lt_trans hxy ((List.pairwise_cons.1 hp).1 z hz)
      · intro h
        have h' := List.pairwise_cons.1 h
        exact ⟨h'.1 y (by simp), h'.2⟩

/-- Every address of a memory after a write is the written one or was there before. -/
theorem mem_memWrite {m : Memory} {a : Nat} {v : Byte} {c : Host.Cell} (h : c ∈ memWrite m a v) :
    c = (a, v) ∨ c ∈ m := by
  induction m with
  | nil => simpa [memWrite] using h
  | cons x rest ih =>
    obtain ⟨k, w⟩ := x
    unfold memWrite at h
    split at h
    · rcases List.mem_cons.1 h with h | h
      · exact .inl h
      · exact .inr h
    · split at h
      · rcases List.mem_cons.1 h with h | h
        · exact .inl h
        · exact .inr (List.mem_cons_of_mem _ h)
      · rcases List.mem_cons.1 h with h | h
        · exact .inr (by simp [h])
        · rcases ih h with h | h
          · exact .inl h
          · exact .inr (List.mem_cons_of_mem _ h)

/-- A write keeps the canonical form. -/
theorem memWrite_wf {m : Memory} (h : Memory.wf m = true) (a : Nat) (v : Byte) : Memory.wf (memWrite m a v) = true := by
  rw [memWf_iff_pairwise] at h ⊢
  induction m with
  | nil => simp [memWrite]
  | cons x rest ih =>
    obtain ⟨k, w⟩ := x
    have hx := List.pairwise_cons.1 h
    unfold memWrite
    split
    · rename_i hak
      refine List.pairwise_cons.2 ⟨?_, h⟩
      intro z hz
      rcases List.mem_cons.1 hz with rfl | hz
      · exact hak
      · exact Nat.lt_trans hak (hx.1 z hz)
    · split
      · rename_i h1 h2
        subst h2
        exact List.pairwise_cons.2 ⟨hx.1, hx.2⟩
      · rename_i h1 h2
        refine List.pairwise_cons.2 ⟨?_, ih hx.2⟩
        intro z hz
        rcases mem_memWrite hz with rfl | hz
        · show k < a
          omega
        · exact hx.1 z hz

/-- Consecutive writes keep the canonical form. -/
theorem memStore_wf {m : Memory} (h : Memory.wf m = true) (a : Nat) (bs : List Byte) :
    Memory.wf (memStore m a bs) = true := by
  induction bs generalizing m a with
  | nil => exact h
  | cons b bs ih => exact ih (memWrite_wf h a b) (a + 1)

/-- Cutting a memory below an address keeps the canonical form. -/
theorem memBelow_wf {m : Memory} (h : Memory.wf m = true) (n : Nat) : Memory.wf (memBelow m n) = true := by
  rw [memWf_iff_pairwise] at h ⊢
  exact h.filter _

/-- A view has as many bytes as were asked. -/
@[simp] theorem memView_length (m : Memory) (n seed : Nat) : (memView m n seed).length = n := by simp [memView]

/-- One byte of a view. -/
theorem memView_getElem? (m : Memory) (n seed i : Nat) :
    (memView m n seed)[i]? = if i < n then some ((memRead m i).getD (Config.freeByte (seed + i))) else none := by
  unfold memView
  by_cases h : i < n
  · simp [h]
  · simp [h]

/-- A view of places that all hold a value is the sequence of those values. -/
theorem memView_eq {m : Memory} {n seed : Nat} {bs : List Byte} (hl : bs.length = n)
    (h : ∀ i, i < n → memRead m i = bs[i]?) : memView m n seed = bs := by
  apply List.ext_getElem?
  intro i
  rw [memView_getElem?]
  by_cases hi : i < n
  · rw [if_pos hi, h i hi, List.getElem?_eq_getElem (by omega)]
    rfl
  · rw [if_neg hi, List.getElem?_eq_none (by omega)]

/-- A view of places that all hold a value uses up no free value. -/
theorem memDraws_eq_zero {m : Memory} {n : Nat} (h : ∀ i, i < n → (memRead m i).isSome = true) : memDraws m n = 0 := by
  unfold memDraws
  rw [if_pos]
  simp only [List.all_eq_true, List.mem_range]
  exact h

end Sys2Proof.Machine
end

