-- ==== Sys2Proof/Laws/Buffers.lean ====
section
/-! SUPPORT. Buffer references: what a view holds where the buffer holds values, and what a write of one byte leaves
alone. -/

namespace Sys2Proof.Machine

open Sys2Proof.Safety

/-- A buffer reads as itself. -/
@[simp] theorem sameBytes_refl (m : Memory) : SameBytes m m := fun _ => rfl

/-- A view shows the byte a buffer holds (00_scope.md R15). -/
theorem bufView_held {s : State} {b : BufRef} {n i : Nat} {v : Byte} (hi : i < n) (h : heldByte s b i = some v) :
    (bufView s b n)[i]? = some v := by
  cases b with
  | given bs => exact (List.getElem?_take.trans (if_pos hi)).trans h
  | snap => rw [bufView, memView_getElem?, if_pos hi, show memRead s.snap i = some v from h]; rfl
  | stage => rw [bufView, memView_getElem?, if_pos hi, show memRead s.stage i = some v from h]; rfl

/-- The same of VALIDATE_TEMP's operand. -/
theorem tempView_held {s : State} {b : TempRef} {n i : Nat} {v : Byte} (hi : i < n) (h : heldTemp s b i = some v) :
    (tempView s b n)[i]? = some v := by
  cases b with
  | given bs => exact (List.getElem?_take.trans (if_pos hi)).trans h
  | tmp => rw [tempView, memView_getElem?, if_pos hi, show memRead s.tmp i = some v from h]; rfl

/-- Viewing places that all hold a value uses up no free value. -/
theorem bufDraws_held {s : State} {b : BufRef} {n : Nat} (h : ∀ i, i < n → (heldByte s b i).isSome = true) :
    bufDraws s b n = 0 := by
  cases b with
  | given bs => rfl
  | snap => exact memDraws_eq_zero h
  | stage => exact memDraws_eq_zero h

/-- The LRC of a buffer is the closed form of what it holds at 1 to n−2 (40_lrc.md R120). -/
theorem lrcSum_held {s : State} {b : BufRef} {n : Nat} {f : Nat → Byte} (h : HeldOn s b 1 (n - 2) f) :
    (lrcSum (bufView s b n) n).toNat = lrcClosedForm n f :=
  lrcSum_closed fun i h1 h2 => bufView_held (by omega) (h i h1 h2)

/-- The check of a buffer (40_lrc.md R122). -/
theorem lrcHolds_held {s : State} {b : BufRef} {n : Nat} {f : Nat → Byte} (hn : 1 ≤ n)
    (h : HeldOn s b 1 (n - 2) f) (hl : heldByte s b (n - 1) = some (f (n - 1))) :
    lrcHolds (bufView s b n) n = decide ((f (n - 1)).toNat = lrcClosedForm n f) := by
  rw [lrcHolds, byteAt_eq (bufView_held (by omega) hl), ← lrcSum_held h]
  simp only [← BitVec.toNat_inj, beq_eq_decide]

/-- What `inSnapshot` decides. -/
theorem inSnapshot_eq (s : State) (i : Nat) : inSnapshot s i = decide (s.snapValid = true ∧ i < s.snapLen) := by
  cases h : s.snapValid <;> simp [inSnapshot, h]

/-- Where a one-byte write puts its byte: at the one index, where that can hold a value. -/
theorem heldByte_bufWrite (s : State) (b : BufRef) (i : Nat) (v : Byte) (a : Nat) :
    (Storable s b i → heldByte (bufWrite b i v s) b a = if a = i then some v else heldByte s b a) ∧
    (¬Storable s b i → heldByte (bufWrite b i v s) b a = heldByte s b a) := by
  cases b with
  | given bs => exact ⟨False.elim, fun _ => rfl⟩
  | stage => exact ⟨fun _ => memRead_memWrite s.stage i a v, fun h => absurd trivial h⟩
  | snap =>
    have e : heldByte (bufWrite .snap i v s) .snap a =
        memRead (if inSnapshot s i then memWrite s.snap i v else s.snap) a := rfl
    rw [e]
    refine ⟨fun h => ?_, fun h => ?_⟩
    · have hd : inSnapshot s i = true := by rw [inSnapshot_eq]; simpa [Storable] using h
      rw [hd, if_pos rfl]
      exact memRead_memWrite s.snap i a v
    · have hd : inSnapshot s i = false := by rw [inSnapshot_eq]; simpa [Storable] using h
      rw [hd]
      rfl

/-- Everything LRC_STORE does to a buffer of the block (40_lrc.md R121). -/
theorem heldByte_lrcStoreRun (s : State) (b : BufRef) (n a : Nat) :
    (Storable s b (n - 1) → heldByte (lrcStoreRun b n s) b a =
      if a = n - 1 then some (lrcSum (bufView s b n) n) else heldByte s b a) ∧
    (¬Storable s b (n - 1) → heldByte (lrcStoreRun b n s) b a = heldByte s b a) := by
  have h := heldByte_bufWrite (lrcRun b n s) b (n - 1) (lrcSum (bufView s b n) n) a
  have e : heldByte (lrcRun b n s) b a = heldByte s b a := by cases b <;> rfl
  have e2 : Storable (lrcRun b n s) b (n - 1) = Storable s b (n - 1) := by cases b <;> rfl
  rw [e, e2] at h
  exact h

/-- LRC_STORE on the snapshot puts one byte into the frame held, or writes nothing of it (10_state.md R23). -/
theorem lrcStoreRun_snap (n : Nat) (s : State) :
    ∃ sum, (lrcStoreRun .snap n s).snap = if inSnapshot s (n - 1) then memWrite s.snap (n - 1) sum else s.snap :=
  ⟨_, rfl⟩

@[simp] theorem storable_beginOp (s : State) (b : BufRef) (i : Nat) : Storable (beginOp s) b i = Storable s b i := by
  cases b <;> rfl

@[simp] theorem heldTemp_beginOp (s : State) (b : TempRef) (i : Nat) : heldTemp (beginOp s) b i = heldTemp s b i := by
  cases b <;> rfl

@[simp] theorem heldByte_beginOp (s : State) (b : BufRef) (i : Nat) : heldByte (beginOp s) b i = heldByte s b i := by
  cases b <;> rfl

@[simp] theorem heldByte_deliver (r : OpResult) (s : State) (b : BufRef) (i : Nat) :
    heldByte (deliver r s) b i = heldByte s b i := by
  cases b <;> rfl

end Sys2Proof.Machine
end

