-- ==== Sys2Proof/Laws/Frames.lean ====
section
/-! SUPPORT. Which fields the environment's moves, the transport and the wait leave alone: one lemma per field per
operation, each unfolding its operation once. -/

namespace Sys2Proof.Machine

@[simp] theorem arrive_acc (b : Byte) (s : State) : (arrive b s).acc = s.acc := by unfold arrive; split <;> rfl
@[simp] theorem arrive_snap (b : Byte) (s : State) : (arrive b s).snap = s.snap := by unfold arrive; split <;> rfl
@[simp] theorem arrive_snapLen (b : Byte) (s : State) : (arrive b s).snapLen = s.snapLen := by unfold arrive; split <;> rfl
@[simp] theorem arrive_snapValid (b : Byte) (s : State) : (arrive b s).snapValid = s.snapValid := by unfold arrive; split <;> rfl
@[simp] theorem arrive_stage (b : Byte) (s : State) : (arrive b s).stage = s.stage := by unfold arrive; split <;> rfl
@[simp] theorem arrive_stageLen (b : Byte) (s : State) : (arrive b s).stageLen = s.stageLen := by unfold arrive; split <;> rfl
@[simp] theorem arrive_tmp (b : Byte) (s : State) : (arrive b s).tmp = s.tmp := by unfold arrive; split <;> rfl
@[simp] theorem arrive_txs (b : Byte) (s : State) : (arrive b s).txs = s.txs := by unfold arrive; split <;> rfl
@[simp] theorem arrive_seq (b : Byte) (s : State) : (arrive b s).seq = s.seq := by unfold arrive; split <;> rfl
@[simp] theorem arrive_t0 (b : Byte) (s : State) : (arrive b s).t0 = s.t0 := by unfold arrive; split <;> rfl
@[simp] theorem arrive_now (b : Byte) (s : State) : (arrive b s).now = s.now := by unfold arrive; split <;> rfl
@[simp] theorem arrive_muted (b : Byte) (s : State) : (arrive b s).muted = s.muted := by unfold arrive; split <;> rfl
@[simp] theorem arrive_decode (b : Byte) (s : State) : (arrive b s).decode = s.decode := by unfold arrive; split <;> rfl
@[simp] theorem arrive_busy (b : Byte) (s : State) : (arrive b s).busy = s.busy := by unfold arrive; split <;> rfl
@[simp] theorem arrive_cfg (b : Byte) (s : State) : (arrive b s).cfg = s.cfg := by unfold arrive; split <;> rfl
@[simp] theorem arrive_cause (b : Byte) (s : State) : (arrive b s).cause = s.cause := by unfold arrive; split <;> rfl
@[simp] theorem arrive_result (b : Byte) (s : State) : (arrive b s).result = s.result := by unfold arrive; split <;> rfl
@[simp] theorem arrive_port (b : Byte) (s : State) : (arrive b s).port = s.port := by unfold arrive; split <;> rfl
@[simp] theorem arrive_env (b : Byte) (s : State) : (arrive b s).env = s.env := by unfold arrive; split <;> rfl
@[simp] theorem arrive_draws (b : Byte) (s : State) : (arrive b s).draws = s.draws := by unfold arrive; split <;> rfl

@[simp] theorem arriveAll_acc (bs : List Byte) (s : State) : (arriveAll bs s).acc = s.acc := by
  induction bs generalizing s with
  | nil => rfl
  | cons b bs ih => simp [arriveAll, ih]
@[simp] theorem arriveAll_snap (bs : List Byte) (s : State) : (arriveAll bs s).snap = s.snap := by
  induction bs generalizing s with
  | nil => rfl
  | cons b bs ih => simp [arriveAll, ih]
@[simp] theorem arriveAll_snapLen (bs : List Byte) (s : State) : (arriveAll bs s).snapLen = s.snapLen := by
  induction bs generalizing s with
  | nil => rfl
  | cons b bs ih => simp [arriveAll, ih]
@[simp] theorem arriveAll_snapValid (bs : List Byte) (s : State) : (arriveAll bs s).snapValid = s.snapValid := by
  induction bs generalizing s with
  | nil => rfl
  | cons b bs ih => simp [arriveAll, ih]
@[simp] theorem arriveAll_stage (bs : List Byte) (s : State) : (arriveAll bs s).stage = s.stage := by
  induction bs generalizing s with
  | nil => rfl
  | cons b bs ih => simp [arriveAll, ih]
@[simp] theorem arriveAll_stageLen (bs : List Byte) (s : State) : (arriveAll bs s).stageLen = s.stageLen := by
  induction bs generalizing s with
  | nil => rfl
  | cons b bs ih => simp [arriveAll, ih]
@[simp] theorem arriveAll_tmp (bs : List Byte) (s : State) : (arriveAll bs s).tmp = s.tmp := by
  induction bs generalizing s with
  | nil => rfl
  | cons b bs ih => simp [arriveAll, ih]
@[simp] theorem arriveAll_txs (bs : List Byte) (s : State) : (arriveAll bs s).txs = s.txs := by
  induction bs generalizing s with
  | nil => rfl
  | cons b bs ih => simp [arriveAll, ih]
@[simp] theorem arriveAll_seq (bs : List Byte) (s : State) : (arriveAll bs s).seq = s.seq := by
  induction bs generalizing s with
  | nil => rfl
  | cons b bs ih => simp [arriveAll, ih]
@[simp] theorem arriveAll_t0 (bs : List Byte) (s : State) : (arriveAll bs s).t0 = s.t0 := by
  induction bs generalizing s with
  | nil => rfl
  | cons b bs ih => simp [arriveAll, ih]
@[simp] theorem arriveAll_now (bs : List Byte) (s : State) : (arriveAll bs s).now = s.now := by
  induction bs generalizing s with
  | nil => rfl
  | cons b bs ih => simp [arriveAll, ih]
@[simp] theorem arriveAll_muted (bs : List Byte) (s : State) : (arriveAll bs s).muted = s.muted := by
  induction bs generalizing s with
  | nil => rfl
  | cons b bs ih => simp [arriveAll, ih]
@[simp] theorem arriveAll_decode (bs : List Byte) (s : State) : (arriveAll bs s).decode = s.decode := by
  induction bs generalizing s with
  | nil => rfl
  | cons b bs ih => simp [arriveAll, ih]
@[simp] theorem arriveAll_busy (bs : List Byte) (s : State) : (arriveAll bs s).busy = s.busy := by
  induction bs generalizing s with
  | nil => rfl
  | cons b bs ih => simp [arriveAll, ih]
@[simp] theorem arriveAll_cfg (bs : List Byte) (s : State) : (arriveAll bs s).cfg = s.cfg := by
  induction bs generalizing s with
  | nil => rfl
  | cons b bs ih => simp [arriveAll, ih]
@[simp] theorem arriveAll_cause (bs : List Byte) (s : State) : (arriveAll bs s).cause = s.cause := by
  induction bs generalizing s with
  | nil => rfl
  | cons b bs ih => simp [arriveAll, ih]
@[simp] theorem arriveAll_result (bs : List Byte) (s : State) : (arriveAll bs s).result = s.result := by
  induction bs generalizing s with
  | nil => rfl
  | cons b bs ih => simp [arriveAll, ih]
@[simp] theorem arriveAll_port (bs : List Byte) (s : State) : (arriveAll bs s).port = s.port := by
  induction bs generalizing s with
  | nil => rfl
  | cons b bs ih => simp [arriveAll, ih]
@[simp] theorem arriveAll_env (bs : List Byte) (s : State) : (arriveAll bs s).env = s.env := by
  induction bs generalizing s with
  | nil => rfl
  | cons b bs ih => simp [arriveAll, ih]
@[simp] theorem arriveAll_draws (bs : List Byte) (s : State) : (arriveAll bs s).draws = s.draws := by
  induction bs generalizing s with
  | nil => rfl
  | cons b bs ih => simp [arriveAll, ih]

@[simp] theorem wait_acc (d : Nat) (s : State) : (wait d s).acc = s.acc := by unfold wait; split <;> simp
@[simp] theorem wait_snap (d : Nat) (s : State) : (wait d s).snap = s.snap := by unfold wait; split <;> simp
@[simp] theorem wait_snapLen (d : Nat) (s : State) : (wait d s).snapLen = s.snapLen := by unfold wait; split <;> simp
@[simp] theorem wait_snapValid (d : Nat) (s : State) : (wait d s).snapValid = s.snapValid := by unfold wait; split <;> simp
@[simp] theorem wait_stage (d : Nat) (s : State) : (wait d s).stage = s.stage := by unfold wait; split <;> simp
@[simp] theorem wait_stageLen (d : Nat) (s : State) : (wait d s).stageLen = s.stageLen := by unfold wait; split <;> simp
@[simp] theorem wait_tmp (d : Nat) (s : State) : (wait d s).tmp = s.tmp := by unfold wait; split <;> simp
@[simp] theorem wait_txs (d : Nat) (s : State) : (wait d s).txs = s.txs := by unfold wait; split <;> simp
@[simp] theorem wait_seq (d : Nat) (s : State) : (wait d s).seq = s.seq := by unfold wait; split <;> simp
@[simp] theorem wait_t0 (d : Nat) (s : State) : (wait d s).t0 = s.t0 := by unfold wait; split <;> simp
@[simp] theorem wait_muted (d : Nat) (s : State) : (wait d s).muted = s.muted := by unfold wait; split <;> simp
@[simp] theorem wait_decode (d : Nat) (s : State) : (wait d s).decode = s.decode := by unfold wait; split <;> simp
@[simp] theorem wait_busy (d : Nat) (s : State) : (wait d s).busy = s.busy := by unfold wait; split <;> simp
@[simp] theorem wait_cfg (d : Nat) (s : State) : (wait d s).cfg = s.cfg := by unfold wait; split <;> simp
@[simp] theorem wait_cause (d : Nat) (s : State) : (wait d s).cause = s.cause := by unfold wait; split <;> simp
@[simp] theorem wait_result (d : Nat) (s : State) : (wait d s).result = s.result := by unfold wait; split <;> simp
@[simp] theorem wait_port (d : Nat) (s : State) : (wait d s).port = s.port := by unfold wait; split <;> simp
@[simp] theorem wait_draws (d : Nat) (s : State) : (wait d s).draws = s.draws := by unfold wait; split <;> simp

@[simp] theorem idle_acc (s : State) : (idle s).acc = s.acc := by unfold idle; split <;> simp
@[simp] theorem idle_snap (s : State) : (idle s).snap = s.snap := by unfold idle; split <;> simp
@[simp] theorem idle_snapLen (s : State) : (idle s).snapLen = s.snapLen := by unfold idle; split <;> simp
@[simp] theorem idle_snapValid (s : State) : (idle s).snapValid = s.snapValid := by unfold idle; split <;> simp
@[simp] theorem idle_stage (s : State) : (idle s).stage = s.stage := by unfold idle; split <;> simp
@[simp] theorem idle_stageLen (s : State) : (idle s).stageLen = s.stageLen := by unfold idle; split <;> simp
@[simp] theorem idle_tmp (s : State) : (idle s).tmp = s.tmp := by unfold idle; split <;> simp
@[simp] theorem idle_txs (s : State) : (idle s).txs = s.txs := by unfold idle; split <;> simp
@[simp] theorem idle_seq (s : State) : (idle s).seq = s.seq := by unfold idle; split <;> simp
@[simp] theorem idle_t0 (s : State) : (idle s).t0 = s.t0 := by unfold idle; split <;> simp
@[simp] theorem idle_now (s : State) : (idle s).now = s.now := by unfold idle; split <;> simp
@[simp] theorem idle_muted (s : State) : (idle s).muted = s.muted := by unfold idle; split <;> simp
@[simp] theorem idle_decode (s : State) : (idle s).decode = s.decode := by unfold idle; split <;> simp
@[simp] theorem idle_busy (s : State) : (idle s).busy = s.busy := by unfold idle; split <;> simp
@[simp] theorem idle_cfg (s : State) : (idle s).cfg = s.cfg := by unfold idle; split <;> simp
@[simp] theorem idle_cause (s : State) : (idle s).cause = s.cause := by unfold idle; split <;> simp
@[simp] theorem idle_result (s : State) : (idle s).result = s.result := by unfold idle; split <;> simp
@[simp] theorem idle_port (s : State) : (idle s).port = s.port := by unfold idle; split <;> simp
@[simp] theorem idle_draws (s : State) : (idle s).draws = s.draws := by unfold idle; split <;> simp

@[simp] theorem flushRx_acc (s : State) : (flushRx s).acc = s.acc := by simp [flushRx]
@[simp] theorem flushRx_snap (s : State) : (flushRx s).snap = s.snap := by simp [flushRx]
@[simp] theorem flushRx_snapLen (s : State) : (flushRx s).snapLen = s.snapLen := by simp [flushRx]
@[simp] theorem flushRx_snapValid (s : State) : (flushRx s).snapValid = s.snapValid := by simp [flushRx]
@[simp] theorem flushRx_stage (s : State) : (flushRx s).stage = s.stage := by simp [flushRx]
@[simp] theorem flushRx_stageLen (s : State) : (flushRx s).stageLen = s.stageLen := by simp [flushRx]
@[simp] theorem flushRx_tmp (s : State) : (flushRx s).tmp = s.tmp := by simp [flushRx]
@[simp] theorem flushRx_txs (s : State) : (flushRx s).txs = s.txs := by simp [flushRx]
@[simp] theorem flushRx_seq (s : State) : (flushRx s).seq = s.seq := by simp [flushRx]
@[simp] theorem flushRx_t0 (s : State) : (flushRx s).t0 = s.t0 := by simp [flushRx]
@[simp] theorem flushRx_muted (s : State) : (flushRx s).muted = s.muted := by simp [flushRx]
@[simp] theorem flushRx_decode (s : State) : (flushRx s).decode = s.decode := by simp [flushRx]
@[simp] theorem flushRx_busy (s : State) : (flushRx s).busy = s.busy := by simp [flushRx]
@[simp] theorem flushRx_cfg (s : State) : (flushRx s).cfg = s.cfg := by simp [flushRx]
@[simp] theorem flushRx_cause (s : State) : (flushRx s).cause = s.cause := by simp [flushRx]
@[simp] theorem flushRx_result (s : State) : (flushRx s).result = s.result := by simp [flushRx]
@[simp] theorem flushRx_port (s : State) : (flushRx s).port = s.port := by simp [flushRx]
@[simp] theorem flushRx_draws (s : State) : (flushRx s).draws = s.draws := by simp [flushRx]

@[simp] theorem flushRx_rxq (s : State) : (flushRx s).rxq = [] := rfl

@[simp] theorem transmit_acc (bs : List Byte) (s : State) : (transmit bs s).acc = s.acc := by simp [transmit]
@[simp] theorem transmit_snap (bs : List Byte) (s : State) : (transmit bs s).snap = s.snap := by simp [transmit]
@[simp] theorem transmit_snapLen (bs : List Byte) (s : State) : (transmit bs s).snapLen = s.snapLen := by simp [transmit]
@[simp] theorem transmit_snapValid (bs : List Byte) (s : State) : (transmit bs s).snapValid = s.snapValid := by simp [transmit]
@[simp] theorem transmit_stage (bs : List Byte) (s : State) : (transmit bs s).stage = s.stage := by simp [transmit]
@[simp] theorem transmit_stageLen (bs : List Byte) (s : State) : (transmit bs s).stageLen = s.stageLen := by simp [transmit]
@[simp] theorem transmit_tmp (bs : List Byte) (s : State) : (transmit bs s).tmp = s.tmp := by simp [transmit]
@[simp] theorem transmit_seq (bs : List Byte) (s : State) : (transmit bs s).seq = s.seq := by simp [transmit]
@[simp] theorem transmit_t0 (bs : List Byte) (s : State) : (transmit bs s).t0 = s.t0 := by simp [transmit]
@[simp] theorem transmit_muted (bs : List Byte) (s : State) : (transmit bs s).muted = s.muted := by simp [transmit]
@[simp] theorem transmit_decode (bs : List Byte) (s : State) : (transmit bs s).decode = s.decode := by simp [transmit]
@[simp] theorem transmit_busy (bs : List Byte) (s : State) : (transmit bs s).busy = s.busy := by simp [transmit]
@[simp] theorem transmit_cfg (bs : List Byte) (s : State) : (transmit bs s).cfg = s.cfg := by simp [transmit]
@[simp] theorem transmit_cause (bs : List Byte) (s : State) : (transmit bs s).cause = s.cause := by simp [transmit]
@[simp] theorem transmit_result (bs : List Byte) (s : State) : (transmit bs s).result = s.result := by simp [transmit]
@[simp] theorem transmit_port (bs : List Byte) (s : State) : (transmit bs s).port = s.port := by simp [transmit]
@[simp] theorem transmit_draws (bs : List Byte) (s : State) : (transmit bs s).draws = s.draws := by simp [transmit]

@[simp] theorem transmit_rxq (bs : List Byte) (s : State) : (transmit bs s).rxq = [] := rfl
@[simp] theorem transmit_txs (bs : List Byte) (s : State) : (transmit bs s).txs = s.txs ++ bs := by simp [transmit]

@[simp] theorem request_acc (bs : List Byte) (s : State) : (request bs s).acc = s.acc := by simp [request]
@[simp] theorem request_snap (bs : List Byte) (s : State) : (request bs s).snap = s.snap := by simp [request]
@[simp] theorem request_snapLen (bs : List Byte) (s : State) : (request bs s).snapLen = s.snapLen := by simp [request]
@[simp] theorem request_snapValid (bs : List Byte) (s : State) : (request bs s).snapValid = s.snapValid := by simp [request]
@[simp] theorem request_stage (bs : List Byte) (s : State) : (request bs s).stage = s.stage := by simp [request]
@[simp] theorem request_stageLen (bs : List Byte) (s : State) : (request bs s).stageLen = s.stageLen := by simp [request]
@[simp] theorem request_tmp (bs : List Byte) (s : State) : (request bs s).tmp = s.tmp := by simp [request]
@[simp] theorem request_muted (bs : List Byte) (s : State) : (request bs s).muted = s.muted := by simp [request]
@[simp] theorem request_decode (bs : List Byte) (s : State) : (request bs s).decode = s.decode := by simp [request]
@[simp] theorem request_busy (bs : List Byte) (s : State) : (request bs s).busy = s.busy := by simp [request]
@[simp] theorem request_cfg (bs : List Byte) (s : State) : (request bs s).cfg = s.cfg := by simp [request]
@[simp] theorem request_cause (bs : List Byte) (s : State) : (request bs s).cause = s.cause := by simp [request]
@[simp] theorem request_result (bs : List Byte) (s : State) : (request bs s).result = s.result := by simp [request]
@[simp] theorem request_port (bs : List Byte) (s : State) : (request bs s).port = s.port := by simp [request]
@[simp] theorem request_draws (bs : List Byte) (s : State) : (request bs s).draws = s.draws := by simp [request]

@[simp] theorem request_rxq (bs : List Byte) (s : State) : (request bs s).rxq = [] := rfl
@[simp] theorem request_txs (bs : List Byte) (s : State) : (request bs s).txs = s.txs ++ bs := by simp [request]
@[simp] theorem request_seq (bs : List Byte) (s : State) : (request bs s).seq = .awaitHeader := rfl
theorem request_t0 (bs : List Byte) (s : State) : (request bs s).t0 = (request bs s).now := rfl

theorem awaitLoop_acc (n : Nat) (ms : List EnvMove) (s : State) : (awaitLoop n ms s).2.acc = s.acc := by
  induction ms generalizing s with
  | nil => unfold awaitLoop; split <;> (try split) <;> rfl
  | cons m ms ih => unfold awaitLoop; split <;> (try split) <;> simp [ih]
@[simp] theorem awaitBytes_acc (n : Nat) (s : State) : (awaitBytes n s).2.acc = s.acc := awaitLoop_acc n s.env s
theorem awaitLoop_snap (n : Nat) (ms : List EnvMove) (s : State) : (awaitLoop n ms s).2.snap = s.snap := by
  induction ms generalizing s with
  | nil => unfold awaitLoop; split <;> (try split) <;> rfl
  | cons m ms ih => unfold awaitLoop; split <;> (try split) <;> simp [ih]
@[simp] theorem awaitBytes_snap (n : Nat) (s : State) : (awaitBytes n s).2.snap = s.snap := awaitLoop_snap n s.env s
theorem awaitLoop_snapLen (n : Nat) (ms : List EnvMove) (s : State) : (awaitLoop n ms s).2.snapLen = s.snapLen := by
  induction ms generalizing s with
  | nil => unfold awaitLoop; split <;> (try split) <;> rfl
  | cons m ms ih => unfold awaitLoop; split <;> (try split) <;> simp [ih]
@[simp] theorem awaitBytes_snapLen (n : Nat) (s : State) : (awaitBytes n s).2.snapLen = s.snapLen := awaitLoop_snapLen n s.env s
theorem awaitLoop_snapValid (n : Nat) (ms : List EnvMove) (s : State) : (awaitLoop n ms s).2.snapValid = s.snapValid := by
  induction ms generalizing s with
  | nil => unfold awaitLoop; split <;> (try split) <;> rfl
  | cons m ms ih => unfold awaitLoop; split <;> (try split) <;> simp [ih]
@[simp] theorem awaitBytes_snapValid (n : Nat) (s : State) : (awaitBytes n s).2.snapValid = s.snapValid := awaitLoop_snapValid n s.env s
theorem awaitLoop_stage (n : Nat) (ms : List EnvMove) (s : State) : (awaitLoop n ms s).2.stage = s.stage := by
  induction ms generalizing s with
  | nil => unfold awaitLoop; split <;> (try split) <;> rfl
  | cons m ms ih => unfold awaitLoop; split <;> (try split) <;> simp [ih]
@[simp] theorem awaitBytes_stage (n : Nat) (s : State) : (awaitBytes n s).2.stage = s.stage := awaitLoop_stage n s.env s
theorem awaitLoop_stageLen (n : Nat) (ms : List EnvMove) (s : State) : (awaitLoop n ms s).2.stageLen = s.stageLen := by
  induction ms generalizing s with
  | nil => unfold awaitLoop; split <;> (try split) <;> rfl
  | cons m ms ih => unfold awaitLoop; split <;> (try split) <;> simp [ih]
@[simp] theorem awaitBytes_stageLen (n : Nat) (s : State) : (awaitBytes n s).2.stageLen = s.stageLen := awaitLoop_stageLen n s.env s
theorem awaitLoop_tmp (n : Nat) (ms : List EnvMove) (s : State) : (awaitLoop n ms s).2.tmp = s.tmp := by
  induction ms generalizing s with
  | nil => unfold awaitLoop; split <;> (try split) <;> rfl
  | cons m ms ih => unfold awaitLoop; split <;> (try split) <;> simp [ih]
@[simp] theorem awaitBytes_tmp (n : Nat) (s : State) : (awaitBytes n s).2.tmp = s.tmp := awaitLoop_tmp n s.env s
theorem awaitLoop_txs (n : Nat) (ms : List EnvMove) (s : State) : (awaitLoop n ms s).2.txs = s.txs := by
  induction ms generalizing s with
  | nil => unfold awaitLoop; split <;> (try split) <;> rfl
  | cons m ms ih => unfold awaitLoop; split <;> (try split) <;> simp [ih]
@[simp] theorem awaitBytes_txs (n : Nat) (s : State) : (awaitBytes n s).2.txs = s.txs := awaitLoop_txs n s.env s
theorem awaitLoop_seq (n : Nat) (ms : List EnvMove) (s : State) : (awaitLoop n ms s).2.seq = s.seq := by
  induction ms generalizing s with
  | nil => unfold awaitLoop; split <;> (try split) <;> rfl
  | cons m ms ih => unfold awaitLoop; split <;> (try split) <;> simp [ih]
@[simp] theorem awaitBytes_seq (n : Nat) (s : State) : (awaitBytes n s).2.seq = s.seq := awaitLoop_seq n s.env s
theorem awaitLoop_t0 (n : Nat) (ms : List EnvMove) (s : State) : (awaitLoop n ms s).2.t0 = s.t0 := by
  induction ms generalizing s with
  | nil => unfold awaitLoop; split <;> (try split) <;> rfl
  | cons m ms ih => unfold awaitLoop; split <;> (try split) <;> simp [ih]
@[simp] theorem awaitBytes_t0 (n : Nat) (s : State) : (awaitBytes n s).2.t0 = s.t0 := awaitLoop_t0 n s.env s
theorem awaitLoop_muted (n : Nat) (ms : List EnvMove) (s : State) : (awaitLoop n ms s).2.muted = s.muted := by
  induction ms generalizing s with
  | nil => unfold awaitLoop; split <;> (try split) <;> rfl
  | cons m ms ih => unfold awaitLoop; split <;> (try split) <;> simp [ih]
@[simp] theorem awaitBytes_muted (n : Nat) (s : State) : (awaitBytes n s).2.muted = s.muted := awaitLoop_muted n s.env s
theorem awaitLoop_decode (n : Nat) (ms : List EnvMove) (s : State) : (awaitLoop n ms s).2.decode = s.decode := by
  induction ms generalizing s with
  | nil => unfold awaitLoop; split <;> (try split) <;> rfl
  | cons m ms ih => unfold awaitLoop; split <;> (try split) <;> simp [ih]
@[simp] theorem awaitBytes_decode (n : Nat) (s : State) : (awaitBytes n s).2.decode = s.decode := awaitLoop_decode n s.env s
theorem awaitLoop_busy (n : Nat) (ms : List EnvMove) (s : State) : (awaitLoop n ms s).2.busy = s.busy := by
  induction ms generalizing s with
  | nil => unfold awaitLoop; split <;> (try split) <;> rfl
  | cons m ms ih => unfold awaitLoop; split <;> (try split) <;> simp [ih]
@[simp] theorem awaitBytes_busy (n : Nat) (s : State) : (awaitBytes n s).2.busy = s.busy := awaitLoop_busy n s.env s
theorem awaitLoop_cfg (n : Nat) (ms : List EnvMove) (s : State) : (awaitLoop n ms s).2.cfg = s.cfg := by
  induction ms generalizing s with
  | nil => unfold awaitLoop; split <;> (try split) <;> rfl
  | cons m ms ih => unfold awaitLoop; split <;> (try split) <;> simp [ih]
@[simp] theorem awaitBytes_cfg (n : Nat) (s : State) : (awaitBytes n s).2.cfg = s.cfg := awaitLoop_cfg n s.env s
theorem awaitLoop_cause (n : Nat) (ms : List EnvMove) (s : State) : (awaitLoop n ms s).2.cause = s.cause := by
  induction ms generalizing s with
  | nil => unfold awaitLoop; split <;> (try split) <;> rfl
  | cons m ms ih => unfold awaitLoop; split <;> (try split) <;> simp [ih]
@[simp] theorem awaitBytes_cause (n : Nat) (s : State) : (awaitBytes n s).2.cause = s.cause := awaitLoop_cause n s.env s
theorem awaitLoop_result (n : Nat) (ms : List EnvMove) (s : State) : (awaitLoop n ms s).2.result = s.result := by
  induction ms generalizing s with
  | nil => unfold awaitLoop; split <;> (try split) <;> rfl
  | cons m ms ih => unfold awaitLoop; split <;> (try split) <;> simp [ih]
@[simp] theorem awaitBytes_result (n : Nat) (s : State) : (awaitBytes n s).2.result = s.result := awaitLoop_result n s.env s
theorem awaitLoop_port (n : Nat) (ms : List EnvMove) (s : State) : (awaitLoop n ms s).2.port = s.port := by
  induction ms generalizing s with
  | nil => unfold awaitLoop; split <;> (try split) <;> rfl
  | cons m ms ih => unfold awaitLoop; split <;> (try split) <;> simp [ih]
@[simp] theorem awaitBytes_port (n : Nat) (s : State) : (awaitBytes n s).2.port = s.port := awaitLoop_port n s.env s
theorem awaitLoop_draws (n : Nat) (ms : List EnvMove) (s : State) : (awaitLoop n ms s).2.draws = s.draws := by
  induction ms generalizing s with
  | nil => unfold awaitLoop; split <;> (try split) <;> rfl
  | cons m ms ih => unfold awaitLoop; split <;> (try split) <;> simp [ih]
@[simp] theorem awaitBytes_draws (n : Nat) (s : State) : (awaitBytes n s).2.draws = s.draws := awaitLoop_draws n s.env s

@[simp] theorem updateCache_acc (op : Byte) (s : State) : (updateCache op s).acc = s.acc := by unfold updateCache; (repeat' split) <;> rfl
@[simp] theorem updateCache_snap (op : Byte) (s : State) : (updateCache op s).snap = s.snap := by unfold updateCache; (repeat' split) <;> rfl
@[simp] theorem updateCache_snapLen (op : Byte) (s : State) : (updateCache op s).snapLen = s.snapLen := by unfold updateCache; (repeat' split) <;> rfl
@[simp] theorem updateCache_snapValid (op : Byte) (s : State) : (updateCache op s).snapValid = s.snapValid := by unfold updateCache; (repeat' split) <;> rfl
@[simp] theorem updateCache_stage (op : Byte) (s : State) : (updateCache op s).stage = s.stage := by unfold updateCache; (repeat' split) <;> rfl
@[simp] theorem updateCache_stageLen (op : Byte) (s : State) : (updateCache op s).stageLen = s.stageLen := by unfold updateCache; (repeat' split) <;> rfl
@[simp] theorem updateCache_tmp (op : Byte) (s : State) : (updateCache op s).tmp = s.tmp := by unfold updateCache; (repeat' split) <;> rfl
@[simp] theorem updateCache_rxq (op : Byte) (s : State) : (updateCache op s).rxq = s.rxq := by unfold updateCache; (repeat' split) <;> rfl
@[simp] theorem updateCache_txs (op : Byte) (s : State) : (updateCache op s).txs = s.txs := by unfold updateCache; (repeat' split) <;> rfl
@[simp] theorem updateCache_seq (op : Byte) (s : State) : (updateCache op s).seq = s.seq := by unfold updateCache; (repeat' split) <;> rfl
@[simp] theorem updateCache_t0 (op : Byte) (s : State) : (updateCache op s).t0 = s.t0 := by unfold updateCache; (repeat' split) <;> rfl
@[simp] theorem updateCache_now (op : Byte) (s : State) : (updateCache op s).now = s.now := by unfold updateCache; (repeat' split) <;> rfl
@[simp] theorem updateCache_busy (op : Byte) (s : State) : (updateCache op s).busy = s.busy := by unfold updateCache; (repeat' split) <;> rfl
@[simp] theorem updateCache_cfg (op : Byte) (s : State) : (updateCache op s).cfg = s.cfg := by unfold updateCache; (repeat' split) <;> rfl
@[simp] theorem updateCache_cause (op : Byte) (s : State) : (updateCache op s).cause = s.cause := by unfold updateCache; (repeat' split) <;> rfl
@[simp] theorem updateCache_hist (op : Byte) (s : State) : (updateCache op s).hist = s.hist := by unfold updateCache; (repeat' split) <;> rfl
@[simp] theorem updateCache_result (op : Byte) (s : State) : (updateCache op s).result = s.result := by unfold updateCache; (repeat' split) <;> rfl
@[simp] theorem updateCache_port (op : Byte) (s : State) : (updateCache op s).port = s.port := by unfold updateCache; (repeat' split) <;> rfl
@[simp] theorem updateCache_env (op : Byte) (s : State) : (updateCache op s).env = s.env := by unfold updateCache; (repeat' split) <;> rfl
@[simp] theorem updateCache_draws (op : Byte) (s : State) : (updateCache op s).draws = s.draws := by unfold updateCache; (repeat' split) <;> rfl

@[simp] theorem bufWrite_acc (b : BufRef) (i : Nat) (v : Byte) (s : State) : (bufWrite b i v s).acc = s.acc := by cases b <;> rfl
@[simp] theorem bufWrite_snapLen (b : BufRef) (i : Nat) (v : Byte) (s : State) : (bufWrite b i v s).snapLen = s.snapLen := by cases b <;> rfl
@[simp] theorem bufWrite_snapValid (b : BufRef) (i : Nat) (v : Byte) (s : State) : (bufWrite b i v s).snapValid = s.snapValid := by cases b <;> rfl
@[simp] theorem bufWrite_stageLen (b : BufRef) (i : Nat) (v : Byte) (s : State) : (bufWrite b i v s).stageLen = s.stageLen := by cases b <;> rfl
@[simp] theorem bufWrite_tmp (b : BufRef) (i : Nat) (v : Byte) (s : State) : (bufWrite b i v s).tmp = s.tmp := by cases b <;> rfl
@[simp] theorem bufWrite_rxq (b : BufRef) (i : Nat) (v : Byte) (s : State) : (bufWrite b i v s).rxq = s.rxq := by cases b <;> rfl
@[simp] theorem bufWrite_txs (b : BufRef) (i : Nat) (v : Byte) (s : State) : (bufWrite b i v s).txs = s.txs := by cases b <;> rfl
@[simp] theorem bufWrite_seq (b : BufRef) (i : Nat) (v : Byte) (s : State) : (bufWrite b i v s).seq = s.seq := by cases b <;> rfl
@[simp] theorem bufWrite_t0 (b : BufRef) (i : Nat) (v : Byte) (s : State) : (bufWrite b i v s).t0 = s.t0 := by cases b <;> rfl
@[simp] theorem bufWrite_now (b : BufRef) (i : Nat) (v : Byte) (s : State) : (bufWrite b i v s).now = s.now := by cases b <;> rfl
@[simp] theorem bufWrite_muted (b : BufRef) (i : Nat) (v : Byte) (s : State) : (bufWrite b i v s).muted = s.muted := by cases b <;> rfl
@[simp] theorem bufWrite_decode (b : BufRef) (i : Nat) (v : Byte) (s : State) : (bufWrite b i v s).decode = s.decode := by cases b <;> rfl
@[simp] theorem bufWrite_busy (b : BufRef) (i : Nat) (v : Byte) (s : State) : (bufWrite b i v s).busy = s.busy := by cases b <;> rfl
@[simp] theorem bufWrite_cfg (b : BufRef) (i : Nat) (v : Byte) (s : State) : (bufWrite b i v s).cfg = s.cfg := by cases b <;> rfl
@[simp] theorem bufWrite_cause (b : BufRef) (i : Nat) (v : Byte) (s : State) : (bufWrite b i v s).cause = s.cause := by cases b <;> rfl
@[simp] theorem bufWrite_hist (b : BufRef) (i : Nat) (v : Byte) (s : State) : (bufWrite b i v s).hist = s.hist := by cases b <;> rfl
@[simp] theorem bufWrite_result (b : BufRef) (i : Nat) (v : Byte) (s : State) : (bufWrite b i v s).result = s.result := by cases b <;> rfl
@[simp] theorem bufWrite_port (b : BufRef) (i : Nat) (v : Byte) (s : State) : (bufWrite b i v s).port = s.port := by cases b <;> rfl
@[simp] theorem bufWrite_env (b : BufRef) (i : Nat) (v : Byte) (s : State) : (bufWrite b i v s).env = s.env := by cases b <;> rfl
@[simp] theorem bufWrite_draws (b : BufRef) (i : Nat) (v : Byte) (s : State) : (bufWrite b i v s).draws = s.draws := by cases b <;> rfl

@[simp] theorem lrcStoreRun_snapLen (b : BufRef) (n : Nat) (s : State) : (lrcStoreRun b n s).snapLen = s.snapLen := by simp [lrcStoreRun]
@[simp] theorem lrcStoreRun_snapValid (b : BufRef) (n : Nat) (s : State) : (lrcStoreRun b n s).snapValid = s.snapValid := by simp [lrcStoreRun]
@[simp] theorem lrcStoreRun_stageLen (b : BufRef) (n : Nat) (s : State) : (lrcStoreRun b n s).stageLen = s.stageLen := by simp [lrcStoreRun]
@[simp] theorem lrcStoreRun_tmp (b : BufRef) (n : Nat) (s : State) : (lrcStoreRun b n s).tmp = s.tmp := by simp [lrcStoreRun]
@[simp] theorem lrcStoreRun_rxq (b : BufRef) (n : Nat) (s : State) : (lrcStoreRun b n s).rxq = s.rxq := by simp [lrcStoreRun]
@[simp] theorem lrcStoreRun_txs (b : BufRef) (n : Nat) (s : State) : (lrcStoreRun b n s).txs = s.txs := by simp [lrcStoreRun]
@[simp] theorem lrcStoreRun_seq (b : BufRef) (n : Nat) (s : State) : (lrcStoreRun b n s).seq = s.seq := by simp [lrcStoreRun]
@[simp] theorem lrcStoreRun_t0 (b : BufRef) (n : Nat) (s : State) : (lrcStoreRun b n s).t0 = s.t0 := by simp [lrcStoreRun]
@[simp] theorem lrcStoreRun_now (b : BufRef) (n : Nat) (s : State) : (lrcStoreRun b n s).now = s.now := by simp [lrcStoreRun]
@[simp] theorem lrcStoreRun_muted (b : BufRef) (n : Nat) (s : State) : (lrcStoreRun b n s).muted = s.muted := by simp [lrcStoreRun]
@[simp] theorem lrcStoreRun_decode (b : BufRef) (n : Nat) (s : State) : (lrcStoreRun b n s).decode = s.decode := by simp [lrcStoreRun]
@[simp] theorem lrcStoreRun_busy (b : BufRef) (n : Nat) (s : State) : (lrcStoreRun b n s).busy = s.busy := by simp [lrcStoreRun]
@[simp] theorem lrcStoreRun_cfg (b : BufRef) (n : Nat) (s : State) : (lrcStoreRun b n s).cfg = s.cfg := by simp [lrcStoreRun]
@[simp] theorem lrcStoreRun_cause (b : BufRef) (n : Nat) (s : State) : (lrcStoreRun b n s).cause = s.cause := by simp [lrcStoreRun]
@[simp] theorem lrcStoreRun_hist (b : BufRef) (n : Nat) (s : State) : (lrcStoreRun b n s).hist = s.hist := by simp [lrcStoreRun]
@[simp] theorem lrcStoreRun_result (b : BufRef) (n : Nat) (s : State) : (lrcStoreRun b n s).result = s.result := by simp [lrcStoreRun]
@[simp] theorem lrcStoreRun_port (b : BufRef) (n : Nat) (s : State) : (lrcStoreRun b n s).port = s.port := by simp [lrcStoreRun]
@[simp] theorem lrcStoreRun_env (b : BufRef) (n : Nat) (s : State) : (lrcStoreRun b n s).env = s.env := by simp [lrcStoreRun]

end Sys2Proof.Machine
end

