-- ==== Sys2Proof/Laws/Link.lean ====
section
/-! SUPPORT. What the environment's moves, the flush, the write and the wait can do, said once. -/

namespace Sys2Proof.Machine

open Sys2Proof.Safety

@[simp] theorem totalTicks_nil : totalTicks [] = 0 := rfl
@[simp] theorem totalTicks_cons (m : EnvMove) (ms : List EnvMove) :
    totalTicks (m :: ms) = m.ticks + totalTicks ms := by simp [totalTicks]
@[simp] theorem allBytes_nil : allBytes [] = [] := rfl
@[simp] theorem allBytes_cons (m : EnvMove) (ms : List EnvMove) : allBytes (m :: ms) = m.bytes ++ allBytes ms := by
  simp [allBytes]
@[simp] theorem allBytes_append (a b : List EnvMove) : allBytes (a ++ b) = allBytes a ++ allBytes b := by
  simp [allBytes]
@[simp] theorem totalTicks_append (a b : List EnvMove) : totalTicks (a ++ b) = totalTicks a + totalTicks b := by
  simp [totalTicks]

/-- Arriving bytes join the queue up to its depth; the rest is lost (41_transport.md R136, R137). -/
theorem arriveAll_rxq (bs : List Byte) (s : State) :
    (arriveAll bs s).rxq = s.rxq ++ bs.take (s.cfg.rxDepth - s.rxq.length) := by
  induction bs generalizing s with
  | nil => simp [arriveAll]
  | cons b bs ih =>
    rw [arriveAll, ih, arrive_cfg]
    unfold arrive
    by_cases h : s.rxq.length < s.cfg.rxDepth
    · rw [if_pos h]
      obtain ⟨k, hk⟩ : ∃ k, s.cfg.rxDepth - s.rxq.length = k + 1 := ⟨s.cfg.rxDepth - s.rxq.length - 1, by omega⟩
      have e : s.cfg.rxDepth - (s.rxq ++ [b]).length = k := by
        rw [List.length_append, List.length_singleton]
        omega
      simp only [e, hk, List.take_succ_cons, List.append_assoc, List.singleton_append]
    · rw [if_neg h]
      have e : s.cfg.rxDepth - s.rxq.length = 0 := by omega
      simp only [e, List.take_zero]

/-- The queue never exceeds its depth by arrivals. -/
theorem arriveAll_rxq_le {bs : List Byte} {s : State} (h : s.rxq.length ≤ s.cfg.rxDepth) :
    (arriveAll bs s).rxq.length ≤ s.cfg.rxDepth := by
  rw [arriveAll_rxq, List.length_append, List.length_take]
  omega

/-- A wait with a move left. -/
theorem wait_cons {s : State} {m : EnvMove} {ms : List EnvMove} (h : s.env = m :: ms) (d : Nat) :
    wait d s = arriveAll m.bytes { s with now := s.now + d + m.ticks, env := ms } := by
  unfold wait
  rw [h]

/-- A wait with no move left: exactly d ticks. -/
theorem wait_nil {s : State} (h : s.env = []) (d : Nat) : wait d s = { s with now := s.now + d } := by
  unfold wait
  rw [h]

/-- A wait uses up the first move. -/
theorem wait_env (d : Nat) (s : State) : (wait d s).env = s.env.tail := by
  cases h : s.env with
  | nil => simp [wait_nil h, h]
  | cons m ms => simp [wait_cons h]

/-- A wait lasts at least as long as was asked (00_scope.md R15). -/
theorem wait_now_le (d : Nat) (s : State) : s.now + d ≤ (wait d s).now := by
  cases h : s.env with
  | nil => simp [wait_nil h]
  | cons m ms =>
    simp only [wait_cons h, arriveAll_now]
    omega

/-- A wait only appends to the queue. -/
theorem wait_rxq (d : Nat) (s : State) : ∃ more, (wait d s).rxq = s.rxq ++ more := by
  cases h : s.env with
  | nil => exact ⟨[], by simp [wait_nil h]⟩
  | cons m ms => exact ⟨_, by rw [wait_cons h, arriveAll_rxq]⟩

theorem wait_rxq_le {d : Nat} {s : State} (h : s.rxq.length ≤ s.cfg.rxDepth) :
    (wait d s).rxq.length ≤ s.cfg.rxDepth := by
  cases he : s.env with
  | nil => simpa [wait_nil he] using h
  | cons m ms =>
    rw [wait_cons he]
    exact arriveAll_rxq_le (s := { s with now := s.now + d + m.ticks, env := ms }) h

/-- The idle block only gains bytes. -/
theorem idle_rxq_le {s : State} (h : s.rxq.length ≤ s.cfg.rxDepth) : (idle s).rxq.length ≤ s.cfg.rxDepth := by
  unfold idle
  split
  · exact h
  · exact arriveAll_rxq_le (s := { s with env := _ }) h

/-- The deadtime passes in a flush (41_transport.md R130). -/
theorem flushRx_now_le (s : State) : s.now + s.cfg.deadtime ≤ (flushRx s).now := wait_now_le s.cfg.deadtime s

theorem flushRx_env (s : State) : (flushRx s).env = s.env.tail := wait_env s.cfg.deadtime s

@[simp] theorem transmit_now (bs : List Byte) (s : State) : (transmit bs s).now = (flushRx s).now := rfl
@[simp] theorem transmit_env (bs : List Byte) (s : State) : (transmit bs s).env = (flushRx s).env := rfl
@[simp] theorem request_now (bs : List Byte) (s : State) : (request bs s).now = (flushRx s).now := rfl
@[simp] theorem request_env (bs : List Byte) (s : State) : (request bs s).env = s.env.tail := flushRx_env s

/-- Arrivals add no discard instant to the history. -/
@[simp] theorem arriveAll_flushCount (bs : List Byte) (s : State) :
    flushCount (arriveAll bs s).hist = flushCount s.hist := by
  induction bs generalizing s with
  | nil => rfl
  | cons b bs ih =>
    rw [arriveAll, ih]
    unfold arrive flushCount
    split <;> simp

@[simp] theorem wait_flushCount (d : Nat) (s : State) : flushCount (wait d s).hist = flushCount s.hist := by
  unfold wait
  split
  · rfl
  · rw [arriveAll_flushCount]

/-- A flush is one discard instant (41_transport.md R130). -/
theorem flushRx_flushCount (s : State) : flushCount (flushRx s).hist = flushCount s.hist + 1 := by
  have h := wait_flushCount s.cfg.deadtime s
  simp only [flushRx, flushCount, List.filter_append, List.length_append] at h ⊢
  rw [h]
  rfl

/-- A write is preceded by exactly one flush (41_transport.md R131). -/
theorem transmit_flushCount (bs : List Byte) (s : State) :
    flushCount (transmit bs s).hist = flushCount s.hist + 1 := by
  have h := flushRx_flushCount s
  simp only [transmit, tx_hist, flushCount, List.filter_append, List.length_append] at h ⊢
  rw [h]
  rfl

/-! ## The event history -/

theorem onlyArrivals_nil : OnlyArrivals [] := by intro e h; cases h

theorem onlyArrivals_append {a b : List Event} (ha : OnlyArrivals a) (hb : OnlyArrivals b) : OnlyArrivals (a ++ b) := by
  intro e h
  rcases List.mem_append.1 h with h | h
  · exact ha e h
  · exact hb e h

/-- Bytes that arrive are all that arrivals add to the history. -/
theorem arriveAll_hist (bs : List Byte) (s : State) : ∃ pre, OnlyArrivals pre ∧ (arriveAll bs s).hist = s.hist ++ pre := by
  induction bs generalizing s with
  | nil => exact ⟨[], onlyArrivals_nil, by simp [arriveAll]⟩
  | cons b bs ih =>
    have h1 : ∃ e, OnlyArrivals [e] ∧ (arrive b s).hist = s.hist ++ [e] := by
      unfold arrive
      split
      · exact ⟨.arrived b, by intro e h; exact .inl ⟨b, List.mem_singleton.1 h⟩, rfl⟩
      · exact ⟨.lost b, by intro e h; exact .inr ⟨b, List.mem_singleton.1 h⟩, rfl⟩
    obtain ⟨e, ha, he⟩ := h1
    obtain ⟨pre, hp, hh⟩ := ih (arrive b s)
    exact ⟨[e] ++ pre, onlyArrivals_append ha hp, by rw [arriveAll, hh, he, List.append_assoc]⟩

theorem wait_hist (d : Nat) (s : State) : ∃ pre, OnlyArrivals pre ∧ (wait d s).hist = s.hist ++ pre := by
  unfold wait
  split
  · exact ⟨[], onlyArrivals_nil, by simp⟩
  · exact arriveAll_hist _ _

/-- A flush is one discard instant, after arrivals (41_transport.md R130). -/
theorem flushRx_hist (s : State) : FlushFollows s.hist (flushRx s).hist := by
  obtain ⟨pre, hp, hh⟩ := wait_hist s.cfg.deadtime s
  exact ⟨pre, (wait s.cfg.deadtime s).rxq, hp, by rw [← hh]; rfl⟩

/-- A write is one discard instant and then its bytes (41_transport.md R131). -/
theorem transmit_hist (bs : List Byte) (s : State) : WriteFollows s.hist (transmit bs s).hist bs := by
  obtain ⟨pre, q, hp, hh⟩ := flushRx_hist s
  exact ⟨pre, q, hp, by rw [transmit, tx_hist, hh]; simp⟩

theorem awaitLoop_hist (n : Nat) (ms : List EnvMove) (s : State) :
    ∃ pre, OnlyArrivals pre ∧ (awaitLoop n ms s).2.hist = s.hist ++ pre := by
  induction ms generalizing s with
  | nil =>
    refine ⟨[], onlyArrivals_nil, ?_⟩
    unfold awaitLoop
    split
    · simp
    · split <;> simp
  | cons m ms ih =>
    unfold awaitLoop
    split
    · exact ⟨[], onlyArrivals_nil, by simp⟩
    · split
      · exact ⟨[], onlyArrivals_nil, by simp⟩
      · obtain ⟨p1, h1, e1⟩ := wait_hist 0 s
        obtain ⟨p2, h2, e2⟩ := ih (wait 0 s)
        exact ⟨p1 ++ p2, onlyArrivals_append h1 h2, by rw [e2, e1, List.append_assoc]⟩

/-- A wait adds arrivals to the history and nothing else. -/
theorem awaitBytes_hist (n : Nat) (s : State) :
    ∃ pre, OnlyArrivals pre ∧ (awaitBytes n s).2.hist = s.hist ++ pre := awaitLoop_hist n s.env s

/-- Arrivals are no moves of `seq`. -/
theorem seqMoves_onlyArrivals {h : List Event} (ha : OnlyArrivals h) : seqMoves h = [] := by
  rw [seqMoves, List.filterMap_eq_nil_iff]
  intro e he
  rcases ha e he with ⟨b, rfl⟩ | ⟨b, rfl⟩ <;> rfl

@[simp] theorem seqMoves_append (a b : List Event) : seqMoves (a ++ b) = seqMoves a ++ seqMoves b :=
  List.filterMap_append

@[simp] theorem arriveAll_seqMoves (bs : List Byte) (s : State) : seqMoves (arriveAll bs s).hist = seqMoves s.hist := by
  obtain ⟨pre, hp, hh⟩ := arriveAll_hist bs s
  rw [hh, seqMoves_append, seqMoves_onlyArrivals hp, List.append_nil]

@[simp] theorem awaitBytes_seqMoves (n : Nat) (s : State) : seqMoves (awaitBytes n s).2.hist = seqMoves s.hist := by
  obtain ⟨pre, hp, hh⟩ := awaitBytes_hist n s
  rw [hh, seqMoves_append, seqMoves_onlyArrivals hp, List.append_nil]

@[simp] theorem flushRx_seqMoves (s : State) : seqMoves (flushRx s).hist = seqMoves s.hist := by
  obtain ⟨pre, q, hp, hh⟩ := flushRx_hist s
  rw [hh, seqMoves_append, seqMoves_append, seqMoves_onlyArrivals hp]
  simp [seqMoves]

@[simp] theorem transmit_seqMoves (bs : List Byte) (s : State) : seqMoves (transmit bs s).hist = seqMoves s.hist := by
  obtain ⟨pre, q, hp, hh⟩ := transmit_hist bs s
  rw [hh, seqMoves_append, seqMoves_append, seqMoves_onlyArrivals hp]
  simp [seqMoves]

/-! ## The wait -/

/-- Everything the wait of 41_transport.md R141 can do, whatever the environment: it returns ok with enough bytes
queued, or timeout with too few and TIMEOUT elapsed; the clock does not go back; nothing is consumed; the depth is
kept. -/
theorem awaitLoop_spec (n : Nat) (ms : List EnvMove) (s : State) :
    ((awaitLoop n ms s).1 = true → n ≤ (awaitLoop n ms s).2.rxq.length) ∧
    ((awaitLoop n ms s).1 = false →
      (awaitLoop n ms s).2.rxq.length < n ∧ s.cfg.timeout ≤ (awaitLoop n ms s).2.now - s.t0) ∧
    s.now ≤ (awaitLoop n ms s).2.now ∧
    (∃ more, (awaitLoop n ms s).2.rxq = s.rxq ++ more) ∧
    (s.rxq.length ≤ s.cfg.rxDepth → (awaitLoop n ms s).2.rxq.length ≤ s.cfg.rxDepth) := by
  induction ms generalizing s with
  | nil =>
    unfold awaitLoop
    split
    · rename_i h
      exact ⟨fun _ => h, by simp, le_refl _, ⟨[], by simp⟩, id⟩
    · rename_i h
      split
      · rename_i h2
        exact ⟨by simp, fun _ => ⟨Nat.lt_of_not_le h, h2⟩, le_refl _, ⟨[], by simp⟩, id⟩
      · rename_i h2
        refine ⟨by simp, fun _ => ⟨Nat.lt_of_not_le h, ?_⟩, ?_, ⟨[], by simp⟩, id⟩
        · show s.cfg.timeout ≤ s.t0 + s.cfg.timeout - s.t0
          omega
        · show s.now ≤ s.t0 + s.cfg.timeout
          omega
  | cons m ms ih =>
    unfold awaitLoop
    split
    · rename_i h
      exact ⟨fun _ => h, by simp, le_refl _, ⟨[], by simp⟩, id⟩
    · rename_i h
      split
      · rename_i h2
        exact ⟨by simp, fun _ => ⟨Nat.lt_of_not_le h, h2⟩, le_refl _, ⟨[], by simp⟩, id⟩
      · obtain ⟨h1, h2, h3, ⟨more, h4⟩, h5⟩ := ih (wait 0 s)
        obtain ⟨more', hw⟩ := wait_rxq 0 s
        rw [wait_cfg, wait_t0] at h2
        rw [wait_cfg] at h5
        refine ⟨h1, h2, Nat.le_trans (wait_now_le 0 s) h3, ⟨more' ++ more, by rw [h4, hw, List.append_assoc]⟩, ?_⟩
        exact fun hd => h5 (wait_rxq_le hd)

/-- The same of AWAIT. -/
theorem awaitBytes_spec (n : Nat) (s : State) :
    ((awaitBytes n s).1 = true → n ≤ (awaitBytes n s).2.rxq.length) ∧
    ((awaitBytes n s).1 = false →
      (awaitBytes n s).2.rxq.length < n ∧ s.cfg.timeout ≤ (awaitBytes n s).2.now - s.t0) ∧
    s.now ≤ (awaitBytes n s).2.now ∧
    (∃ more, (awaitBytes n s).2.rxq = s.rxq ++ more) ∧
    (s.rxq.length ≤ s.cfg.rxDepth → (awaitBytes n s).2.rxq.length ≤ s.cfg.rxDepth) :=
  awaitLoop_spec n s.env s

/-- Availability is tested first: with enough bytes queued nothing changes (41_transport.md R141 (a)). -/
theorem awaitBytes_available {n : Nat} {s : State} (h : n ≤ s.rxq.length) : awaitBytes n s = (true, s) := by
  unfold awaitBytes
  cases s.env <;> simp [awaitLoop, h]

/-- A wait that is answered in time: while the moves left stay below TIMEOUT, the loop goes on until enough bytes are
queued, and uses up a part of those moves. -/
theorem awaitLoop_in_time (n : Nat) (ms rest : List EnvMove) (s : State) (he : s.env = ms ++ rest)
    (ht : s.now - s.t0 + totalTicks ms < s.cfg.timeout) (hp : s.t0 ≤ s.now)
    (hn : n ≤ (s.rxq ++ (allBytes ms).take (s.cfg.rxDepth - s.rxq.length)).length) :
    ∃ used left, ms = used ++ left ∧ (awaitLoop n (ms ++ rest) s).1 = true ∧
      (awaitLoop n (ms ++ rest) s).2.rxq = s.rxq ++ (allBytes used).take (s.cfg.rxDepth - s.rxq.length) ∧
      (awaitLoop n (ms ++ rest) s).2.env = left ++ rest ∧
      (awaitLoop n (ms ++ rest) s).2.now = s.now + totalTicks used := by
  induction ms generalizing s with
  | nil =>
    have h : n ≤ s.rxq.length := by simpa using hn
    refine ⟨[], [], rfl, ?_⟩
    have e : awaitLoop n ([] ++ rest) s = (true, s) := by cases rest <;> simp [awaitLoop, h]
    rw [e]
    simpa using he
  | cons m ms ih =>
    by_cases h : n ≤ s.rxq.length
    · refine ⟨[], m :: ms, rfl, ?_⟩
      have e : awaitLoop n (m :: ms ++ rest) s = (true, s) := by simp [awaitLoop, h]
      rw [e]
      simpa using he
    · rw [totalTicks_cons] at ht
      have h2 : ¬ s.cfg.timeout ≤ s.now - s.t0 := by omega
      have e : awaitLoop n (m :: ms ++ rest) s = awaitLoop n (ms ++ rest) (wait 0 s) := by
        rw [List.cons_append, awaitLoop, if_neg h, if_neg h2]
      have hw : wait 0 s = arriveAll m.bytes { s with now := s.now + 0 + m.ticks, env := ms ++ rest } := wait_cons he 0
      have hnow : (wait 0 s).now = s.now + m.ticks := by rw [hw]; simp
      have henv : (wait 0 s).env = ms ++ rest := by rw [hw]; simp
      have hrx : (wait 0 s).rxq = s.rxq ++ m.bytes.take (s.cfg.rxDepth - s.rxq.length) := by rw [hw, arriveAll_rxq]
      have hdrop : ∀ xs : List Byte, (wait 0 s).rxq ++ xs.take (s.cfg.rxDepth - (wait 0 s).rxq.length) =
          s.rxq ++ (m.bytes ++ xs).take (s.cfg.rxDepth - s.rxq.length) := by
        intro xs
        rw [hrx, List.take_append, List.append_assoc, List.length_append, List.length_take]
        congr 2
        by_cases hb : m.bytes.length ≤ s.cfg.rxDepth - s.rxq.length
        · congr 1
          omega
        · have z1 : s.cfg.rxDepth - (s.rxq.length + min (s.cfg.rxDepth - s.rxq.length) m.bytes.length) = 0 := by omega
          have z2 : s.cfg.rxDepth - s.rxq.length - m.bytes.length = 0 := by omega
          rw [z1, z2]
      obtain ⟨used, left, hu, h1, h3, h4, h5⟩ := ih (wait 0 s) henv
        (by rw [wait_cfg, wait_t0, hnow]; omega) (by rw [wait_t0, hnow]; omega)
        (by rw [wait_cfg, hdrop]; simpa using hn)
      rw [e]
      refine ⟨m :: used, left, by rw [hu]; rfl, h1, ?_, h4, ?_⟩
      · rw [h3, wait_cfg, hdrop, allBytes_cons]
      · rw [h5, hnow, totalTicks_cons]
        omega

/-- A wait for more bytes than come before TIMEOUT ends by a timeout, and consumes nothing (41_transport.md R141). -/
theorem awaitLoop_short (n : Nat) (ms rest : List EnvMove) (s : State) (he : s.env = ms ++ rest)
    (hr : rest = [] ∨ s.cfg.timeout ≤ s.now - s.t0 + totalTicks ms) (hp : s.t0 ≤ s.now)
    (hd : s.rxq.length + (allBytes ms).length ≤ s.cfg.rxDepth) (hn : s.rxq.length + (allBytes ms).length < n) :
    ∃ used left, ms = used ++ left ∧ (awaitLoop n (ms ++ rest) s).1 = false ∧
      (awaitLoop n (ms ++ rest) s).2.rxq = s.rxq ++ allBytes used ∧
      (awaitLoop n (ms ++ rest) s).2.env = left ++ rest := by
  have h : ¬ n ≤ s.rxq.length := by omega
  induction ms generalizing s with
  | nil =>
    refine ⟨[], [], rfl, ?_⟩
    cases rest with
    | nil => by_cases h2 : s.cfg.timeout ≤ s.now - s.t0 <;> simp [awaitLoop, h, h2, he]
    | cons m r =>
      have h2 : s.cfg.timeout ≤ s.now - s.t0 := by simpa using hr
      simpa [awaitLoop, h, h2] using he
  | cons m ms ih =>
    rw [totalTicks_cons] at hr
    rw [allBytes_cons, List.length_append] at hd hn
    by_cases h2 : s.cfg.timeout ≤ s.now - s.t0
    · refine ⟨[], m :: ms, rfl, ?_⟩
      simpa [awaitLoop, h, h2] using he
    · have e : awaitLoop n (m :: ms ++ rest) s = awaitLoop n (ms ++ rest) (wait 0 s) := by
        rw [List.cons_append, awaitLoop, if_neg h, if_neg h2]
      have hw : wait 0 s = arriveAll m.bytes { s with now := s.now + 0 + m.ticks, env := ms ++ rest } := wait_cons he 0
      have hnow : (wait 0 s).now = s.now + m.ticks := by rw [hw]; simp
      have hrx : (wait 0 s).rxq = s.rxq ++ m.bytes := by
        rw [hw, arriveAll_rxq]
        exact congrArg _ (List.take_of_length_le (by show _ ≤ s.cfg.rxDepth - s.rxq.length; omega))
      obtain ⟨used, left, hu, h1, h3, h4⟩ := ih (wait 0 s) (by rw [hw]; simp)
        (by rw [wait_cfg, wait_t0, hnow]; exact hr.imp_right (by omega)) (by rw [wait_t0, hnow]; omega)
        (by rw [wait_cfg, hrx, List.length_append]; omega) (by rw [hrx, List.length_append]; omega)
        (by rw [hrx, List.length_append]; omega)
      rw [e]
      exact ⟨m :: used, left, by rw [hu]; rfl, h1, by rw [h3, hrx, allBytes_cons, List.append_assoc], h4⟩

/-- The same of AWAIT. -/
theorem awaitBytes_short {n : Nat} {ms rest : List EnvMove} {s : State} (he : s.env = ms ++ rest)
    (hr : rest = [] ∨ s.cfg.timeout ≤ s.now - s.t0 + totalTicks ms) (hp : s.t0 ≤ s.now)
    (hd : s.rxq.length + (allBytes ms).length ≤ s.cfg.rxDepth) (hn : s.rxq.length + (allBytes ms).length < n) :
    ∃ used left, ms = used ++ left ∧ (awaitBytes n s).1 = false ∧ (awaitBytes n s).2.rxq = s.rxq ++ allBytes used ∧
      (awaitBytes n s).2.env = left ++ rest := by
  have h := awaitLoop_short n ms rest s he hr hp hd hn
  unfold awaitBytes
  rw [he]
  exact h

/-- The same of AWAIT. -/
theorem awaitBytes_in_time {n : Nat} {ms rest : List EnvMove} {s : State} (he : s.env = ms ++ rest)
    (ht : s.now - s.t0 + totalTicks ms < s.cfg.timeout) (hp : s.t0 ≤ s.now)
    (hn : n ≤ (s.rxq ++ (allBytes ms).take (s.cfg.rxDepth - s.rxq.length)).length) :
    ∃ used left, ms = used ++ left ∧ (awaitBytes n s).1 = true ∧
      (awaitBytes n s).2.rxq = s.rxq ++ (allBytes used).take (s.cfg.rxDepth - s.rxq.length) ∧
      (awaitBytes n s).2.env = left ++ rest ∧ (awaitBytes n s).2.now = s.now + totalTicks used := by
  have h := awaitLoop_in_time n ms rest s he ht hp hn
  unfold awaitBytes
  rw [he]
  exact h

end Sys2Proof.Machine
end

