-- ==== Sys2Proof/Laws/Poll.lean ====
section
/-! SUPPORT. What a poll can do, said once: which fields it leaves alone, how it can end, and that a valid frame that
arrives in time is taken. -/

namespace Sys2Proof.Machine

open Sys2Proof.Safety

@[simp] theorem pollFail_acc (c : Cause) (s : State) : (pollFail c s).2.acc = s.acc := rfl
@[simp] theorem pollFail_snap (c : Cause) (s : State) : (pollFail c s).2.snap = s.snap := rfl
@[simp] theorem pollFail_snapLen (c : Cause) (s : State) : (pollFail c s).2.snapLen = s.snapLen := rfl
@[simp] theorem pollFail_snapValid (c : Cause) (s : State) : (pollFail c s).2.snapValid = s.snapValid := rfl
@[simp] theorem pollFail_stage (c : Cause) (s : State) : (pollFail c s).2.stage = s.stage := rfl
@[simp] theorem pollFail_stageLen (c : Cause) (s : State) : (pollFail c s).2.stageLen = s.stageLen := rfl
@[simp] theorem pollFail_tmp (c : Cause) (s : State) : (pollFail c s).2.tmp = s.tmp := rfl
@[simp] theorem pollFail_rxq (c : Cause) (s : State) : (pollFail c s).2.rxq = s.rxq := rfl
@[simp] theorem pollFail_txs (c : Cause) (s : State) : (pollFail c s).2.txs = s.txs := rfl
@[simp] theorem pollFail_t0 (c : Cause) (s : State) : (pollFail c s).2.t0 = s.t0 := rfl
@[simp] theorem pollFail_now (c : Cause) (s : State) : (pollFail c s).2.now = s.now := rfl
@[simp] theorem pollFail_muted (c : Cause) (s : State) : (pollFail c s).2.muted = s.muted := rfl
@[simp] theorem pollFail_decode (c : Cause) (s : State) : (pollFail c s).2.decode = s.decode := rfl
@[simp] theorem pollFail_busy (c : Cause) (s : State) : (pollFail c s).2.busy = s.busy := rfl
@[simp] theorem pollFail_cfg (c : Cause) (s : State) : (pollFail c s).2.cfg = s.cfg := rfl
@[simp] theorem pollFail_result (c : Cause) (s : State) : (pollFail c s).2.result = s.result := rfl
@[simp] theorem pollFail_port (c : Cause) (s : State) : (pollFail c s).2.port = s.port := rfl
@[simp] theorem pollFail_env (c : Cause) (s : State) : (pollFail c s).2.env = s.env := rfl
@[simp] theorem pollFail_draws (c : Cause) (s : State) : (pollFail c s).2.draws = s.draws := rfl

@[simp] theorem pollCommit_acc (s : State) : (pollCommit s).2.acc = s.acc := rfl
@[simp] theorem pollCommit_stage (s : State) : (pollCommit s).2.stage = s.stage := rfl
@[simp] theorem pollCommit_stageLen (s : State) : (pollCommit s).2.stageLen = s.stageLen := rfl
@[simp] theorem pollCommit_tmp (s : State) : (pollCommit s).2.tmp = s.tmp := rfl
@[simp] theorem pollCommit_rxq (s : State) : (pollCommit s).2.rxq = s.rxq := rfl
@[simp] theorem pollCommit_txs (s : State) : (pollCommit s).2.txs = s.txs := rfl
@[simp] theorem pollCommit_t0 (s : State) : (pollCommit s).2.t0 = s.t0 := rfl
@[simp] theorem pollCommit_now (s : State) : (pollCommit s).2.now = s.now := rfl
@[simp] theorem pollCommit_muted (s : State) : (pollCommit s).2.muted = s.muted := rfl
@[simp] theorem pollCommit_decode (s : State) : (pollCommit s).2.decode = s.decode := rfl
@[simp] theorem pollCommit_busy (s : State) : (pollCommit s).2.busy = s.busy := rfl
@[simp] theorem pollCommit_cfg (s : State) : (pollCommit s).2.cfg = s.cfg := rfl
@[simp] theorem pollCommit_result (s : State) : (pollCommit s).2.result = s.result := rfl
@[simp] theorem pollCommit_port (s : State) : (pollCommit s).2.port = s.port := rfl
@[simp] theorem pollCommit_env (s : State) : (pollCommit s).2.env = s.env := rfl
@[simp] theorem pollCommit_draws (s : State) : (pollCommit s).2.draws = s.draws := rfl
@[simp] theorem pollCommit_cause (s : State) : (pollCommit s).2.cause = s.cause := rfl

@[simp] theorem pollValidate_tmp (s : State) : (pollValidate s).2.tmp = s.tmp := by unfold pollValidate; split <;> simp
@[simp] theorem pollValidate_muted (s : State) : (pollValidate s).2.muted = s.muted := by unfold pollValidate; split <;> simp
@[simp] theorem pollValidate_decode (s : State) : (pollValidate s).2.decode = s.decode := by unfold pollValidate; split <;> simp
@[simp] theorem pollValidate_busy (s : State) : (pollValidate s).2.busy = s.busy := by unfold pollValidate; split <;> simp
@[simp] theorem pollValidate_cfg (s : State) : (pollValidate s).2.cfg = s.cfg := by unfold pollValidate; split <;> simp
@[simp] theorem pollValidate_result (s : State) : (pollValidate s).2.result = s.result := by unfold pollValidate; split <;> simp
@[simp] theorem pollValidate_port (s : State) : (pollValidate s).2.port = s.port := by unfold pollValidate; split <;> simp
@[simp] theorem pollValidate_txs (s : State) : (pollValidate s).2.txs = s.txs := by unfold pollValidate; split <;> simp
@[simp] theorem pollValidate_t0 (s : State) : (pollValidate s).2.t0 = s.t0 := by unfold pollValidate; split <;> simp
@[simp] theorem pollValidate_now (s : State) : (pollValidate s).2.now = s.now := by unfold pollValidate; split <;> simp
@[simp] theorem pollValidate_rxq (s : State) : (pollValidate s).2.rxq = s.rxq := by unfold pollValidate; split <;> simp
@[simp] theorem pollValidate_env (s : State) : (pollValidate s).2.env = s.env := by unfold pollValidate; split <;> simp

@[simp] theorem pollPayload_tmp (l : Byte) (s : State) : (pollPayload l s).2.tmp = s.tmp := by unfold pollPayload; split <;> simp
@[simp] theorem pollPayload_muted (l : Byte) (s : State) : (pollPayload l s).2.muted = s.muted := by unfold pollPayload; split <;> simp
@[simp] theorem pollPayload_decode (l : Byte) (s : State) : (pollPayload l s).2.decode = s.decode := by unfold pollPayload; split <;> simp
@[simp] theorem pollPayload_busy (l : Byte) (s : State) : (pollPayload l s).2.busy = s.busy := by unfold pollPayload; split <;> simp
@[simp] theorem pollPayload_cfg (l : Byte) (s : State) : (pollPayload l s).2.cfg = s.cfg := by unfold pollPayload; split <;> simp
@[simp] theorem pollPayload_result (l : Byte) (s : State) : (pollPayload l s).2.result = s.result := by unfold pollPayload; split <;> simp
@[simp] theorem pollPayload_port (l : Byte) (s : State) : (pollPayload l s).2.port = s.port := by unfold pollPayload; split <;> simp
@[simp] theorem pollPayload_txs (l : Byte) (s : State) : (pollPayload l s).2.txs = s.txs := by unfold pollPayload; split <;> simp
@[simp] theorem pollPayload_t0 (l : Byte) (s : State) : (pollPayload l s).2.t0 = s.t0 := by unfold pollPayload; split <;> simp

@[simp] theorem pollHeader_tmp (s : State) : (pollHeader s).2.tmp = s.tmp := by unfold pollHeader; split <;> simp
@[simp] theorem pollHeader_muted (s : State) : (pollHeader s).2.muted = s.muted := by unfold pollHeader; split <;> simp
@[simp] theorem pollHeader_decode (s : State) : (pollHeader s).2.decode = s.decode := by unfold pollHeader; split <;> simp
@[simp] theorem pollHeader_busy (s : State) : (pollHeader s).2.busy = s.busy := by unfold pollHeader; split <;> simp
@[simp] theorem pollHeader_cfg (s : State) : (pollHeader s).2.cfg = s.cfg := by unfold pollHeader; split <;> simp
@[simp] theorem pollHeader_result (s : State) : (pollHeader s).2.result = s.result := by unfold pollHeader; split <;> simp
@[simp] theorem pollHeader_port (s : State) : (pollHeader s).2.port = s.port := by unfold pollHeader; split <;> simp
@[simp] theorem pollHeader_txs (s : State) : (pollHeader s).2.txs = s.txs := by unfold pollHeader; split <;> simp
@[simp] theorem pollHeader_t0 (s : State) : (pollHeader s).2.t0 = s.t0 := by unfold pollHeader; split <;> simp

@[simp] theorem pollBody_tmp (s : State) : (pollBody s).2.tmp = s.tmp := by simp only [pollBody]; split <;> simp
@[simp] theorem pollBody_muted (s : State) : (pollBody s).2.muted = s.muted := by simp only [pollBody]; split <;> simp
@[simp] theorem pollBody_decode (s : State) : (pollBody s).2.decode = s.decode := by simp only [pollBody]; split <;> simp
@[simp] theorem pollBody_busy (s : State) : (pollBody s).2.busy = s.busy := by simp only [pollBody]; split <;> simp
@[simp] theorem pollBody_cfg (s : State) : (pollBody s).2.cfg = s.cfg := by simp only [pollBody]; split <;> simp
@[simp] theorem pollBody_result (s : State) : (pollBody s).2.result = s.result := by simp only [pollBody]; split <;> simp
@[simp] theorem pollBody_port (s : State) : (pollBody s).2.port = s.port := by simp only [pollBody]; split <;> simp

/-- A poll transmits its request and nothing else (43_sequencer.md R181). -/
@[simp] theorem pollBody_txs (s : State) : (pollBody s).2.txs = s.txs ++ [s.cfg.opGetStatus] := by
  simp only [pollBody]; split <;> simp

/-- Every path of a poll ends with `seq` at Idle (43_sequencer.md R188). -/
theorem pollValidate_seq (s : State) : (pollValidate s).2.seq = .idle := by unfold pollValidate; split <;> rfl
theorem pollPayload_seq (l : Byte) (s : State) : (pollPayload l s).2.seq = .idle := by
  unfold pollPayload; split
  · exact pollValidate_seq _
  · rfl
theorem pollHeader_seq (s : State) : (pollHeader s).2.seq = .idle := by
  unfold pollHeader; split
  · rfl
  · exact pollPayload_seq _ _
@[simp] theorem pollBody_seq (s : State) : (pollBody s).2.seq = .idle := by
  simp only [pollBody]; split
  · exact pollHeader_seq _
  · rfl

/-- What the staging buffer reads after a header and the rest of a frame have been written into it. -/
theorem memRead_staged (m : Memory) (hdr body : List Byte) (h : hdr.length = 3) (i : Nat) (hi : i < body.length + 3) :
    memRead (memStore (memStore m 0 hdr) 3 body) i = (hdr ++ body)[i]? := by
  rw [memRead_memStore, memRead_memStore]
  by_cases h3 : 3 ≤ i
  · rw [if_pos (by omega), List.getElem?_append_right (by omega), h]
  · rw [if_neg (by omega), if_pos (by omega), List.getElem?_append_left (by omega)]
    simp

/-- Above a frame the staging buffer reads as before. -/
theorem memRead_staged_above (m : Memory) (hdr body : List Byte) (h : hdr.length = 3) (i : Nat)
    (hi : body.length + 3 ≤ i) : memRead (memStore (memStore m 0 hdr) 3 body) i = memRead m i := by
  rw [memRead_memStore, memRead_memStore, if_neg (by omega), if_neg (by omega)]

/-- A staged frame: what `pollValidate` finds when the staging buffer holds the bytes `fr` of the declared length. -/
theorem pollValidate_staged {s : State} {fr : List Byte} (hl : fr.length = s.stageLen)
    (hr : ∀ i, i < s.stageLen → memRead s.stage i = fr[i]?) :
    bufView s .stage s.stageLen = fr ∧ bufDraws s .stage s.stageLen = 0 := by
  refine ⟨memView_eq hl hr, memDraws_eq_zero ?_⟩
  intro i hi
  rw [hr i hi, List.getElem?_eq_getElem (by omega)]
  rfl

/-- The staged bytes after the header and the payload have been taken. -/
def stagedBytes (s1 s3 : State) : List Byte := s1.rxq.take 3 ++ s3.rxq.take ((headerLen s1).toNat + 1)

/-- How a poll unfolds once four bytes are queued: the staged bytes, their declared length, and the three ends. -/
theorem pollHeader_cases (s : State) (h4 : 4 ≤ s.rxq.length) :
    (s.cfg.bufCap < (headerLen s).toNat + 4 ∧ pollHeader s = pollFail .frameInvalid (takeHeader s)) ∨
    ((headerLen s).toNat + 4 ≤ s.cfg.bufCap ∧
      ((awaitBytes ((headerLen s).toNat + 1) (setSeq .awaitPayload (takeHeader s))).1 = false ∧
        pollHeader s =
          pollFail .timeout (awaitBytes ((headerLen s).toNat + 1) (setSeq .awaitPayload (takeHeader s))).2)) ∨
    ((headerLen s).toNat + 4 ≤ s.cfg.bufCap ∧
      ∃ s3 s4, s3 = (awaitBytes ((headerLen s).toNat + 1) (setSeq .awaitPayload (takeHeader s))).2 ∧
        (awaitBytes ((headerLen s).toNat + 1) (setSeq .awaitPayload (takeHeader s))).1 = true ∧
        s4 = takePayload (headerLen s) s3 ∧ (stagedBytes s s3).length = (headerLen s).toNat + 4 ∧
        byteAt (stagedBytes s s3) 2 = headerLen s ∧
        s4.stageLen = (headerLen s).toNat + 4 ∧
        (∀ i, i < (headerLen s).toNat + 4 → memRead s4.stage i = (stagedBytes s s3)[i]?) ∧
        (∀ i, (headerLen s).toNat + 4 ≤ i → memRead s4.stage i = memRead s.stage i) ∧
        (Memory.wf s.stage = true → Memory.wf s4.stage = true) ∧ s4.draws = s.draws ∧
        pollHeader s =
          (if statusValid (stagedBytes s s3) ((headerLen s).toNat + 4) = true then
            pollCommit (setAcc (lrcSum (stagedBytes s s3) ((headerLen s).toNat + 4)) s4)
          else pollFail .frameInvalid (setAcc (lrcSum (stagedBytes s s3) ((headerLen s).toNat + 4)) s4))) := by
  unfold pollHeader
  by_cases hc : s.cfg.bufCap < (headerLen s).toNat + frameOverhead
  · exact .inl ⟨hc, by rw [if_pos hc]⟩
  · rw [if_neg hc]
    right
    unfold pollPayload
    have hcap : (headerLen s).toNat + 4 ≤ s.cfg.bufCap := Nat.le_of_not_lt hc
    by_cases ha : (awaitBytes ((headerLen s).toNat + 1) (setSeq .awaitPayload (takeHeader s))).1 = true
    · right
      refine ⟨hcap, _, _, rfl, ha, rfl, ?_⟩
      rw [if_pos ha]
      generalize hs3 : (awaitBytes ((headerLen s).toNat + 1) (setSeq .awaitPayload (takeHeader s))).2 = s3
      have hlen3 : (headerLen s).toNat + 1 ≤ s3.rxq.length := by
        rw [← hs3]
        exact (awaitBytes_spec _ _).1 ha
      have hst : s3.stage = memStore s.stage 0 (s.rxq.take headerSize) := by
        rw [← hs3]
        simp
      have hsl : s3.stageLen = (headerLen s).toNat + 4 := by
        rw [← hs3]
        simp [frameOverhead]
      have hdr : s3.draws = s.draws := by
        rw [← hs3]
        simp
      have htk : (s.rxq.take 3).length = 3 := by
        rw [List.length_take]
        omega
      have hfl : (stagedBytes s s3).length = (headerLen s).toNat + 4 := by
        rw [stagedBytes, List.length_append, htk, List.length_take]
        omega
      have hbl : (s3.rxq.take ((headerLen s).toNat + 1)).length = (headerLen s).toNat + 1 := by
        rw [List.length_take]
        omega
      have hread : ∀ i, i < (headerLen s).toNat + 4 →
          memRead (takePayload (headerLen s) s3).stage i = (stagedBytes s s3)[i]? := by
        intro i hi
        rw [takePayload_stage, hst, stagedBytes]
        exact memRead_staged s.stage _ _ htk i (by omega)
      have habove : ∀ i, (headerLen s).toNat + 4 ≤ i →
          memRead (takePayload (headerLen s) s3).stage i = memRead s.stage i := by
        intro i hi
        rw [takePayload_stage, hst]
        exact memRead_staged_above s.stage _ _ htk i (by omega)
      have hwf : Memory.wf s.stage = true → Memory.wf (takePayload (headerLen s) s3).stage = true := by
        intro h
        rw [takePayload_stage, hst]
        exact memStore_wf (memStore_wf h _ _) _ _
      have hb2 : byteAt (stagedBytes s s3) 2 = headerLen s := by
        have e2 : s.rxq[2]? = some (s.rxq[2]'(by omega)) := List.getElem?_eq_getElem (by omega)
        have e3 : headerLen s = s.rxq[2]'(by omega) := byteAt_eq e2
        rw [e3]
        apply byteAt_eq
        rw [stagedBytes, List.getElem?_append_left (by omega), List.getElem?_take, if_pos (by omega), e2]
      have hsl4 : (takePayload (headerLen s) s3).stageLen = (headerLen s).toNat + 4 := by simpa using hsl
      refine ⟨hfl, hb2, hsl4, hread, habove, hwf, by simpa using hdr, ?_⟩
      obtain ⟨hv, hd⟩ := pollValidate_staged (s := takePayload (headerLen s) s3) (fr := stagedBytes s s3)
        (by rw [hsl4, hfl]) (by rw [hsl4]; exact hread)
      unfold pollValidate
      rw [lrcRun, afterView_of_held hd, hv, hsl4]
    · left
      rw [if_neg ha]
      exact ⟨hcap, by simpa using ha, rfl⟩

/-- How a poll ends: false with the snapshot as it was and a cause (60_exceptions.md R241, R242), or true with a valid
frame of at most BUF_CAP bytes in the snapshot (43_sequencer.md R187, R188). -/
structure PollEnd (s : State) (ok : Bool) (t : State) : Prop where
  /-- A poll reads no place that holds no value. -/
  draws : t.draws = s.draws
  /-- The request time is latched after the deadtime (43_sequencer.md R181). -/
  request : s.now + s.cfg.deadtime ≤ t.t0 ∧ t.t0 ≤ t.now
  queue : t.rxq.length ≤ s.cfg.rxDepth
  stageForm : Memory.wf s.stage = true → Memory.wf t.stage = true
  stageSize : 32 ≤ s.cfg.bufCap → Below s.stage s.cfg.bufCap → Below t.stage s.cfg.bufCap
  /-- Nothing is staged beyond the length of the frame being received (43_sequencer.md R183, R186). -/
  stageFrame : ∀ a, t.stageLen ≤ a → memRead t.stage a = memRead s.stage a
  failed : ok = false → t.snap = s.snap ∧ t.snapLen = s.snapLen ∧ t.snapValid = s.snapValid ∧
    ((t.cause = some .timeout ∧ t.t0 + s.cfg.timeout ≤ t.now) ∨ t.cause = some .frameInvalid)
  committed : ok = true → t.cause = s.cause ∧ ∃ p : List Byte, p.length ≤ 255 ∧ p.length + 4 ≤ s.cfg.bufCap ∧
    SnapshotIs t (frameOf p) ∧ t.acc = frameChecksum p ∧ t.stageLen = p.length + 4 ∧
    (Memory.wf s.stage = true → Memory.wf t.snap = true)

/-- A staging buffer with a stored range stays within its size. -/
theorem below_memStore {m : Memory} {n a : Nat} {bs : List Byte} (h : Below m n) (hb : a + bs.length ≤ n) :
    Below (memStore m a bs) n := by
  intro i hi
  rw [memRead_memStore, if_neg (by omega)]
  exact h i hi

/-- What a commit of staged bytes leaves in the snapshot. -/
theorem snapshotIs_pollCommit {s : State} {fr : List Byte} (hl : s.stageLen = fr.length)
    (hr : ∀ i, i < fr.length → memRead s.stage i = fr[i]?) : SnapshotIs (pollCommit s).2 fr := by
  refine ⟨rfl, hl, ?_⟩
  intro a
  show memRead (memBelow s.stage s.stageLen) a = fr[a]?
  rw [memRead_memBelow, hl]
  by_cases h : a < fr.length
  · rw [if_pos h, hr a h]
  · rw [if_neg h, List.getElem?_eq_none (by omega)]

/-- Every poll ends so. -/
theorem pollBody_end (s : State) : PollEnd s (pollBody s).1 (pollBody s).2 := by
  generalize hq : request [s.cfg.opGetStatus] s = q
  have hqrx : q.rxq = [] := by rw [← hq]; rfl
  have hqt0 : q.t0 = q.now := by rw [← hq]; rfl
  have hqnow : s.now + s.cfg.deadtime ≤ q.now := by
    rw [← hq, request_now]
    exact flushRx_now_le s
  have hqcfg : q.cfg = s.cfg := by rw [← hq]; simp
  have hqst : q.stage = s.stage := by rw [← hq]; simp
  have hqdr : q.draws = s.draws := by rw [← hq]; simp
  have hqsn : q.snap = s.snap ∧ q.snapLen = s.snapLen ∧ q.snapValid = s.snapValid ∧ q.cause = s.cause := by
    rw [← hq]; simp
  obtain ⟨hok, hto, hmono, -, hdep⟩ := awaitBytes_spec (headerSize + 1) q
  have hdep := hdep (by rw [hqrx]; simp)
  have hbody : pollBody s =
      if (awaitBytes (headerSize + 1) q).1 = true then pollHeader (awaitBytes (headerSize + 1) q).2
      else pollFail .timeout (awaitBytes (headerSize + 1) q).2 := by
    rw [← hq]
    rfl
  rw [hbody]
  generalize hs1 : awaitBytes (headerSize + 1) q = r at *
  obtain ⟨ok, s1⟩ := r
  have e_cfg : s1.cfg = s.cfg := by
    have := awaitBytes_cfg (headerSize + 1) q
    rw [hs1] at this
    exact this.trans hqcfg
  have e_st : s1.stage = s.stage := by
    have := awaitBytes_stage (headerSize + 1) q
    rw [hs1] at this
    exact this.trans hqst
  have e_dr : s1.draws = s.draws := by
    have := awaitBytes_draws (headerSize + 1) q
    rw [hs1] at this
    exact this.trans hqdr
  have e_sn : s1.snap = s.snap := by
    have := awaitBytes_snap (headerSize + 1) q
    rw [hs1] at this
    exact this.trans hqsn.1
  have e_sl : s1.snapLen = s.snapLen := by
    have := awaitBytes_snapLen (headerSize + 1) q
    rw [hs1] at this
    exact this.trans hqsn.2.1
  have e_sv : s1.snapValid = s.snapValid := by
    have := awaitBytes_snapValid (headerSize + 1) q
    rw [hs1] at this
    exact this.trans hqsn.2.2.1
  have e_ca : s1.cause = s.cause := by
    have := awaitBytes_cause (headerSize + 1) q
    rw [hs1] at this
    exact this.trans hqsn.2.2.2
  have e_t0 : s1.t0 = q.now := by
    have := awaitBytes_t0 (headerSize + 1) q
    rw [hs1] at this
    exact this.trans hqt0
  have hmono : q.now ≤ s1.now := hmono
  have hdep' : s1.rxq.length ≤ s.cfg.rxDepth := by
    have h := hdep
    rw [hqcfg] at h
    exact h
  cases ok with
  | false =>
    have ht := (hto rfl).2
    rw [hqcfg, hqt0] at ht
    have ht : s.cfg.timeout ≤ s1.now - q.now := ht
    refine ⟨?_, ?_, ?_, ?_, ?_, ?_, ?_, ?_⟩
    · simpa using e_dr
    · simp only [Bool.false_eq_true, if_false, pollFail_t0, pollFail_now]
      omega
    · simp only [Bool.false_eq_true, if_false, pollFail_rxq]
      exact hdep'
    · intro h
      simpa [e_st] using h
    · intro _ h
      simpa [e_st] using h
    · intro a _
      simp [e_st]
    · intro _
      refine ⟨by simpa using e_sn, by simpa using e_sl, by simpa using e_sv, .inl ⟨rfl, ?_⟩⟩
      simp only [Bool.false_eq_true, if_false, pollFail_t0, pollFail_now]
      omega
    · intro h
      simp [pollFail] at h
  | true =>
    have h4 : 4 ≤ s1.rxq.length := hok rfl
    have htk3 : (s1.rxq.take headerSize).length = 3 := by
      rw [List.length_take]
      simp only [headerSize]
      omega
    simp only [if_true]
    have hll := (headerLen s1).isLt
    rcases pollHeader_cases s1 h4 with ⟨-, he⟩ | ⟨-, hw, he⟩ | ⟨hcap, s3, s4, hs3, hw, hs4, hfl, hb2, hsl, hrd, hab, hwf, hdr4, he⟩
    · rw [he]
      refine ⟨by simpa using e_dr, ?_, ?_, ?_, ?_, ?_, ?_, ?_⟩
      · simp only [pollFail_t0, pollFail_now, takeHeader_t0, takeHeader_now]
        omega
      · simp only [pollFail_rxq, takeHeader_rxq, List.length_drop]
        omega
      · intro h
        simp only [pollFail_stage, takeHeader_stage]
        exact memStore_wf (by rw [e_st]; exact h) _ _
      · intro h32 h
        simp only [pollFail_stage, takeHeader_stage]
        exact below_memStore (by rw [e_st]; exact h) (by omega)
      · intro a ha
        simp only [pollFail_stage, pollFail_stageLen, takeHeader_stage, takeHeader_stageLen, frameOverhead] at ha ⊢
        rw [memRead_memStore, if_neg (by omega), e_st]
      · intro _
        exact ⟨by simpa using e_sn, by simpa using e_sl, by simpa using e_sv, .inr rfl⟩
      · intro h
        simp [pollFail] at h
    · obtain ⟨-, hto2, hmono2, -, hdep2⟩ := awaitBytes_spec ((headerLen s1).toNat + 1) (setSeq .awaitPayload (takeHeader s1))
      obtain ⟨-, ht2⟩ := hto2 hw
      simp only [setSeq_cfg, takeHeader_cfg, setSeq_t0, takeHeader_t0, setSeq_now, takeHeader_now, setSeq_rxq,
        takeHeader_rxq] at ht2 hmono2 hdep2
      have hd2 := hdep2 (by rw [List.length_drop, e_cfg]; omega)
      rw [he]
      refine ⟨by simpa using e_dr, ?_, ?_, ?_, ?_, ?_, ?_, ?_⟩
      · simp only [pollFail_t0, pollFail_now, awaitBytes_t0, setSeq_t0, takeHeader_t0]
        omega
      · rw [e_cfg] at hd2
        simpa using hd2
      · intro h
        simp only [pollFail_stage, awaitBytes_stage, setSeq_stage, takeHeader_stage]
        exact memStore_wf (by rw [e_st]; exact h) _ _
      · intro h32 h
        simp only [pollFail_stage, awaitBytes_stage, setSeq_stage, takeHeader_stage]
        exact below_memStore (by rw [e_st]; exact h) (by omega)
      · intro a ha
        simp only [pollFail_stage, pollFail_stageLen, awaitBytes_stage, awaitBytes_stageLen, setSeq_stage,
          setSeq_stageLen, takeHeader_stage, takeHeader_stageLen, frameOverhead] at ha ⊢
        rw [memRead_memStore, if_neg (by omega), e_st]
      · intro _
        refine ⟨by simpa using e_sn, by simpa using e_sl, by simpa using e_sv, .inl ⟨rfl, ?_⟩⟩
        simp only [pollFail_t0, pollFail_now, awaitBytes_t0, setSeq_t0, takeHeader_t0]
        rw [e_cfg] at ht2
        omega
      · intro h
        simp [pollFail] at h
    · obtain ⟨-, -, hmono2, -, hdep2⟩ := awaitBytes_spec ((headerLen s1).toNat + 1) (setSeq .awaitPayload (takeHeader s1))
      simp only [setSeq_cfg, takeHeader_cfg, setSeq_now, takeHeader_now, setSeq_rxq, takeHeader_rxq] at hmono2 hdep2
      have hd2 := hdep2 (by rw [List.length_drop, e_cfg]; omega)
      rw [← hs3] at hmono2 hd2
      have f_t0 : s4.t0 = q.now := by rw [hs4, hs3]; simpa using e_t0
      have f_now : s4.now = s3.now := by rw [hs4]; simp
      have f_rx : s4.rxq.length ≤ s.cfg.rxDepth := by
        rw [hs4, takePayload_rxq, List.length_drop, ← e_cfg]
        omega
      have f_sn : s4.snap = s.snap ∧ s4.snapLen = s.snapLen ∧ s4.snapValid = s.snapValid ∧ s4.cause = s.cause := by
        rw [hs4, hs3]
        simp [e_sn, e_sl, e_sv, e_ca]
      have f_below : 32 ≤ s.cfg.bufCap → Below s.stage s.cfg.bufCap → Below s4.stage s.cfg.bufCap := by
        intro _ h i hi
        rw [e_cfg] at hcap
        rw [hab i (by omega), e_st]
        exact h i hi
      have f_above : ∀ a, s4.stageLen ≤ a → memRead s4.stage a = memRead s.stage a := by
        intro a ha
        rw [hsl] at ha
        rw [hab a ha, e_st]
      have f_wf : Memory.wf s.stage = true → Memory.wf s4.stage = true := fun h => hwf (by rw [e_st]; exact h)
      rw [he]
      by_cases hv : statusValid (stagedBytes s1 s3) ((headerLen s1).toNat + 4) = true
      · rw [if_pos hv]
        obtain ⟨p, hp, hn, hfr⟩ := frame_of_statusValid hfl (by rw [hb2]) hv
        refine ⟨by simp [hdr4, e_dr], ?_, by simpa using f_rx, by simpa using f_wf, by simpa using f_below,
          by simpa using f_above, ?_, ?_⟩
        · simp only [pollCommit_t0, pollCommit_now, setAcc_t0, setAcc_now]
          omega
        · intro h
          simp [pollCommit] at h
        · intro _
          refine ⟨by simpa using f_sn.2.2.2, p, hp, by rw [e_cfg] at hcap; omega, ?_, ?_, ?_, ?_⟩
          · apply snapshotIs_pollCommit
            · show s4.stageLen = _
              rw [hsl, frameOf_length, hn]
            · intro i hi
              show memRead s4.stage i = _
              rw [frameOf_length, ← hn] at hi
              rw [hrd i hi, hfr]
          · show lrcSum (stagedBytes s1 s3) ((headerLen s1).toNat + 4) = _
            rw [hn, hfr, lrcSum_of_body (take_frameOf p)]
          · show s4.stageLen = _
            rw [hsl, hn]
          · intro h
            show Memory.wf (memBelow s4.stage s4.stageLen) = true
            exact memBelow_wf (f_wf h) _
      · rw [if_neg hv]
        refine ⟨by simp [hdr4, e_dr], ?_, by simpa using f_rx, by simpa using f_wf, by simpa using f_below,
          by simpa using f_above, ?_, ?_⟩
        · simp only [pollFail_t0, pollFail_now, setAcc_t0, setAcc_now]
          omega
        · intro _
          exact ⟨by simpa using f_sn.1, by simpa using f_sn.2.1, by simpa using f_sn.2.2.1, .inr rfl⟩
        · intro h
          simp [pollFail] at h

/-- Bytes of the declared length that arrive in time are staged and validated, however they are paced, and what follows
them stays in the queue (43_sequencer.md R181 to R187; 42_frame_codec.md R152). -/
theorem pollBody_timely {s : State} {ms rest : List EnvMove} {first : EnvMove} {fr extra : List Byte}
    (he : s.env = first :: (ms ++ rest)) (ht : totalTicks ms < s.cfg.timeout)
    (hfl4 : fr.length = (byteAt fr 2).toNat + 4) (hcap : fr.length ≤ s.cfg.bufCap) (hb : allBytes ms = fr ++ extra)
    (hd : (allBytes ms).length ≤ s.cfg.rxDepth) :
    ∃ s4 : State, s4.stageLen = fr.length ∧ (∀ a, a < fr.length → memRead s4.stage a = fr[a]?) ∧
      (∀ a, fr.length ≤ a → memRead s4.stage a = memRead s.stage a) ∧ LeftQueued s s4 ms fr.length ∧
      pollBody s =
        if statusValid fr fr.length = true then pollCommit (setAcc (lrcSum fr fr.length) s4)
        else pollFail .frameInvalid (setAcc (lrcSum fr fr.length) s4) := by
  obtain ⟨pl, hpl⟩ : ∃ pl, pl = (byteAt fr 2).toNat := ⟨_, rfl⟩
  have hfr : fr.length = pl + 4 := by rw [hpl]; exact hfl4
  generalize hq : request [s.cfg.opGetStatus] s = q
  have hqrx : q.rxq = [] := by rw [← hq]; rfl
  have hqt0 : q.t0 = q.now := by rw [← hq]; rfl
  have hqcfg : q.cfg = s.cfg := by rw [← hq]; simp
  have hqst : q.stage = s.stage := by rw [← hq]; simp
  have hqenv : q.env = ms ++ rest := by rw [← hq, request_env, he]; rfl
  have htotal : (allBytes ms).length = pl + 4 + extra.length := by rw [hb, List.length_append, hfr]
  obtain ⟨u1, l1, hms, hok, hrx, henv, hnow⟩ := awaitBytes_in_time (n := headerSize + 1) hqenv
    (by rw [hqt0, hqcfg]; omega) (by rw [hqt0]) (by
      rw [hqrx, hqcfg, List.nil_append, List.length_take]
      simp only [headerSize, List.length_nil]
      omega)
  have hbody : pollBody s = pollHeader (awaitBytes (headerSize + 1) q).2 := by
    have : pollBody s = if (awaitBytes (headerSize + 1) q).1 = true then pollHeader (awaitBytes (headerSize + 1) q).2
      else pollFail .timeout (awaitBytes (headerSize + 1) q).2 := by rw [← hq]; rfl
    rw [this, if_pos hok]
  have h4 := (awaitBytes_spec (headerSize + 1) q).1 hok
  rw [hbody]
  have c1 := awaitBytes_cfg (headerSize + 1) q
  have c2 := awaitBytes_stage (headerSize + 1) q
  have c3 := awaitBytes_t0 (headerSize + 1) q
  generalize (awaitBytes (headerSize + 1) q).2 = s1 at *
  have hms_bytes : allBytes ms = allBytes u1 ++ allBytes l1 := by rw [hms, allBytes_append]
  have hms_ticks : totalTicks ms = totalTicks u1 + totalTicks l1 := by rw [hms, totalTicks_append]
  have hlen_ms : (allBytes ms).length = (allBytes u1).length + (allBytes l1).length := by
    rw [hms_bytes, List.length_append]
  have hrx1 : s1.rxq = allBytes u1 := by
    rw [hrx, hqrx, hqcfg, List.nil_append, List.take_of_length_le]
    simp only [List.length_nil]
    omega
  have h4 : 4 ≤ s1.rxq.length := h4
  have hu4 : 4 ≤ (allBytes u1).length := by rw [← hrx1]; exact h4
  have hl : (headerLen s1).toNat = pl := by
    have e0 : fr[2]? = some (fr[2]'(by omega)) := List.getElem?_eq_getElem (by omega)
    have e1 : (allBytes ms)[2]? = some (fr[2]'(by omega)) := by
      rw [hb, List.getElem?_append_left (by omega), e0]
    rw [hms_bytes, List.getElem?_append_left (by omega)] at e1
    rw [headerLen, lenOff, hrx1, byteAt_eq e1, ← byteAt_eq e0]
    exact hpl.symm
  have hwait : ∃ u2 l2, l1 = u2 ++ l2 ∧
      (awaitBytes ((headerLen s1).toNat + 1) (setSeq .awaitPayload (takeHeader s1))).1 = true ∧
      (awaitBytes ((headerLen s1).toNat + 1) (setSeq .awaitPayload (takeHeader s1))).2.rxq =
        (allBytes u1).drop 3 ++ allBytes u2 ∧
      (awaitBytes ((headerLen s1).toNat + 1) (setSeq .awaitPayload (takeHeader s1))).2.env = l2 ++ rest := by
    have hfull : (allBytes l1).take (s.cfg.rxDepth - ((allBytes u1).drop 3).length) = allBytes l1 := by
      apply List.take_of_length_le
      rw [List.length_drop]
      omega
    have hrx2 : (setSeq .awaitPayload (takeHeader s1)).rxq = (allBytes u1).drop 3 := by
      simp [hrx1, headerSize]
    obtain ⟨u2, l2, hl1, hok2, hrx3, henv3, -⟩ := awaitBytes_in_time (n := (headerLen s1).toNat + 1)
      (s := setSeq .awaitPayload (takeHeader s1)) (ms := l1) (rest := rest)
      (by simpa using henv)
      (by simp only [setSeq_now, takeHeader_now, setSeq_t0, takeHeader_t0, setSeq_cfg, takeHeader_cfg, c1, hqcfg]
          rw [hnow, c3, hqt0]; omega)
      (by simp only [setSeq_now, takeHeader_now, setSeq_t0, takeHeader_t0]; rw [hnow, c3, hqt0]; omega)
      (by rw [hrx2]
          simp only [setSeq_cfg, takeHeader_cfg, c1, hqcfg]
          rw [hfull, hl, List.length_append, List.length_drop]
          omega)
    refine ⟨u2, l2, hl1, hok2, ?_, henv3⟩
    rw [hrx3, hrx2]
    simp only [setSeq_cfg, takeHeader_cfg, c1, hqcfg]
    congr 1
    apply List.take_of_length_le
    have : (allBytes l1).length = (allBytes u2).length + (allBytes l2).length := by
      rw [hl1, allBytes_append, List.length_append]
    rw [List.length_drop]
    omega
  obtain ⟨u2, l2, hl1, hok2, hrx3, henv3⟩ := hwait
  rcases pollHeader_cases s1 h4 with ⟨hbad, -⟩ | ⟨-, hbad, -⟩ | ⟨-, s3, s4, hs3, -, hs4, hfl, -, hsl, hrd, hab, -, -, hend⟩
  · rw [hl, c1, hqcfg] at hbad
    omega
  · rw [hok2] at hbad
    exact absurd hbad (by simp)
  · rw [← hs3] at hrx3 henv3
    have hready := (awaitBytes_spec ((headerLen s1).toNat + 1) (setSeq .awaitPayload (takeHeader s1))).1 hok2
    rw [← hs3, hrx3, hl, List.length_append, List.length_drop] at hready
    have hall : fr ++ extra = (allBytes u1 ++ allBytes u2) ++ allBytes l2 := by
      rw [← hb, hms_bytes, hl1, allBytes_append, List.append_assoc]
    have hpre : fr = (allBytes u1 ++ allBytes u2).take (pl + 4) := by
      have e : (fr ++ extra).take (pl + 4) = fr := by
        rw [List.take_append_of_le_length (by omega), List.take_of_length_le (by omega)]
      rw [hall, List.take_append_of_le_length (by rw [List.length_append]; omega)] at e
      exact e.symm
    have hdropped : (allBytes u1).drop 3 ++ allBytes u2 = (allBytes u1 ++ allBytes u2).drop 3 := by
      rw [List.drop_append_of_le_length (by omega)]
    have htaken : (allBytes u1).take 3 = (allBytes u1 ++ allBytes u2).take 3 := by
      rw [List.take_append_of_le_length (by omega)]
    have hstaged : stagedBytes s1 s3 = fr := by
      rw [stagedBytes, hrx1, hrx3, hl, hdropped, htaken, hpre]
      generalize allBytes u1 ++ allBytes u2 = xs
      exact (show pl + 4 = 3 + (pl + 1) by omega) ▸ (List.take_add (l := xs) (i := 3) (j := pl + 1)).symm
    have hleft : LeftQueued s s4 ms (pl + 4) := by
      refine ⟨u1 ++ u2, ⟨l2, by rw [hms, hl1, List.append_assoc]⟩, ?_, ?_⟩
      · rw [he, List.tail_cons, hs4, takePayload_env, henv3, hms, hl1]
        simp only [List.append_assoc]
      · rw [hs4, takePayload_rxq, hrx3, hl, hdropped, List.drop_drop, allBytes_append]
        congr 1
        omega
    rw [hl] at hsl hrd hab hend
    rw [hstaged] at hend hrd
    rw [hfr]
    refine ⟨s4, hsl, fun a ha => hrd a ha, ?_, hleft, hend⟩
    intro a ha
    rw [hab a ha, c2, hqst]

/-- A valid frame that arrives in time is taken, however it is paced, and what follows it stays in the queue
(43_sequencer.md R181 to R187). -/
theorem pollBody_in_time {s : State} {ms rest : List EnvMove} {first : EnvMove} {p extra : List Byte}
    (he : s.env = first :: (ms ++ rest)) (ht : totalTicks ms < s.cfg.timeout) (hp : p.length ≤ 255)
    (hcap : p.length + 4 ≤ s.cfg.bufCap) (hb : allBytes ms = frameOf p ++ extra)
    (hd : (allBytes ms).length ≤ s.cfg.rxDepth) :
    (pollBody s).1 = true ∧ SnapshotIs (pollBody s).2 (frameOf p) ∧ LeftQueued s (pollBody s).2 ms (p.length + 4) ∧
      ∀ a, memRead (pollBody s).2.stage a = if a < p.length + 4 then (frameOf p)[a]? else memRead s.stage a := by
  have hlen := frameOf_length p
  obtain ⟨s4, h1, h2, h3, h4, h6⟩ := pollBody_timely he ht (by rw [frameOf_len_byte hp, hlen])
    (by rw [hlen]; exact hcap) hb hd
  rw [hlen, if_pos (statusValid_frameOf p)] at h6
  rw [h6]
  refine ⟨rfl, snapshotIs_pollCommit h1 h2, hlen ▸ h4, ?_⟩
  intro a
  show memRead s4.stage a = _
  by_cases ha : a < p.length + 4
  · rw [if_pos ha, h2 a (by rw [hlen]; exact ha)]
  · rw [if_neg ha, h3 a (by rw [hlen]; omega)]

end Sys2Proof.Machine
end

