-- ==== Sys2Proof/Laws/Exchange.lean ====
section
/-! SUPPORT. What the other exchanges can do, said once: a poll on a silent link, the probe, the single-byte command, the
register write and the field read after their poll. -/

namespace Sys2Proof.Machine

open Sys2Proof.Safety

/-! ## Discard instants -/

@[simp] theorem flushCount_append (a b : List Event) : flushCount (a ++ b) = flushCount a + flushCount b := by
  simp [flushCount]

@[simp] theorem flushCount_nil : flushCount [] = 0 := rfl
@[simp] theorem flushCount_seqTo (q : Seq) (h : List Event) : flushCount (.seqTo q :: h) = flushCount h := rfl
@[simp] theorem flushCount_popped (bs : List Byte) (h : List Event) : flushCount (.popped bs :: h) = flushCount h := rfl
@[simp] theorem flushCount_sent (bs : List Byte) (h : List Event) : flushCount (.sent bs :: h) = flushCount h := rfl

@[simp] theorem awaitLoop_flushCount (n : Nat) (ms : List EnvMove) (s : State) :
    flushCount (awaitLoop n ms s).2.hist = flushCount s.hist := by
  induction ms generalizing s with
  | nil => unfold awaitLoop; split <;> [rfl; split <;> rfl]
  | cons m ms ih => unfold awaitLoop; split <;> [rfl; split <;> [rfl; simp [ih]]]

@[simp] theorem awaitBytes_flushCount (n : Nat) (s : State) :
    flushCount (awaitBytes n s).2.hist = flushCount s.hist := awaitLoop_flushCount n s.env s

/-- A request flushes once (41_transport.md R144). -/
theorem request_flushCount (bs : List Byte) (s : State) :
    flushCount (request bs s).hist = flushCount s.hist + 1 := by
  have h := transmit_flushCount bs s
  simp only [request, setSeq_hist, latchRequest_hist, flushCount_append, flushCount_seqTo,
    flushCount_nil, h, Nat.add_zero]

theorem pollValidate_flushCount (s : State) : flushCount (pollValidate s).2.hist = flushCount s.hist := by
  unfold pollValidate pollCommit pollFail; split <;> simp

theorem pollPayload_flushCount (l : Byte) (s : State) : flushCount (pollPayload l s).2.hist = flushCount s.hist := by
  unfold pollPayload; split
  · rw [pollValidate_flushCount]; simp
  · simp [pollFail]

theorem pollHeader_flushCount (s : State) : flushCount (pollHeader s).2.hist = flushCount s.hist := by
  unfold pollHeader; split
  · simp [pollFail]
  · rw [pollPayload_flushCount]; simp

/-- A poll flushes once. -/
theorem pollBody_flushCount (s : State) : flushCount (pollBody s).2.hist = flushCount s.hist + 1 := by
  rw [← request_flushCount [s.cfg.opGetStatus] s]
  simp only [pollBody]; split
  · rw [pollHeader_flushCount]; simp
  · simp [pollFail]

/-! ## A silent link -/

/-- With no byte to come a wait brings none. -/
theorem awaitLoop_silent (n : Nat) (ms : List EnvMove) (s : State) (he : s.env = ms) (hs : allBytes ms = []) :
    (awaitLoop n ms s).2.rxq = s.rxq ∧ allBytes (awaitLoop n ms s).2.env = [] := by
  induction ms generalizing s with
  | nil => unfold awaitLoop; split <;> [simp [he]; split <;> simp [he]]
  | cons m ms ih =>
    rw [allBytes_cons, List.append_eq_nil_iff] at hs
    unfold awaitLoop; split
    · simp [he, hs.1, hs.2]
    · split
      · simp [he, hs.1, hs.2]
      · have hw := wait_cons he 0
        rw [hs.1] at hw
        have h := ih (wait 0 s) (by rw [hw]; rfl) hs.2
        rw [hw] at h ⊢
        exact h

/-- On a silent link every request of a byte or more times out, with nothing queued. -/
theorem request_silent {bs : List Byte} {s : State} (h : SilentLink s) {n : Nat} (hn : 0 < n) :
    (awaitBytes n (request bs s)).1 = false ∧ (awaitBytes n (request bs s)).2.rxq = [] := by
  have he : allBytes (request bs s).env = [] := by
    rw [request_env]
    unfold SilentLink at h
    cases hs : s.env with
    | nil => rfl
    | cons m ms =>
      rw [hs, allBytes_cons, List.append_eq_nil_iff] at h
      exact h.2
  have hq : (awaitBytes n (request bs s)).2.rxq = [] := by
    rw [awaitBytes, (awaitLoop_silent n _ _ rfl he).1]
    rfl
  refine ⟨?_, hq⟩
  by_contra hc
  have := (awaitBytes_spec n (request bs s)).1 (by simpa using hc)
  rw [hq] at this
  simp at this
  omega

/-- A poll on a silent link fails in its header wait. -/
theorem pollBody_silent {s : State} (h : SilentLink s) :
    pollBody s = pollFail .timeout (awaitBytes (headerSize + 1) (request [s.cfg.opGetStatus] s)).2 := by
  have h1 := (request_silent (bs := [s.cfg.opGetStatus]) h (n := headerSize + 1) (by decide)).1
  simp only [pollBody, h1]
  rfl

/-! ## An exchange in time, and one that is too short -/

/-- What a wait for n bytes after a request finds when `bs` comes in time: a part of `bs` with at least n bytes. -/
theorem request_in_time {op bs : List Byte} {s : State} {ms : List EnvMove} {n : Nat} (h : Brings s ms bs)
    (hn : n ≤ bs.length) :
    (awaitBytes n (request op s)).1 = true ∧ LeftQueued s (awaitBytes n (request op s)).2 ms 0 ∧
      ∃ k, (awaitBytes n (request op s)).2.rxq = bs.take k ∧ n ≤ k ∧ k ≤ bs.length := by
  obtain ⟨⟨ht, first, rest, he⟩, hb, hd⟩ := h
  generalize hq : request op s = q
  have hqrx : q.rxq = [] := by rw [← hq]; rfl
  have hqt0 : q.t0 = q.now := by rw [← hq]; rfl
  have hqcfg : q.cfg = s.cfg := by rw [← hq]; simp
  have hqenv : q.env = ms ++ rest := by rw [← hq, request_env, he]; rfl
  obtain ⟨u, l, hms, hok, hrx, henv, -⟩ := awaitBytes_in_time (n := n) hqenv (by rw [hqt0, hqcfg]; omega) (by rw [hqt0])
    (by rw [hqrx, hqcfg, hb, List.nil_append, List.length_take, List.length_nil]; omega)
  have hlen : bs = allBytes u ++ allBytes l := by rw [← hb, hms, allBytes_append]
  have hlen2 : bs.length = (allBytes u).length + (allBytes l).length := by rw [hlen, List.length_append]
  have hu : (awaitBytes n q).2.rxq = allBytes u := by
    rw [hrx, hqrx, hqcfg, List.nil_append, List.take_of_length_le]
    rw [List.length_nil]
    omega
  refine ⟨hok, ⟨u, ⟨l, hms.symm⟩, by rw [he, henv, hms]; simp, by simp [hu]⟩, (allBytes u).length, ?_, ?_, by omega⟩
  · rw [hu, hlen, List.take_left']
    rfl
  · rw [← hu]
    exact (awaitBytes_spec n q).1 hok

/-- What a wait for n bytes after a request finds when fewer come before TIMEOUT: it fails, and they stay queued
(60_exceptions.md R241). -/
theorem request_short {op bs : List Byte} {s : State} {ms : List EnvMove} {n : Nat} (h : BringsOnly s ms bs)
    (hn : bs.length < n) :
    (awaitBytes n (request op s)).1 = false ∧ LeftQueued s (awaitBytes n (request op s)).2 ms 0 := by
  obtain ⟨⟨rest, he, hr⟩, hb, hd⟩ := h
  generalize hq : request op s = q
  have hqrx : q.rxq = [] := by rw [← hq]; rfl
  have hqt0 : q.t0 = q.now := by rw [← hq]; rfl
  have hqcfg : q.cfg = s.cfg := by rw [← hq]; simp
  have hqenv : q.env = ms ++ rest := by rw [← hq, request_env, he]
  obtain ⟨u, l, hms, hok, hrx, henv⟩ := awaitBytes_short (n := n) hqenv
    (by rw [hqt0, hqcfg]; exact hr.imp_right (by omega)) (by rw [hqt0]) (by rw [hqrx, hqcfg, hb, List.length_nil]; omega)
    (by rw [hqrx, hb, List.length_nil]; omega)
  exact ⟨hok, u, ⟨l, hms.symm⟩, by rw [he, henv, hms]; simp, by simp [hrx, hqrx]⟩

/-- A poll whose header never comes whole fails by a timeout, and what came stays queued (60_exceptions.md R241). -/
theorem pollBody_short {s : State} {ms : List EnvMove} {bs : List Byte} (h : BringsOnly s ms bs) (hn : bs.length < 4) :
    LeftQueued s (pollBody s).2 ms 0 ∧
      pollBody s = pollFail .timeout (awaitBytes (headerSize + 1) (request [s.cfg.opGetStatus] s)).2 := by
  obtain ⟨h1, h2⟩ := request_short (op := [s.cfg.opGetStatus]) (n := headerSize + 1) h hn
  have e : pollBody s = pollFail .timeout (awaitBytes (headerSize + 1) (request [s.cfg.opGetStatus] s)).2 := by
    simp only [pollBody, h1]
    rfl
  exact ⟨by rw [e]; exact h2, e⟩

/-- With four bytes queued the header wait is over, and the header is read. -/
theorem pollBody_header {s : State}
    (h : (awaitBytes (headerSize + 1) (request [s.cfg.opGetStatus] s)).1 = true) :
    pollBody s = pollHeader (awaitBytes (headerSize + 1) (request [s.cfg.opGetStatus] s)).2 := by
  simp only [pollBody, h, if_true]

/-- A poll whose header comes in time and whose payload never comes whole fails by a timeout with the header staged, and
the payload's bytes stay queued (43_sequencer.md R185, 60_exceptions.md R241). -/
theorem pollBody_short_payload {s : State} {ms more : List EnvMove} {a b l : Byte} {bs bs' : List Byte}
    (h : Brings s ms (a :: b :: l :: bs)) (hm : bs ≠ []) (h' : BringsOnly s (ms ++ more) bs')
    (hcap : l.toNat + 4 ≤ s.cfg.bufCap) (hn : bs'.length < l.toNat + 4) :
    ∃ r, pollBody s = pollFail .timeout r ∧ LeftQueued s r (ms ++ more) 3 ∧ r.stageLen = l.toNat + 4 ∧
      (∀ k, memRead r.stage k = if k < 3 then [a, b, l][k]? else memRead s.stage k) ∧ r.snap = s.snap ∧
      r.snapLen = s.snapLen ∧ r.snapValid = s.snapValid ∧ r.acc = s.acc ∧ r.draws = s.draws := by
  obtain ⟨hok, -, -⟩ := request_in_time (op := [s.cfg.opGetStatus]) (n := 4) h (by
    have := List.length_pos_iff.2 hm
    simp only [List.length_cons]
    omega)
  obtain ⟨⟨ht, first, rest', he⟩, hb, hd⟩ := h
  obtain ⟨⟨rest, he', hr⟩, hb', hd'⟩ := h'
  have hrest : rest' = more ++ rest := by
    rw [he, List.tail_cons, List.append_assoc] at he'
    exact List.append_cancel_left he'
  have hlen : 4 ≤ (allBytes ms).length := by
    have := List.length_pos_iff.2 hm
    rw [hb]
    simp only [List.length_cons]
    omega
  rw [pollBody_header hok]
  generalize hq : request [s.cfg.opGetStatus] s = q at hok ⊢
  have hqrx : q.rxq = [] := by rw [← hq]; rfl
  have hqt0 : q.t0 = q.now := by rw [← hq]; rfl
  have hqcfg : q.cfg = s.cfg := by rw [← hq]; simp
  have hqenv : q.env = ms ++ rest' := by rw [← hq, request_env, he]; rfl
  have hqs : q.stage = s.stage ∧ q.snap = s.snap ∧ q.snapLen = s.snapLen ∧ q.snapValid = s.snapValid ∧
      q.acc = s.acc ∧ q.draws = s.draws := by rw [← hq]; simp
  obtain ⟨u, l1, hms, -, hrx, henv, hnow⟩ := awaitBytes_in_time (n := 4) hqenv
    (by rw [hqt0, hqcfg]; omega) (by rw [hqt0])
    (by rw [hqrx, hqcfg, List.nil_append, List.length_take, hb, List.length_nil]; rw [hb] at hlen; omega)
  have h4 := (awaitBytes_spec 4 q).1 hok
  have hlms : (allBytes ms).length = (allBytes u).length + (allBytes l1).length := by
    rw [hms, allBytes_append, List.length_append]
  have hrx : (awaitBytes 4 q).2.rxq = allBytes u := by
    rw [hrx, hqrx, hqcfg, List.nil_append, List.take_of_length_le]
    rw [hb] at hlms
    rw [List.length_nil]
    omega
  rw [hrx] at h4
  have hpre : ∀ k, k < 3 → (allBytes u)[k]? = [a, b, l][k]? := by
    intro k hk
    have e : (allBytes ms)[k]? = (allBytes u)[k]? := by
      rw [hms, allBytes_append, List.getElem?_append_left (by omega)]
    rw [← e, hb]
    match k, hk with
    | 0, _ => rfl
    | 1, _ => rfl
    | 2, _ => rfl
  have hhl : headerLen (awaitBytes 4 q).2 = l := by
    rw [headerLen, hrx]
    exact byteAt_eq (hpre 2 (by omega))
  have hw := awaitBytes_short (n := l.toNat + 1) (s := setSeq .awaitPayload (takeHeader (awaitBytes 4 q).2))
    (ms := l1 ++ more) (rest := rest)
    (by rw [setSeq_env, takeHeader_env, henv, hrest, List.append_assoc])
    (by
      simp only [setSeq_cfg, takeHeader_cfg, setSeq_now, takeHeader_now, setSeq_t0, takeHeader_t0, awaitBytes_cfg,
        awaitBytes_t0, hnow, hqcfg, hqt0]
      rw [hms, totalTicks_append, totalTicks_append] at hr
      rw [totalTicks_append]
      exact hr.imp_right (by omega))
    (by
      simp only [setSeq_now, takeHeader_now, setSeq_t0, takeHeader_t0, awaitBytes_t0, hnow, hqt0]
      omega)
    (by
      simp only [setSeq_rxq, takeHeader_rxq, setSeq_cfg, takeHeader_cfg, awaitBytes_cfg, hrx, hqcfg, List.length_drop]
      have := congrArg List.length hb'
      rw [hms] at this
      simp only [allBytes_append, List.length_append] at this ⊢
      omega)
    (by
      simp only [setSeq_rxq, takeHeader_rxq, hrx, List.length_drop, headerSize]
      have := congrArg List.length hb'
      rw [hms] at this
      simp only [allBytes_append, List.length_append] at this ⊢
      omega)
  obtain ⟨u2, l2, hl1, hto, hrx2, henv2⟩ := hw
  have hwf : (takeHeader (awaitBytes 4 q).2).stage = memStore s.stage 0 ((allBytes u).take 3) := by
    rw [takeHeader_stage, awaitBytes_stage, hqs.1, hrx]
    rfl
  refine ⟨(awaitBytes (l.toNat + 1) (setSeq .awaitPayload (takeHeader (awaitBytes 4 q).2))).2, ?_,
    ⟨u ++ u2, ⟨l2, by rw [hms, List.append_assoc, ← hl1, List.append_assoc]⟩, ?_, ?_⟩, ?_, ?_, by simp [hqs], by simp [hqs], by simp [hqs],
    by simp [hqs], by simp [hqs]⟩
  · have hc : ¬ (awaitBytes 4 q).2.cfg.bufCap < l.toNat + frameOverhead := by
      rw [awaitBytes_cfg, hqcfg]
      exact Nat.not_lt.2 hcap
    show pollHeader (awaitBytes 4 q).2 = _
    rw [pollHeader, hhl, if_neg hc, pollPayload, if_neg (by rw [hto]; simp)]
  · rw [he', henv2, hms, List.append_assoc, List.append_assoc, List.append_assoc, ← List.append_assoc l1, hl1,
      List.append_assoc]
  · rw [hrx2, setSeq_rxq, takeHeader_rxq, hrx, allBytes_append, List.drop_append_of_le_length (by omega)]
    rfl
  · simp only [awaitBytes_stageLen, setSeq_stageLen, takeHeader_stageLen, hhl]
    rfl
  · intro k
    rw [awaitBytes_stage, setSeq_stage, hwf, memRead_memStore, List.length_take, Nat.min_eq_left (by omega)]
    by_cases hk : k < 3
    · rw [if_pos (by omega), if_pos hk, Nat.sub_zero, List.getElem?_take, if_pos hk, hpre k hk]
    · rw [if_neg (by omega), if_neg hk]

/-! ## The moves of `seq` -/

theorem request_seqMoves (bs : List Byte) (s : State) :
    seqMoves (request bs s).hist = seqMoves s.hist ++ [.awaitHeader] := by
  rw [request, setSeq_hist, latchRequest_hist, seqMoves_append, transmit_seqMoves]
  rfl

/-- The moves of `seq` in a poll, and which of its ends takes which (43_sequencer.md R189). -/
theorem pollBody_path (s : State) :
    ((pollBody s).1 = true ∧
      seqMoves (pollBody s).2.hist = seqMoves s.hist ++ [.awaitHeader, .awaitPayload, .valid, .idle]) ∨
    ((pollBody s).1 = false ∧ seqMoves (pollBody s).2.hist = seqMoves s.hist ++ [.awaitHeader, .failed, .idle] ∧
      ((pollBody s).2.cause = some .timeout ∧ (pollBody s).2.stageLen = s.stageLen ∨
        (pollBody s).2.cause = some .frameInvalid ∧ s.cfg.bufCap < (pollBody s).2.stageLen)) ∨
    ((pollBody s).1 = false ∧
      seqMoves (pollBody s).2.hist = seqMoves s.hist ++ [.awaitHeader, .awaitPayload, .failed, .idle] ∧
      (pollBody s).2.stageLen ≤ s.cfg.bufCap ∧
      ((pollBody s).2.cause = some .timeout ∨ (pollBody s).2.cause = some .frameInvalid)) := by
  have hfail : ∀ (c : Cause) (r : State), seqMoves (pollFail c r).2.hist = seqMoves r.hist ++ [.failed, .idle] := by
    intro c r
    simp only [pollFail, setSeq_hist, noteFailure_hist, seqMoves_append, List.append_assoc]
    rfl
  have hcommit : ∀ r : State, seqMoves (pollCommit r).2.hist = seqMoves r.hist ++ [.valid, .idle] := by
    intro r
    simp only [pollCommit, setSeq_hist, seqMoves_append, List.append_assoc]
    rfl
  by_cases h : (awaitBytes (headerSize + 1) (request [s.cfg.opGetStatus] s)).1 = true
  · rw [pollBody_header h]
    generalize hr : (awaitBytes (headerSize + 1) (request [s.cfg.opGetStatus] s)).2 = r
    have h1 : seqMoves r.hist = seqMoves s.hist ++ [.awaitHeader] := by
      rw [← hr, awaitBytes_seqMoves, request_seqMoves]
    have h2 : r.cfg = s.cfg := by rw [← hr]; simp
    have h3 : seqMoves (takeHeader r).hist = seqMoves s.hist ++ [.awaitHeader] := by
      rw [takeHeader_hist, seqMoves_append, h1, List.append_assoc]
      rfl
    unfold pollHeader
    rw [h2]
    split
    · rename_i hc
      refine .inr (.inl ⟨rfl, ?_, .inr ⟨rfl, ?_⟩⟩)
      · rw [hfail, h3, List.append_assoc]
        rfl
      · simpa using hc
    · rename_i hc
      have h4 : ∀ n, seqMoves (awaitBytes n (setSeq .awaitPayload (takeHeader r))).2.hist =
          seqMoves s.hist ++ [.awaitHeader, .awaitPayload] := by
        intro n
        rw [awaitBytes_seqMoves, setSeq_hist, seqMoves_append, h3, List.append_assoc]
        rfl
      have h5 : (headerLen r).toNat + frameOverhead ≤ s.cfg.bufCap := Nat.not_lt.1 hc
      unfold pollPayload
      split
      · unfold pollValidate
        split
        · refine .inl ⟨rfl, ?_⟩
          rw [hcommit, lrcRun_hist, takePayload_hist, seqMoves_append, h4, List.append_assoc, List.append_assoc]
          rfl
        · refine .inr (.inr ⟨rfl, ?_, by simpa using h5, .inr rfl⟩)
          rw [hfail, lrcRun_hist, takePayload_hist, seqMoves_append, h4, List.append_assoc, List.append_assoc]
          rfl
      · refine .inr (.inr ⟨rfl, ?_, by simpa using h5, .inl rfl⟩)
        rw [hfail, h4, List.append_assoc]
        rfl
  · have e : pollBody s = pollFail .timeout (awaitBytes (headerSize + 1) (request [s.cfg.opGetStatus] s)).2 := by
      simp only [pollBody, Bool.eq_false_of_not_eq_true h]
      rfl
    rw [e]
    refine .inr (.inl ⟨rfl, ?_, .inl ⟨rfl, by simp⟩⟩)
    rw [hfail, awaitBytes_seqMoves, request_seqMoves, List.append_assoc]
    rfl

/-! ## The probe -/

/-- Everything a probe can do: a timeout short of ten bytes, a wrong sentinel, or the byte at offset 7
(43_sequencer.md R190). -/
theorem tempBody_cases (s : State) :
    ((awaitBytes tempLen (request [s.cfg.opGetTemp] s)).1 = false ∧
      tempBody s =
        (0, setSeq .idle (noteFailure .timeout (awaitBytes tempLen (request [s.cfg.opGetTemp] s)).2))) ∨
    ∃ r, r = (awaitBytes tempLen (request [s.cfg.opGetTemp] s)).2 ∧
      (awaitBytes tempLen (request [s.cfg.opGetTemp] s)).1 = true ∧ 10 ≤ r.rxq.length ∧
      ((r.rxq[2]? = some 0x0C ∧ tempBody s = (byteAt r.rxq 7, setSeq .idle (takeTemp r))) ∨
        (r.rxq[2]? ≠ some 0x0C ∧ tempBody s = (0, noteFailure .frameInvalid (setSeq .idle (takeTemp r))))) := by
  by_cases ha : (awaitBytes tempLen (request [s.cfg.opGetTemp] s)).1 = true
  · right
    have hl : 10 ≤ (awaitBytes tempLen (request [s.cfg.opGetTemp] s)).2.rxq.length := (awaitBytes_spec _ _).1 ha
    refine ⟨_, rfl, ha, hl, ?_⟩
    simp only [tempBody, ha, if_true]
    generalize (awaitBytes tempLen (request [s.cfg.opGetTemp] s)).2 = r at hl ⊢
    have e2 : (r.rxq.take tempLen)[2]? = r.rxq[2]? := by
      rw [List.getElem?_take, if_pos (by decide)]
    have e : byteAt (r.rxq.take tempLen) 2 = r.rxq[2]'(by omega) :=
      byteAt_eq (by rw [e2, List.getElem?_eq_getElem (by omega)])
    have e3 : r.rxq[2]? = some (r.rxq[2]'(by omega)) := List.getElem?_eq_getElem (by omega)
    unfold tempValidate tempValid
    rw [show tempModelOff = 2 from rfl, e, e3]
    by_cases h : r.rxq[2]'(by omega) = 0x0C
    · left
      simp [h, modelTemp, tempValOff]
    · right
      refine ⟨by simpa using h, ?_⟩
      rw [if_neg (by simpa [modelTemp] using h)]
  · left
    simp only [tempBody, ha]
    exact ⟨by simp, rfl⟩

/-! ## The single-byte command -/

/-- Everything a command can do: a timeout with nothing queued, or the oldest byte queued (44_driver_ops.md R200). -/
theorem sendBody_cases (op : Byte) (s : State) :
    ((awaitBytes 1 (updateCache op (request [op] s))).1 = false ∧
      sendBody op s =
        (0, setSeq .idle (noteFailure .timeout (awaitBytes 1 (updateCache op (request [op] s))).2))) ∨
    ((awaitBytes 1 (updateCache op (request [op] s))).1 = true ∧
      sendBody op s = takeResponse (awaitBytes 1 (updateCache op (request [op] s))).2) := by
  by_cases ha : (awaitBytes 1 (updateCache op (request [op] s))).1 = true
  · right
    simp only [sendBody, ha, if_true, and_self]
  · left
    simp only [sendBody, ha]
    exact ⟨by simp, rfl⟩

/-- The cache update commutes with the wait: they touch different state. -/
theorem awaitBytes_updateCache (n : Nat) (op : Byte) (s : State) :
    (awaitBytes n (updateCache op s)).1 = (awaitBytes n s).1 ∧
      (awaitBytes n (updateCache op s)).2 = updateCache op (awaitBytes n s).2 := by
  have harr : ∀ (bs : List Byte) (s : State), arriveAll bs (updateCache op s) = updateCache op (arriveAll bs s) := by
    intro bs
    induction bs with
    | nil => intro s; rfl
    | cons b bs ih =>
      intro s
      have h : arrive b (updateCache op s) = updateCache op (arrive b s) := by
        unfold arrive updateCache
        split_ifs <;> simp_all
      rw [arriveAll, h, ih, arriveAll]
  have hwait : ∀ (d : Nat) (s : State), wait d (updateCache op s) = updateCache op (wait d s) := by
    intro d s
    have h : ∀ (s : State) (a : Nat) (e : List EnvMove),
        { updateCache op s with now := a, env := e } = updateCache op { s with now := a, env := e } := by
      intro s a e
      unfold updateCache
      split_ifs <;> rfl
    cases he : s.env with
    | nil =>
      rw [wait_nil he, wait_nil (by rw [updateCache_env]; exact he)]
      unfold updateCache
      split_ifs <;> rfl
    | cons m ms =>
      rw [wait_cons he, wait_cons (by rw [updateCache_env]; exact he), ← harr, updateCache_now, h]
  have hloop : ∀ (ms : List EnvMove) (s : State), (awaitLoop n ms (updateCache op s)).1 = (awaitLoop n ms s).1 ∧
      (awaitLoop n ms (updateCache op s)).2 = updateCache op (awaitLoop n ms s).2 := by
    intro ms
    induction ms with
    | nil =>
      intro s
      unfold awaitLoop
      simp only [updateCache_rxq, updateCache_cfg, updateCache_now, updateCache_t0]
      split_ifs
      · exact ⟨rfl, rfl⟩
      · exact ⟨rfl, rfl⟩
      · refine ⟨rfl, ?_⟩
        unfold updateCache
        split_ifs <;> rfl
    | cons m ms ih =>
      intro s
      unfold awaitLoop
      simp only [updateCache_rxq, updateCache_cfg, updateCache_now, updateCache_t0, hwait]
      split_ifs
      · exact ⟨rfl, rfl⟩
      · exact ⟨rfl, rfl⟩
      · exact ih _
  have h := hloop s.env s
  unfold awaitBytes
  rw [updateCache_env]
  exact h

/-! ## The register write after its poll -/

@[simp] theorem patchSnapshot_snapLen (off : Nat) (val : Byte) (s : State) : (patchSnapshot off val s).snapLen = s.snapLen := rfl
@[simp] theorem patchSnapshot_snapValid (off : Nat) (val : Byte) (s : State) : (patchSnapshot off val s).snapValid = s.snapValid := rfl
@[simp] theorem patchSnapshot_stage (off : Nat) (val : Byte) (s : State) : (patchSnapshot off val s).stage = s.stage := rfl
@[simp] theorem patchSnapshot_stageLen (off : Nat) (val : Byte) (s : State) : (patchSnapshot off val s).stageLen = s.stageLen := rfl
@[simp] theorem patchSnapshot_tmp (off : Nat) (val : Byte) (s : State) : (patchSnapshot off val s).tmp = s.tmp := rfl
@[simp] theorem patchSnapshot_rxq (off : Nat) (val : Byte) (s : State) : (patchSnapshot off val s).rxq = s.rxq := rfl
@[simp] theorem patchSnapshot_txs (off : Nat) (val : Byte) (s : State) : (patchSnapshot off val s).txs = s.txs := rfl
@[simp] theorem patchSnapshot_seq (off : Nat) (val : Byte) (s : State) : (patchSnapshot off val s).seq = s.seq := rfl
@[simp] theorem patchSnapshot_t0 (off : Nat) (val : Byte) (s : State) : (patchSnapshot off val s).t0 = s.t0 := rfl
@[simp] theorem patchSnapshot_now (off : Nat) (val : Byte) (s : State) : (patchSnapshot off val s).now = s.now := rfl
@[simp] theorem patchSnapshot_muted (off : Nat) (val : Byte) (s : State) : (patchSnapshot off val s).muted = s.muted := rfl
@[simp] theorem patchSnapshot_decode (off : Nat) (val : Byte) (s : State) : (patchSnapshot off val s).decode = s.decode := rfl
@[simp] theorem patchSnapshot_busy (off : Nat) (val : Byte) (s : State) : (patchSnapshot off val s).busy = s.busy := rfl
@[simp] theorem patchSnapshot_cfg (off : Nat) (val : Byte) (s : State) : (patchSnapshot off val s).cfg = s.cfg := rfl
@[simp] theorem patchSnapshot_cause (off : Nat) (val : Byte) (s : State) : (patchSnapshot off val s).cause = s.cause := rfl
@[simp] theorem patchSnapshot_hist (off : Nat) (val : Byte) (s : State) : (patchSnapshot off val s).hist = s.hist := rfl
@[simp] theorem patchSnapshot_result (off : Nat) (val : Byte) (s : State) : (patchSnapshot off val s).result = s.result := rfl
@[simp] theorem patchSnapshot_port (off : Nat) (val : Byte) (s : State) : (patchSnapshot off val s).port = s.port := rfl
@[simp] theorem patchSnapshot_env (off : Nat) (val : Byte) (s : State) : (patchSnapshot off val s).env = s.env := rfl

@[simp] theorem sendSnapshot_acc (s : State) : (sendSnapshot s).acc = s.acc := by simp [sendSnapshot]
@[simp] theorem sendSnapshot_snap (s : State) : (sendSnapshot s).snap = s.snap := by simp [sendSnapshot]
@[simp] theorem sendSnapshot_snapLen (s : State) : (sendSnapshot s).snapLen = s.snapLen := by simp [sendSnapshot]
@[simp] theorem sendSnapshot_snapValid (s : State) : (sendSnapshot s).snapValid = s.snapValid := by simp [sendSnapshot]
@[simp] theorem sendSnapshot_stage (s : State) : (sendSnapshot s).stage = s.stage := by simp [sendSnapshot]
@[simp] theorem sendSnapshot_stageLen (s : State) : (sendSnapshot s).stageLen = s.stageLen := by simp [sendSnapshot]
@[simp] theorem sendSnapshot_tmp (s : State) : (sendSnapshot s).tmp = s.tmp := by simp [sendSnapshot]
@[simp] theorem sendSnapshot_seq (s : State) : (sendSnapshot s).seq = s.seq := by simp [sendSnapshot]
@[simp] theorem sendSnapshot_t0 (s : State) : (sendSnapshot s).t0 = s.t0 := by simp [sendSnapshot]
@[simp] theorem sendSnapshot_muted (s : State) : (sendSnapshot s).muted = s.muted := by simp [sendSnapshot]
@[simp] theorem sendSnapshot_decode (s : State) : (sendSnapshot s).decode = s.decode := by simp [sendSnapshot]
@[simp] theorem sendSnapshot_busy (s : State) : (sendSnapshot s).busy = s.busy := by simp [sendSnapshot]
@[simp] theorem sendSnapshot_cfg (s : State) : (sendSnapshot s).cfg = s.cfg := by simp [sendSnapshot]
@[simp] theorem sendSnapshot_cause (s : State) : (sendSnapshot s).cause = s.cause := by simp [sendSnapshot]
@[simp] theorem sendSnapshot_result (s : State) : (sendSnapshot s).result = s.result := by simp [sendSnapshot]
@[simp] theorem sendSnapshot_port (s : State) : (sendSnapshot s).port = s.port := by simp [sendSnapshot]
@[simp] theorem sendSnapshot_rxq (s : State) : (sendSnapshot s).rxq = [] := rfl
@[simp] theorem sendSnapshot_txs (s : State) : (sendSnapshot s).txs = s.txs ++ bufView s .snap s.snapLen := by simp [sendSnapshot]

/-- A frame with one payload byte replaced, as reading the snapshot sees it: the patch and the new checksum. -/
theorem memRead_patched {m : Memory} {p : List Byte} {off : Nat} {v c : Byte} (h3 : 3 ≤ off) (ho : off ≤ p.length + 2)
    (hm : ∀ a, a < p.length + 4 → memRead m a = (frameOf p)[a]?) (hc : c = frameChecksum (p.set (off - 3) v)) {a : Nat}
    (ha : a < p.length + 4) :
    memRead (memWrite (memWrite m off v) (p.length + 3) c) a = (frameOf (p.set (off - 3) v))[a]? := by
  have hb : frameBody (p.set (off - 3) v) = (frameBody p).set off v := by
    rw [frameBody_set]
    congr 1
    omega
  rw [memRead_memWrite, memRead_memWrite, frameOf, hb]
  by_cases h1 : a = p.length + 3
  · subst h1
    rw [if_pos rfl, List.getElem?_append_right (by simp), hc]
    simp
  · rw [if_neg h1, List.getElem?_append_left (by simp; omega), List.getElem?_set]
    by_cases h2 : a = off
    · subst h2
      rw [if_pos rfl, if_pos rfl, if_pos (by simp; omega)]
    · rw [if_neg h2, if_neg (Ne.symm h2), hm a ha, frameOf, List.getElem?_append_left (by simp; omega)]

/-- The patch writes two bytes of the frame held: the one at the offset, and its checksum. -/
theorem patchSnapshot_snap {s : State} (off : Nat) (val : Byte) (hv : s.snapValid = true) (hl : 0 < s.snapLen) :
    ∃ sum, (patchSnapshot off val s).snap =
      memWrite (memWrite s.snap off (registerValue s.cfg off val)) (s.snapLen - 1) sum := by
  obtain ⟨sum, h⟩ := lrcStoreRun_snap s.snapLen { s with snap := memWrite s.snap off (registerValue s.cfg off val) }
  refine ⟨sum, h.trans (if_pos ?_)⟩
  rw [inSnapshot_eq, decide_eq_true_iff]
  exact ⟨hv, Nat.sub_lt hl Nat.one_pos⟩

/-- The patch makes the snapshot the frame whose payload has the one byte replaced, with its checksum. -/
theorem patchSnapshot_spec {s : State} {p : List Byte} {off : Nat} {val : Byte} (hsv : s.snapValid = true)
    (hl : s.snapLen = p.length + 4) (h3 : 3 ≤ off) (ho : off ≤ p.length + 2) (hm : ∀ a, a < p.length + 4 → memRead s.snap a = (frameOf p)[a]?) :
    (∀ a, a < p.length + 4 →
      memRead (patchSnapshot off val s).snap a = (frameOf (p.set (off - 3) (registerValue s.cfg off val)))[a]?) ∧
    (∀ a, p.length + 4 ≤ a → memRead (patchSnapshot off val s).snap a = memRead s.snap a) ∧
    (patchSnapshot off val s).acc = frameChecksum (p.set (off - 3) (registerValue s.cfg off val)) ∧
    (patchSnapshot off val s).draws = s.draws ∧
    (Memory.wf s.snap = true → Memory.wf (patchSnapshot off val s).snap = true) := by
  generalize hv : registerValue s.cfg off val = v
  generalize hs1 : ({ s with snap := memWrite s.snap off v } : State) = s1
  have e1 : s1.snap = memWrite s.snap off v := by rw [← hs1]
  have e2 : s1.snapLen = p.length + 4 := by rw [← hs1]; exact hl
  have e3 : s1.draws = s.draws := by rw [← hs1]
  have hin : inSnapshot (lrcRun .snap (p.length + 4) s1) (p.length + 3) = true := by
    rw [← hs1, inSnapshot, lrcRun_snapValid, lrcRun_snapLen, hsv, hl]
    simp
  have hp : patchSnapshot off val s = lrcStoreRun .snap (p.length + 4) s1 := by
    rw [patchSnapshot, hv, hs1, hl]
  -- reading before the checksum is stored: the frame's body with the byte replaced
  have hrd : ∀ a, a < p.length + 4 → memRead s1.snap a = ((frameOf p).set off v)[a]? := by
    intro a ha
    rw [e1, memRead_memWrite, List.getElem?_set]
    by_cases h : a = off
    · subst h
      rw [if_pos rfl, if_pos rfl, if_pos (by simp; omega)]
    · rw [if_neg h, if_neg (Ne.symm h), hm a ha]
  have hview : bufView s1 .snap (p.length + 4) = (frameOf p).set off v := memView_eq (by simp) hrd
  have hdr : bufDraws s1 .snap (p.length + 4) = 0 := by
    apply memDraws_eq_zero
    intro a ha
    rw [hrd a ha, List.getElem?_eq_getElem (by simp; omega)]
    rfl
  have hsum : lrcSum ((frameOf p).set off v) (p.length + 4) = frameChecksum (p.set (off - 3) v) := by
    have h := lrcSum_of_body (bs := (frameOf p).set off v) (p := p.set (off - 3) v) (by
      rw [List.length_set, List.take_set, take_frameOf, frameBody_set]
      congr 1
      omega)
    rwa [List.length_set] at h
  have hsnap : (patchSnapshot off val s).snap =
      memWrite (memWrite s.snap off v) (p.length + 3) (frameChecksum (p.set (off - 3) v)) := by
    rw [hp, lrcStoreRun, hview, hsum]
    show (if inSnapshot (lrcRun .snap (p.length + 4) s1) (p.length + 3) = true then
      memWrite (lrcRun .snap (p.length + 4) s1).snap (p.length + 3) _ else _) = _
    rw [hin, if_pos rfl, lrcRun_snap, e1]
  refine ⟨?_, ?_, ?_, ?_, ?_⟩
  · intro a ha
    rw [hsnap]
    exact memRead_patched h3 ho hm rfl ha
  · intro a ha
    rw [hsnap, memRead_memWrite, memRead_memWrite, if_neg (by omega), if_neg (by omega)]
  · rw [hp]
    show (lrcRun .snap (p.length + 4) s1).acc = _
    rw [lrcRun_acc, hview, hsum]
  · rw [hp]
    show (lrcRun .snap (p.length + 4) s1).draws = _
    rw [lrcRun_draws, hdr, e3]
    rfl
  · intro h
    rw [hsnap]
    exact memWrite_wf (memWrite_wf h _ _) _ _

/-- The transmission of a snapshot that holds a frame (44_driver_ops.md R205). -/
theorem sendSnapshot_spec {s : State} {fr : List Byte} (hl : s.snapLen = fr.length)
    (hm : ∀ a, a < fr.length → memRead s.snap a = fr[a]?) : sendSnapshot s = flushRx (transmit fr s) := by
  have hv : bufView s .snap s.snapLen = fr := memView_eq hl.symm (by rw [hl]; exact hm)
  have hd : bufDraws s .snap s.snapLen = 0 := by
    apply memDraws_eq_zero
    intro a ha
    rw [hl] at ha
    rw [hm a ha, List.getElem?_eq_getElem ha]
    rfl
  rw [sendSnapshot, hv, afterView_of_held hd]

/-- The byte a register write puts (44_driver_ops.md R206). -/
theorem registerValue_eq (c : Config) (off : Nat) (v : Byte) : registerValue c off v = writtenByte c off v := by
  unfold registerValue writtenByte isVolumeOffset Config.volumeOffsets scaleDown volDevMax volExtMax
  simp only [List.contains_eq_mem, List.mem_cons, List.not_mem_nil, or_false, decide_eq_true_eq]

/-- Everything a register write does once its poll is over, its snapshot holds a frame and its offset lies in the
payload (44_driver_ops.md R205, R209). -/
theorem sendPatched_spec {r : State} {off : Nat} {val : Byte} {p : List Byte} (hs : SnapshotIs r (frameOf p))
    (h3 : 3 ≤ off) (ho : off ≤ p.length + 2) :
    outsidePayload off r = false ∧
    SnapshotIs (sendSnapshot (patchSnapshot off val r)) (frameOf (patchedPayload p off (writtenByte r.cfg off val))) ∧
    (sendSnapshot (patchSnapshot off val r)).txs =
      r.txs ++ frameOf (patchedPayload p off (writtenByte r.cfg off val)) ∧
    flushCount (sendSnapshot (patchSnapshot off val r)).hist = flushCount r.hist + 2 ∧
    (sendSnapshot (patchSnapshot off val r)).draws = r.draws := by
  obtain ⟨hv, hl, hm⟩ := hs
  rw [frameOf_length] at hl
  obtain ⟨q1, q2, -, q4, -⟩ := patchSnapshot_spec (s := r) (val := val) hv hl h3 ho (fun a _ => hm a)
  have hq : frameOf (p.set (off - 3) (registerValue r.cfg off val)) =
      frameOf (patchedPayload p off (writtenByte r.cfg off val)) := by
    rw [registerValue_eq]
    rfl
  rw [hq] at q1
  generalize hfr : frameOf (patchedPayload p off (writtenByte r.cfg off val)) = fr at *
  have hfl : fr.length = p.length + 4 := by rw [← hfr, frameOf_length, patchedPayload, List.length_set]
  have hlen : (patchSnapshot off val r).snapLen = fr.length := by
    rw [hfl, ← hl]
    rfl
  have hsend := sendSnapshot_spec (s := patchSnapshot off val r) (fr := fr) hlen (by rw [hfl]; exact q1)
  refine ⟨?_, ⟨by simpa using hv, ?_, ?_⟩, ?_, ?_, ?_⟩
  · unfold outsidePayload headerSize
    rw [hl]
    simp
    omega
  · rw [sendSnapshot_snapLen]
    exact hlen
  · intro a
    rw [sendSnapshot_snap]
    by_cases ha : a < p.length + 4
    · exact q1 a ha
    · rw [q2 a (by omega), hm a, List.getElem?_eq_none (by rw [frameOf_length]; omega),
        List.getElem?_eq_none (by omega)]
  · rw [hsend]
    simp
  · rw [hsend, flushRx_flushCount, transmit_flushCount, patchSnapshot_hist]
  · rw [hsend]
    simpa using q4

/-- What a poll leaves when a valid frame arrives in time. -/
theorem pollBody_ok {s : State} {ms : List EnvMove} {p extra : List Byte} (hp : p.length ≤ 255)
    (hc : p.length + 4 ≤ s.cfg.bufCap) (hbr : Brings s ms (frameOf p ++ extra)) :
    (pollBody s).1 = true ∧ SnapshotIs (pollBody s).2 (frameOf p) ∧ (pollBody s).2.cause = s.cause := by
  obtain ⟨⟨ht, first, rest, he⟩, hb, hd⟩ := hbr
  obtain ⟨h1, h2, -⟩ := pollBody_in_time (s := s) he ht hp hc hb (by rw [hb]; exact hd)
  exact ⟨h1, h2, ((pollBody_end s).committed h1).1⟩

/-- The four ways a register write goes on after its poll (44_driver_ops.md R205 to R208). -/
theorem writeBody_cases (off : Nat) (val : Byte) (s : State) :
    (writeEndsEarly (pollBody s).1 (pollBody s).2 = true ∧ writeBody off val s = (pollBody s).2) ∨
    (writeEndsEarly (pollBody s).1 (pollBody s).2 = false ∧ outsidePayload off (pollBody s).2 = true ∧
      writeBody off val s = (pollBody s).2) ∨
    (writeEndsEarly (pollBody s).1 (pollBody s).2 = false ∧ outsidePayload off (pollBody s).2 = false ∧
      writeBody off val s = sendSnapshot (patchSnapshot off val (pollBody s).2)) := by
  unfold writeBody writeAfterPoll
  cases h1 : writeEndsEarly (pollBody s).1 (pollBody s).2
  · right
    cases h2 : outsidePayload off (pollBody s).2
    · right
      simp
    · left
      simp
  · left
    simp

/-! ## The field read after its poll -/

/-- A field the snapshot's frame holds is read as the spec's number (44_driver_ops.md R211 to R215). -/
theorem readAfterPoll_held {r : State} {fr : List Byte} {f : Sys2Proof.Field} {v : Nat} (hs : SnapshotIs r fr)
    (h : fieldNumber r.cfg f fr = some v) : readAfterPoll f r = (v, r) := by
  obtain ⟨-, hl, hm⟩ := hs
  unfold readAfterPoll
  unfold fieldNumber at h
  cases f with
  | raw off =>
    simp only [fieldOffsets, fieldBytes, fieldHolds, hl, hm]
    simp at h
    obtain ⟨b, hb, rfl⟩ := h
    have : off < fr.length := by
      by_contra hc; rw [List.getElem?_eq_none (by omega)] at hb; cases hb
    rw [List.getElem?_eq_getElem this] at hb
    cases hb
    simp [this, fieldValue]
  | power =>
    simp only [fieldOffsets, fieldBytes, fieldHolds, hl, hm]
    by_cases hc : r.cfg.offStandby + 2 ≤ fr.length
    · have he := List.getElem?_eq_getElem (l := fr) (i := r.cfg.offStandby) (by omega)
      simp [hc, he, fieldValue, powerOf] at h ⊢
      rw [← h]
      congr 1
      simp [BitVec.toNat_eq]
    · simp [hc] at h
  | input =>
    simp only [fieldOffsets, fieldBytes, fieldHolds, hl, hm]
    by_cases hc : r.cfg.offInput + 2 ≤ fr.length
    · have he := List.getElem?_eq_getElem (l := fr) (i := r.cfg.offInput) (by omega)
      simp [hc, he, fieldValue] at h ⊢
      exact h
    · simp [hc] at h
  | vol ch =>
    simp only [fieldOffsets, fieldBytes, fieldHolds, hl, hm]
    cases ch <;> simp only [volOffset] <;> simp only at h <;> split at h
    all_goals first
      | (rename_i hc
         have he := fun j (hj : j + 2 ≤ fr.length) => List.getElem?_eq_getElem (l := fr) (i := j) (by omega)
         rw [he _ hc] at h ⊢
         simp [hc, fieldValue, scaleUp, volExtMax, volDevMax] at h ⊢
         exact h)
      | simp at h
  | version =>
    simp only [fieldOffsets, fieldBytes, fieldHolds, hl, hm]
    have he := fun j (hj : j + 2 ≤ fr.length) => List.getElem?_eq_getElem (l := fr) (i := j) (by omega)
    by_cases hA : r.cfg.offFwA + 2 ≤ fr.length
    · by_cases hB : r.cfg.offFwB + 2 ≤ fr.length
      · by_cases hC : r.cfg.offFwC + 2 ≤ fr.length
        · simp [hA, hB, hC, he _ hA, he _ hB, he _ hC, fieldValue, versionOf] at h ⊢
          exact h
        · simp [hC] at h
      · simp [hB] at h
    · simp [hA] at h

/-- A field read only draws a free value beside its poll. -/
theorem readAfterPoll_frame (f : Field) (r : State) : ∃ d, (readAfterPoll f r).2 = { r with draws := d } := by
  unfold readAfterPoll
  split <;> exact ⟨_, rfl⟩

end Sys2Proof.Machine
end

