-- ==== Sys2Proof/Laws/Bodies.lean ====
section
/-! SUPPORT. Which fields the bodies of the operations leave alone: one lemma per field per body. -/

namespace Sys2Proof.Machine

open Sys2Proof.Safety

@[simp] theorem tempBody_acc (s : State) : (tempBody s).2.acc = s.acc := by
  rcases tempBody_cases s with ⟨-, h⟩ | ⟨r, rfl, -, -, ⟨-, h⟩ | ⟨-, h⟩⟩ <;> rw [h] <;> simp
@[simp] theorem tempBody_snap (s : State) : (tempBody s).2.snap = s.snap := by
  rcases tempBody_cases s with ⟨-, h⟩ | ⟨r, rfl, -, -, ⟨-, h⟩ | ⟨-, h⟩⟩ <;> rw [h] <;> simp
@[simp] theorem tempBody_snapLen (s : State) : (tempBody s).2.snapLen = s.snapLen := by
  rcases tempBody_cases s with ⟨-, h⟩ | ⟨r, rfl, -, -, ⟨-, h⟩ | ⟨-, h⟩⟩ <;> rw [h] <;> simp
@[simp] theorem tempBody_snapValid (s : State) : (tempBody s).2.snapValid = s.snapValid := by
  rcases tempBody_cases s with ⟨-, h⟩ | ⟨r, rfl, -, -, ⟨-, h⟩ | ⟨-, h⟩⟩ <;> rw [h] <;> simp
@[simp] theorem tempBody_stage (s : State) : (tempBody s).2.stage = s.stage := by
  rcases tempBody_cases s with ⟨-, h⟩ | ⟨r, rfl, -, -, ⟨-, h⟩ | ⟨-, h⟩⟩ <;> rw [h] <;> simp
@[simp] theorem tempBody_stageLen (s : State) : (tempBody s).2.stageLen = s.stageLen := by
  rcases tempBody_cases s with ⟨-, h⟩ | ⟨r, rfl, -, -, ⟨-, h⟩ | ⟨-, h⟩⟩ <;> rw [h] <;> simp
@[simp] theorem tempBody_muted (s : State) : (tempBody s).2.muted = s.muted := by
  rcases tempBody_cases s with ⟨-, h⟩ | ⟨r, rfl, -, -, ⟨-, h⟩ | ⟨-, h⟩⟩ <;> rw [h] <;> simp
@[simp] theorem tempBody_decode (s : State) : (tempBody s).2.decode = s.decode := by
  rcases tempBody_cases s with ⟨-, h⟩ | ⟨r, rfl, -, -, ⟨-, h⟩ | ⟨-, h⟩⟩ <;> rw [h] <;> simp
@[simp] theorem tempBody_busy (s : State) : (tempBody s).2.busy = s.busy := by
  rcases tempBody_cases s with ⟨-, h⟩ | ⟨r, rfl, -, -, ⟨-, h⟩ | ⟨-, h⟩⟩ <;> rw [h] <;> simp
@[simp] theorem tempBody_cfg (s : State) : (tempBody s).2.cfg = s.cfg := by
  rcases tempBody_cases s with ⟨-, h⟩ | ⟨r, rfl, -, -, ⟨-, h⟩ | ⟨-, h⟩⟩ <;> rw [h] <;> simp
@[simp] theorem tempBody_result (s : State) : (tempBody s).2.result = s.result := by
  rcases tempBody_cases s with ⟨-, h⟩ | ⟨r, rfl, -, -, ⟨-, h⟩ | ⟨-, h⟩⟩ <;> rw [h] <;> simp
@[simp] theorem tempBody_port (s : State) : (tempBody s).2.port = s.port := by
  rcases tempBody_cases s with ⟨-, h⟩ | ⟨r, rfl, -, -, ⟨-, h⟩ | ⟨-, h⟩⟩ <;> rw [h] <;> simp
@[simp] theorem tempBody_draws (s : State) : (tempBody s).2.draws = s.draws := by
  rcases tempBody_cases s with ⟨-, h⟩ | ⟨r, rfl, -, -, ⟨-, h⟩ | ⟨-, h⟩⟩ <;> rw [h] <;> simp

/-- A probe transmits its request and nothing else (43_sequencer.md R190). -/
@[simp] theorem tempBody_txs (s : State) : (tempBody s).2.txs = s.txs ++ [s.cfg.opGetTemp] := by
  rcases tempBody_cases s with ⟨-, h⟩ | ⟨r, rfl, -, -, ⟨-, h⟩ | ⟨-, h⟩⟩ <;> rw [h] <;> simp

@[simp] theorem tempBody_seq (s : State) : (tempBody s).2.seq = .idle := by
  rcases tempBody_cases s with ⟨-, h⟩ | ⟨r, rfl, -, -, ⟨-, h⟩ | ⟨-, h⟩⟩ <;> rw [h] <;> rfl

@[simp] theorem sendBody_acc (op : Byte) (s : State) : (sendBody op s).2.acc = s.acc := by
  rcases sendBody_cases op s with ⟨-, h⟩ | ⟨-, h⟩ <;> rw [h] <;> simp [takeResponse]
@[simp] theorem sendBody_snap (op : Byte) (s : State) : (sendBody op s).2.snap = s.snap := by
  rcases sendBody_cases op s with ⟨-, h⟩ | ⟨-, h⟩ <;> rw [h] <;> simp [takeResponse]
@[simp] theorem sendBody_snapLen (op : Byte) (s : State) : (sendBody op s).2.snapLen = s.snapLen := by
  rcases sendBody_cases op s with ⟨-, h⟩ | ⟨-, h⟩ <;> rw [h] <;> simp [takeResponse]
@[simp] theorem sendBody_snapValid (op : Byte) (s : State) : (sendBody op s).2.snapValid = s.snapValid := by
  rcases sendBody_cases op s with ⟨-, h⟩ | ⟨-, h⟩ <;> rw [h] <;> simp [takeResponse]
@[simp] theorem sendBody_stage (op : Byte) (s : State) : (sendBody op s).2.stage = s.stage := by
  rcases sendBody_cases op s with ⟨-, h⟩ | ⟨-, h⟩ <;> rw [h] <;> simp [takeResponse]
@[simp] theorem sendBody_stageLen (op : Byte) (s : State) : (sendBody op s).2.stageLen = s.stageLen := by
  rcases sendBody_cases op s with ⟨-, h⟩ | ⟨-, h⟩ <;> rw [h] <;> simp [takeResponse]
@[simp] theorem sendBody_tmp (op : Byte) (s : State) : (sendBody op s).2.tmp = s.tmp := by
  rcases sendBody_cases op s with ⟨-, h⟩ | ⟨-, h⟩ <;> rw [h] <;> simp [takeResponse]
@[simp] theorem sendBody_busy (op : Byte) (s : State) : (sendBody op s).2.busy = s.busy := by
  rcases sendBody_cases op s with ⟨-, h⟩ | ⟨-, h⟩ <;> rw [h] <;> simp [takeResponse]
@[simp] theorem sendBody_cfg (op : Byte) (s : State) : (sendBody op s).2.cfg = s.cfg := by
  rcases sendBody_cases op s with ⟨-, h⟩ | ⟨-, h⟩ <;> rw [h] <;> simp [takeResponse]
@[simp] theorem sendBody_result (op : Byte) (s : State) : (sendBody op s).2.result = s.result := by
  rcases sendBody_cases op s with ⟨-, h⟩ | ⟨-, h⟩ <;> rw [h] <;> simp [takeResponse]
@[simp] theorem sendBody_port (op : Byte) (s : State) : (sendBody op s).2.port = s.port := by
  rcases sendBody_cases op s with ⟨-, h⟩ | ⟨-, h⟩ <;> rw [h] <;> simp [takeResponse]
@[simp] theorem sendBody_draws (op : Byte) (s : State) : (sendBody op s).2.draws = s.draws := by
  rcases sendBody_cases op s with ⟨-, h⟩ | ⟨-, h⟩ <;> rw [h] <;> simp [takeResponse]

/-- A command transmits its opcode and nothing else (44_driver_ops.md R200). -/
@[simp] theorem sendBody_txs (op : Byte) (s : State) : (sendBody op s).2.txs = s.txs ++ [op] := by
  rcases sendBody_cases op s with ⟨-, h⟩ | ⟨-, h⟩ <;> rw [h] <;> simp [takeResponse]

@[simp] theorem sendBody_seq (op : Byte) (s : State) : (sendBody op s).2.seq = .idle := by
  rcases sendBody_cases op s with ⟨-, h⟩ | ⟨-, h⟩ <;> rw [h] <;> rfl

@[simp] theorem writeBody_tmp (off : Nat) (val : Byte) (s : State) : (writeBody off val s).tmp = s.tmp := by
  rcases writeBody_cases off val s with ⟨-, h⟩ | ⟨-, -, h⟩ | ⟨-, -, h⟩ <;> rw [h] <;> simp
@[simp] theorem writeBody_muted (off : Nat) (val : Byte) (s : State) : (writeBody off val s).muted = s.muted := by
  rcases writeBody_cases off val s with ⟨-, h⟩ | ⟨-, -, h⟩ | ⟨-, -, h⟩ <;> rw [h] <;> simp
@[simp] theorem writeBody_decode (off : Nat) (val : Byte) (s : State) : (writeBody off val s).decode = s.decode := by
  rcases writeBody_cases off val s with ⟨-, h⟩ | ⟨-, -, h⟩ | ⟨-, -, h⟩ <;> rw [h] <;> simp
@[simp] theorem writeBody_busy (off : Nat) (val : Byte) (s : State) : (writeBody off val s).busy = s.busy := by
  rcases writeBody_cases off val s with ⟨-, h⟩ | ⟨-, -, h⟩ | ⟨-, -, h⟩ <;> rw [h] <;> simp
@[simp] theorem writeBody_cfg (off : Nat) (val : Byte) (s : State) : (writeBody off val s).cfg = s.cfg := by
  rcases writeBody_cases off val s with ⟨-, h⟩ | ⟨-, -, h⟩ | ⟨-, -, h⟩ <;> rw [h] <;> simp
@[simp] theorem writeBody_result (off : Nat) (val : Byte) (s : State) : (writeBody off val s).result = s.result := by
  rcases writeBody_cases off val s with ⟨-, h⟩ | ⟨-, -, h⟩ | ⟨-, -, h⟩ <;> rw [h] <;> simp
@[simp] theorem writeBody_port (off : Nat) (val : Byte) (s : State) : (writeBody off val s).port = s.port := by
  rcases writeBody_cases off val s with ⟨-, h⟩ | ⟨-, -, h⟩ | ⟨-, -, h⟩ <;> rw [h] <;> simp

@[simp] theorem writeBody_seq (off : Nat) (val : Byte) (s : State) : (writeBody off val s).seq = .idle := by
  rcases writeBody_cases off val s with ⟨-, h⟩ | ⟨-, -, h⟩ | ⟨-, -, h⟩ <;> rw [h] <;> simp

/-- A field read is its poll, but for the free values it draws (44_driver_ops.md R210). -/
theorem readBody_frame (f : Field) (s : State) : ∃ d, (readBody f s).2 = { (pollBody s).2 with draws := d } := by
  unfold readBody
  split
  · exact readAfterPoll_frame f (pollBody s).2
  · exact ⟨_, rfl⟩

@[simp] theorem readBody_acc (f : Field) (s : State) : (readBody f s).2.acc = (pollBody s).2.acc := by
  obtain ⟨d, h⟩ := readBody_frame f s
  rw [h]
@[simp] theorem readBody_snap (f : Field) (s : State) : (readBody f s).2.snap = (pollBody s).2.snap := by
  obtain ⟨d, h⟩ := readBody_frame f s
  rw [h]
@[simp] theorem readBody_snapLen (f : Field) (s : State) : (readBody f s).2.snapLen = (pollBody s).2.snapLen := by
  obtain ⟨d, h⟩ := readBody_frame f s
  rw [h]
@[simp] theorem readBody_snapValid (f : Field) (s : State) : (readBody f s).2.snapValid = (pollBody s).2.snapValid := by
  obtain ⟨d, h⟩ := readBody_frame f s
  rw [h]
@[simp] theorem readBody_stage (f : Field) (s : State) : (readBody f s).2.stage = (pollBody s).2.stage := by
  obtain ⟨d, h⟩ := readBody_frame f s
  rw [h]
@[simp] theorem readBody_stageLen (f : Field) (s : State) : (readBody f s).2.stageLen = (pollBody s).2.stageLen := by
  obtain ⟨d, h⟩ := readBody_frame f s
  rw [h]
@[simp] theorem readBody_tmp (f : Field) (s : State) : (readBody f s).2.tmp = (pollBody s).2.tmp := by
  obtain ⟨d, h⟩ := readBody_frame f s
  rw [h]
@[simp] theorem readBody_rxq (f : Field) (s : State) : (readBody f s).2.rxq = (pollBody s).2.rxq := by
  obtain ⟨d, h⟩ := readBody_frame f s
  rw [h]
@[simp] theorem readBody_txs (f : Field) (s : State) : (readBody f s).2.txs = (pollBody s).2.txs := by
  obtain ⟨d, h⟩ := readBody_frame f s
  rw [h]
@[simp] theorem readBody_seq (f : Field) (s : State) : (readBody f s).2.seq = (pollBody s).2.seq := by
  obtain ⟨d, h⟩ := readBody_frame f s
  rw [h]
@[simp] theorem readBody_t0 (f : Field) (s : State) : (readBody f s).2.t0 = (pollBody s).2.t0 := by
  obtain ⟨d, h⟩ := readBody_frame f s
  rw [h]
@[simp] theorem readBody_now (f : Field) (s : State) : (readBody f s).2.now = (pollBody s).2.now := by
  obtain ⟨d, h⟩ := readBody_frame f s
  rw [h]
@[simp] theorem readBody_muted (f : Field) (s : State) : (readBody f s).2.muted = (pollBody s).2.muted := by
  obtain ⟨d, h⟩ := readBody_frame f s
  rw [h]
@[simp] theorem readBody_decode (f : Field) (s : State) : (readBody f s).2.decode = (pollBody s).2.decode := by
  obtain ⟨d, h⟩ := readBody_frame f s
  rw [h]
@[simp] theorem readBody_busy (f : Field) (s : State) : (readBody f s).2.busy = (pollBody s).2.busy := by
  obtain ⟨d, h⟩ := readBody_frame f s
  rw [h]
@[simp] theorem readBody_cfg (f : Field) (s : State) : (readBody f s).2.cfg = (pollBody s).2.cfg := by
  obtain ⟨d, h⟩ := readBody_frame f s
  rw [h]
@[simp] theorem readBody_cause (f : Field) (s : State) : (readBody f s).2.cause = (pollBody s).2.cause := by
  obtain ⟨d, h⟩ := readBody_frame f s
  rw [h]
@[simp] theorem readBody_hist (f : Field) (s : State) : (readBody f s).2.hist = (pollBody s).2.hist := by
  obtain ⟨d, h⟩ := readBody_frame f s
  rw [h]
@[simp] theorem readBody_result (f : Field) (s : State) : (readBody f s).2.result = (pollBody s).2.result := by
  obtain ⟨d, h⟩ := readBody_frame f s
  rw [h]
@[simp] theorem readBody_port (f : Field) (s : State) : (readBody f s).2.port = (pollBody s).2.port := by
  obtain ⟨d, h⟩ := readBody_frame f s
  rw [h]
@[simp] theorem readBody_env (f : Field) (s : State) : (readBody f s).2.env = (pollBody s).2.env := by
  obtain ⟨d, h⟩ := readBody_frame f s
  rw [h]

/-! ## The moves of `seq` -/

/-- A probe goes to AwaitHeader and back (43_sequencer.md R189). -/
@[simp] theorem tempBody_seqMoves (s : State) :
    seqMoves (tempBody s).2.hist = seqMoves s.hist ++ [.awaitHeader, .idle] := by
  have h1 : ∀ (r : State), r = (awaitBytes tempLen (request [s.cfg.opGetTemp] s)).2 →
      seqMoves r.hist = seqMoves s.hist ++ [.awaitHeader] := by
    rintro r rfl
    rw [awaitBytes_seqMoves, request_seqMoves]
  have h2 : ∀ r : State, seqMoves (setSeq .idle r).hist = seqMoves r.hist ++ [.idle] := fun r => by
    rw [setSeq_hist, seqMoves_append]
    rfl
  have h3 : ∀ r : State, seqMoves (takeTemp r).hist = seqMoves r.hist := fun r => by
    rw [takeTemp_hist, seqMoves_append]
    exact List.append_nil _
  rcases tempBody_cases s with ⟨-, h⟩ | ⟨r, hr, -, -, ⟨-, h⟩ | ⟨-, h⟩⟩ <;> rw [h]
  · rw [h2, noteFailure_hist, h1 _ rfl, List.append_assoc]
    rfl
  · rw [h2, h3, h1 _ hr, List.append_assoc]
    rfl
  · rw [noteFailure_hist, h2, h3, h1 _ hr, List.append_assoc]
    rfl

/-- A command goes to AwaitHeader and back (43_sequencer.md R189). -/
@[simp] theorem sendBody_seqMoves (op : Byte) (s : State) :
    seqMoves (sendBody op s).2.hist = seqMoves s.hist ++ [.awaitHeader, .idle] := by
  have h1 : seqMoves (awaitBytes 1 (updateCache op (request [op] s))).2.hist = seqMoves s.hist ++ [.awaitHeader] := by
    rw [awaitBytes_seqMoves, updateCache_hist, request_seqMoves]
  have h2 : ∀ r : State, seqMoves (setSeq .idle r).hist = seqMoves r.hist ++ [.idle] := fun r => by
    rw [setSeq_hist, seqMoves_append]
    rfl
  rcases sendBody_cases op s with ⟨-, h⟩ | ⟨-, h⟩ <;> rw [h]
  · rw [h2, noteFailure_hist, h1, List.append_assoc]
    rfl
  · rw [takeResponse, h2, pop_hist, seqMoves_append, h1, List.append_assoc, List.append_assoc]
    rfl

@[simp] theorem sendSnapshot_seqMoves (s : State) : seqMoves (sendSnapshot s).hist = seqMoves s.hist := by
  rw [sendSnapshot, flushRx_seqMoves, transmit_seqMoves, afterView_hist]

/-- A register write moves `seq` in its poll alone (43_sequencer.md R189). -/
@[simp] theorem writeBody_seqMoves (off : Nat) (val : Byte) (s : State) :
    seqMoves (writeBody off val s).hist = seqMoves (pollBody s).2.hist := by
  rcases writeBody_cases off val s with ⟨-, h⟩ | ⟨-, -, h⟩ | ⟨-, -, h⟩ <;> rw [h]
  rw [sendSnapshot_seqMoves, patchSnapshot_hist]

/-! ## The clock, the request time and the queue -/

/-- What every exchange keeps of the clock and the queue: the clock does not go back, the request time is not in the
future, and the queue stays within its depth. -/
def LinkKept (s t : State) : Prop := s.now ≤ t.now ∧ t.t0 ≤ t.now ∧ t.rxq.length ≤ s.cfg.rxDepth

theorem pollBody_link (s : State) : LinkKept s (pollBody s).2 := by
  have h := pollBody_end s
  exact ⟨Nat.le_trans (Nat.le_trans (Nat.le_add_right _ _) h.request.1) h.request.2, h.request.2, h.queue⟩

/-- A wait after a request keeps the link. -/
theorem request_link (n : Nat) (bs : List Byte) (s : State) : LinkKept s (awaitBytes n (request bs s)).2 := by
  obtain ⟨-, -, h3, -, h5⟩ := awaitBytes_spec n (request bs s)
  have h6 := flushRx_now_le s
  have h7 : (request bs s).now = (flushRx s).now := rfl
  have h8 : (awaitBytes n (request bs s)).2.t0 = (flushRx s).now := by
    rw [awaitBytes_t0]
    rfl
  have h9 : (request bs s).rxq = [] := rfl
  rw [h9] at h5
  have h5 := h5 (by simp)
  rw [request_cfg] at h5
  exact ⟨by omega, by omega, h5⟩

theorem tempBody_link (s : State) : LinkKept s (tempBody s).2 := by
  obtain ⟨h1, h2, h3⟩ := request_link tempLen [s.cfg.opGetTemp] s
  rcases tempBody_cases s with ⟨-, h⟩ | ⟨r, rfl, -, -, ⟨-, h⟩ | ⟨-, h⟩⟩ <;> rw [h] <;> unfold LinkKept
  · simp only [noteFailure_now, noteFailure_t0, noteFailure_rxq, setSeq_now, setSeq_t0, setSeq_rxq]
    exact ⟨h1, h2, h3⟩
  · simp only [setSeq_now, setSeq_t0, setSeq_rxq, takeTemp_now,
      takeTemp_t0, takeTemp_rxq, List.length_drop]
    exact ⟨h1, h2, by omega⟩
  · simp only [noteFailure_now, noteFailure_t0, noteFailure_rxq, setSeq_now, setSeq_t0, setSeq_rxq, takeTemp_now,
      takeTemp_t0, takeTemp_rxq, List.length_drop]
    exact ⟨h1, h2, by omega⟩

theorem sendBody_link (op : Byte) (s : State) : LinkKept s (sendBody op s).2 := by
  obtain ⟨h1, h2, h3⟩ := request_link 1 [op] s
  have hw := (awaitBytes_updateCache 1 op (request [op] s)).2
  rcases sendBody_cases op s with ⟨-, h⟩ | ⟨-, h⟩ <;> rw [h, hw] <;> unfold LinkKept
  · simp only [setSeq_now, setSeq_t0, setSeq_rxq, noteFailure_now, noteFailure_t0, noteFailure_rxq, updateCache_now,
      updateCache_t0, updateCache_rxq]
    exact ⟨h1, h2, h3⟩
  · simp only [takeResponse, setSeq_now, setSeq_t0, setSeq_rxq, pop_now, pop_t0, pop_rxq, updateCache_now,
      updateCache_t0, updateCache_rxq, List.length_drop]
    exact ⟨h1, h2, by omega⟩

theorem flushRx_link (s : State) (h : s.t0 ≤ s.now) : LinkKept s (flushRx s) := by
  have h1 := flushRx_now_le s
  refine ⟨by omega, ?_, Nat.zero_le _⟩
  rw [flushRx_t0]
  omega

theorem writeBody_link (off : Nat) (val : Byte) (s : State) : LinkKept s (writeBody off val s) := by
  obtain ⟨h1, h2, h3⟩ := pollBody_link s
  rcases writeBody_cases off val s with ⟨-, h⟩ | ⟨-, -, h⟩ | ⟨-, -, h⟩ <;> rw [h]
  · exact ⟨h1, h2, h3⟩
  · exact ⟨h1, h2, h3⟩
  · generalize (pollBody s).2 = r at *
    have a1 := flushRx_now_le (afterView .snap (patchSnapshot off val r).snapLen (patchSnapshot off val r))
    have a2 := flushRx_now_le (transmit (bufView (patchSnapshot off val r) .snap (patchSnapshot off val r).snapLen)
      (afterView .snap (patchSnapshot off val r).snapLen (patchSnapshot off val r)))
    rw [transmit_now] at a2
    rw [afterView_now, patchSnapshot_now] at a1
    have e : (sendSnapshot (patchSnapshot off val r)).now =
      (flushRx (transmit (bufView (patchSnapshot off val r) .snap (patchSnapshot off val r).snapLen)
        (afterView .snap (patchSnapshot off val r).snapLen (patchSnapshot off val r)))).now := rfl
    refine ⟨by rw [e]; omega, by rw [e, sendSnapshot_t0, patchSnapshot_t0]; omega, ?_⟩
    rw [sendSnapshot_rxq]
    exact Nat.zero_le _

/-! ## The cause of a failure -/

/-- A poll notes a timeout or an invalid frame, or leaves the cause as it was (60_exceptions.md R241, R242). -/
theorem pollBody_cause (s : State) : (pollBody s).2.cause = s.cause ∨ (pollBody s).2.cause = some .timeout ∨
    (pollBody s).2.cause = some .frameInvalid := by
  have h := pollBody_end s
  cases hok : (pollBody s).1 with
  | true => exact .inl (h.committed hok).1
  | false =>
    rcases (h.failed hok).2.2.2 with h | h
    · exact .inr (.inl h.1)
    · exact .inr (.inr h)

theorem tempBody_cause (s : State) : (tempBody s).2.cause = s.cause ∨ (tempBody s).2.cause = some .timeout ∨
    (tempBody s).2.cause = some .frameInvalid := by
  rcases tempBody_cases s with ⟨-, h⟩ | ⟨r, rfl, -, -, ⟨-, h⟩ | ⟨-, h⟩⟩ <;> rw [h] <;> simp

theorem sendBody_cause (op : Byte) (s : State) :
    (sendBody op s).2.cause = s.cause ∨ (sendBody op s).2.cause = some .timeout := by
  rcases sendBody_cases op s with ⟨-, h⟩ | ⟨-, h⟩ <;> rw [h] <;> simp [takeResponse]

/-- A poll never clears `snap_valid` (10_state.md R24). -/
theorem pollBody_snapValid {s : State} (h : s.snapValid = true) : (pollBody s).2.snapValid = true := by
  have he := pollBody_end s
  cases hok : (pollBody s).1 with
  | true =>
    obtain ⟨-, p, -, -, hs, -⟩ := he.committed hok
    exact hs.1
  | false => rw [(he.failed hok).2.2.1, h]

end Sys2Proof.Machine
end

