-- ==== Sys2Proof/Laws/Encoding.lean ====
section
/-! SUPPORT. Numbers written as bytes of a message: the two bytes of a number, and an offset or field code with what stands
beside it, read back and written back. -/

namespace Sys2Proof

@[simp] theorem loByte_toNat (n : Nat) : (loByte n).toNat = n % 256 := BitVec.toNat_ofNat n 8

@[simp] theorem hiByte_toNat (n : Nat) : (hiByte n).toNat = n / 256 % 256 := BitVec.toNat_ofNat (n / 256) 8

/-- A number below 65536 is read back from its two bytes. -/
theorem wordOf_bytes {n : Nat} (h : n < 65536) : wordOf (loByte n) (hiByte n) = n := by
  rw [wordOf, loByte_toNat, hiByte_toNat]
  omega

@[simp] theorem loByte_wordOf (lo hi : Byte) : loByte (wordOf lo hi) = lo := by
  rw [← BitVec.toNat_inj, loByte_toNat, wordOf]
  have := lo.isLt
  omega

@[simp] theorem hiByte_wordOf (lo hi : Byte) : hiByte (wordOf lo hi) = hi := by
  rw [← BitVec.toNat_inj, hiByte_toNat, wordOf]
  have := lo.isLt
  have := hi.isLt
  omega

theorem wordOf_lt (lo hi : Byte) : wordOf lo hi < 65536 := by
  have := lo.isLt
  have := hi.isLt
  rw [wordOf]
  omega

/-- An offset or field code that can be presented is read back (log 29). -/
theorem decodeOffset_beside {n : Nat} (h : n < 65536) : decodeOffset (loByte n) (besideOffset n) = .ok n := by
  rw [besideOffset]
  split
  · rw [decodeOffset, loByte_toNat, Nat.mod_eq_of_lt ‹_›]
  · have h0 : hiByte n ≠ 0 := by
      rw [ne_eq, ← BitVec.toNat_inj, hiByte_toNat]
      show ¬n / 256 % 256 = 0
      omega
    rw [decodeOffset, if_neg h0, wordOf_bytes h]

/-- Whatever is read as an offset or field code is written back as it stood. -/
theorem decodeOffset_ok {a : Byte} {beside : List Byte} {n : Nat} (h : decodeOffset a beside = .ok n) :
    n < 65536 ∧ loByte n = a ∧ besideOffset n = beside := by
  unfold decodeOffset at h
  split at h
  · cases h
    have ha := a.isLt
    refine ⟨by omega, ?_, if_pos ha⟩
    rw [← BitVec.toNat_inj, loByte_toNat, Nat.mod_eq_of_lt ha]
  · rename_i hi
    split at h <;> cases h
    rename_i h0
    refine ⟨wordOf_lt a hi, loByte_wordOf a hi, ?_⟩
    have h1 : 0 < hi.toNat := Nat.pos_of_ne_zero fun e => h0 (BitVec.toNat_inj.1 e)
    rw [besideOffset, if_neg (by rw [wordOf]; omega), hiByte_wordOf]
  · cases h

/-- The numeric code of a field is decoded to it: any special field of a legal configuration, and the raw fields that no
special code hides (30_encoding.md R110, 44_driver_ops.md R215). -/
theorem fieldOfCode_codeOfField {c : Config} {f : Field} (hc : c.wf = true) (hf : f.wf c = true) :
    Machine.fieldOfCode c (Machine.codeOfField c f) = f ∧ Machine.codeOfField c f < 65536 := by
  simp only [Config.wf, Bool.and_eq_true, decide_eq_true_eq, List.all_eq_true] at hc
  obtain ⟨⟨⟨-, hv⟩, hn⟩, -⟩ := hc
  simp only [Config.volumeOffsets, List.mem_cons, forall_eq_or_imp, List.not_mem_nil] at hv
  simp only [Config.fieldCodes, Config.volumeOffsets, List.cons_append, List.nil_append, List.nodup_cons, List.mem_cons,
    not_or, List.not_mem_nil] at hn
  obtain ⟨⟨a1, a2, a3, a4, a5, a6, -⟩, ⟨b2, b3, b4, b5, b6, -⟩, ⟨d3, d4, d5, d6, -⟩, ⟨e4, e5, e6, -⟩, ⟨g5, g6, -⟩,
    ⟨k6, -⟩, -⟩ := hn
  obtain ⟨v1, v2, v3, v4, -⟩ := hv
  have byte : ∀ b : Byte, b.toNat < 65536 := fun b => Nat.lt_trans b.isLt (by decide)
  have short : ∀ o, o < 256 → o < 65536 := fun _ h => Nat.lt_trans h (by decide)
  unfold Machine.fieldOfCode
  cases f with
  | version => exact ⟨if_pos rfl, byte _⟩
  | power => exact ⟨(if_neg (Ne.symm a1)).trans (if_pos rfl), byte _⟩
  | input => exact ⟨(if_neg (Ne.symm a2)).trans ((if_neg (Ne.symm b2)).trans (if_pos rfl)), byte _⟩
  | raw off =>
    simp only [Field.wf, Bool.and_eq_true, decide_eq_true_eq] at hf
    exact hf
  | vol ch =>
    cases ch with
    | main => exact ⟨by simp [Machine.codeOfField, Machine.volOffset, Ne.symm a3, Ne.symm b3, Ne.symm d3], short _ v1⟩
    | rear => exact ⟨by simp [Machine.codeOfField, Machine.volOffset, Ne.symm a4, Ne.symm b4, Ne.symm d4, Ne.symm e4],
        short _ v2⟩
    | center =>
      exact ⟨by simp [Machine.codeOfField, Machine.volOffset, Ne.symm a5, Ne.symm b5, Ne.symm d5, Ne.symm e5, Ne.symm g5],
        short _ v3⟩
    | sub =>
      exact ⟨by simp [Machine.codeOfField, Machine.volOffset, Ne.symm a6, Ne.symm b6, Ne.symm d6, Ne.symm e6, Ne.symm g6,
        Ne.symm k6], short _ v4⟩

/-- The field of a numeric code has that code. -/
theorem codeOfField_fieldOfCode (c : Config) (a : Nat) : Machine.codeOfField c (Machine.fieldOfCode c a) = a := by
  unfold Machine.fieldOfCode
  split_ifs <;> simp_all [Machine.codeOfField, Machine.volOffset]

/-- The field of a numeric code that can be presented is well formed. -/
theorem fieldOfCode_wf (c : Config) {a : Nat} (ha : a < 65536) : (Machine.fieldOfCode c a).wf c = true := by
  cases h : Machine.fieldOfCode c a with
  | raw off =>
    have e : off = a := by
      have e := codeOfField_fieldOfCode c a
      rwa [h] at e
    subst e
    simp [Field.wf, h, ha]
  | _ => rfl

/-- READ_FIELD and WRITE_REGISTER are read back with every code and offset that can be presented. -/
theorem decodeRead_encoded {c : Config} {f : Field} (hc : c.wf = true) (hf : f.wf c = true) :
    decodeRead c [loByte (Machine.codeOfField c f)] (besideOffset (Machine.codeOfField c f)) = .ok (.readField f) := by
  obtain ⟨h1, h2⟩ := fieldOfCode_codeOfField hc hf
  rw [decodeRead, decodeOffset_beside h2, Except.map, h1]

theorem decodeWrite_encoded {off : Nat} (val : Byte) (h : off < 65536) :
    decodeWrite [loByte off, val] (besideOffset off) = .ok (.writeRegister off val) := by
  rw [decodeWrite, decodeOffset_beside h, Except.map]

/-- Whatever is read as READ_FIELD is well formed and is written as it stood. -/
theorem decodeRead_ok {c : Config} {args beside : List Byte} {i : Instr} (h : decodeRead c args beside = .ok i) :
    ∃ f, i = .readField f ∧ f.wf c = true ∧ args = [loByte (Machine.codeOfField c f)] ∧
      beside = besideOffset (Machine.codeOfField c f) := by
  unfold decodeRead at h
  split at h
  · rename_i a
    cases hd : decodeOffset a beside with
    | error e => rw [hd] at h; cases h
    | ok code =>
      rw [hd] at h
      cases h
      obtain ⟨h1, h2, h3⟩ := decodeOffset_ok hd
      refine ⟨_, rfl, fieldOfCode_wf c h1, ?_, ?_⟩ <;> rw [codeOfField_fieldOfCode]
      · rw [h2]
      · exact h3.symm
  · cases h

/-- Whatever is read as WRITE_REGISTER is well formed and is written as it stood. -/
theorem decodeWrite_ok {args beside : List Byte} {i : Instr} (h : decodeWrite args beside = .ok i) :
    ∃ off val, i = .writeRegister off val ∧ off < 65536 ∧ args = [loByte off, val] ∧ beside = besideOffset off := by
  unfold decodeWrite at h
  split at h
  · rename_i a b
    cases hd : decodeOffset a beside with
    | error e => rw [hd] at h; cases h
    | ok off =>
      rw [hd] at h
      cases h
      obtain ⟨h1, h2, h3⟩ := decodeOffset_ok hd
      exact ⟨off, b, rfl, h1, by rw [h2], h3.symm⟩
  · cases h

end Sys2Proof
end

