-- ==== Sys2Proof/Laws/PerInstr.lean ====
section
/-! SUPPORT. The statements made per instruction: the shape of the word each instruction is written as. -/

namespace Sys2Proof.Laws

open Sys2Proof Sys2Proof.Machine

/-- The format of an instruction's message (column "format" of spec/opcode_table.json, 30_encoding.md R73, R100). -/
def formatOf : Instr → Format
  | .getStatus => .w1
  | .getTemp => .w1
  | .pwrOn => .w1
  | .pwrOff => .w1
  | .muteOn => .w1
  | .muteOff => .w1
  | .inputUp => .w1
  | .inputDown => .w1
  | .selInputAux => .w1
  | .selInputDStereo => .w1
  | .selInputC => .w1
  | .selInputD => .w1
  | .selInputE => .w1
  | .selInputF => .w1
  | .selEffect3D => .w1
  | .selEffectNone => .w1
  | .selEffectE _ => .w1
  | .decodeOn => .w1
  | .decodeOff => .w1
  | .blockOn => .w1
  | .blockOff => .w1
  | .eepromSave => .w1
  | .inputSelectSequence _ _ => .w4
  | .volMain _ => .reg
  | .volRear _ => .reg
  | .volCenter _ => .reg
  | .volSub _ => .reg
  | .statusFrame _ => .rs
  | .registerWriteFrame _ => .wf
  | .temperatureFrame _ => .rt
  | .responseByte _ => .r1
  | .uartCharacter .inbound _ _ _ => .charIn
  | .uartCharacter .outbound _ _ _ => .charOut
  | .lrc _ _ => .host
  | .lrcStore _ _ => .host
  | .lrcCheck _ _ => .host
  | .flush => .host
  | .txWrite _ => .host
  | .await _ => .host
  | .read _ => .host
  | .validateStatus _ _ => .host
  | .validateTemp _ => .host
  | .demux => .host
  | .poll => .host
  | .temp => .host
  | .sendCommand _ => .host
  | .writeRegister _ _ => .host
  | .readField _ => .host
  | .selectInput _ => .host
  | .selectInputEffect _ _ => .host
  | .power _ => .host
  | .muted => .host
  | .decodeMode => .host
  | .snapshot => .host
  | .currentEffect => .host

/-- How many bytes an instruction's word has (column "encoding" of spec/opcode_table.json; a character's eleven bits
take two bytes, log 7). -/
def wordLength : Instr → Nat
  | .getStatus => 1
  | .getTemp => 1
  | .pwrOn => 1
  | .pwrOff => 1
  | .muteOn => 1
  | .muteOff => 1
  | .inputUp => 1
  | .inputDown => 1
  | .selInputAux => 1
  | .selInputDStereo => 1
  | .selInputC => 1
  | .selInputD => 1
  | .selInputE => 1
  | .selInputF => 1
  | .selEffect3D => 1
  | .selEffectNone => 1
  | .selEffectE _ => 1
  | .decodeOn => 1
  | .decodeOff => 1
  | .blockOn => 1
  | .blockOff => 1
  | .eepromSave => 1
  | .inputSelectSequence _ _ => 4
  | .volMain _ => 1
  | .volRear _ => 1
  | .volCenter _ => 1
  | .volSub _ => 1
  | .statusFrame payload => payload.length + 4
  | .registerWriteFrame payload => payload.length + 4
  | .temperatureFrame _ => 10
  | .responseByte _ => 1
  | .uartCharacter _ _ _ _ => 2
  | .lrc _ _ => 1
  | .lrcStore _ _ => 1
  | .lrcCheck _ _ => 1
  | .flush => 1
  | .txWrite _ => 1
  | .await _ => 2
  | .read _ => 2
  | .validateStatus _ _ => 1
  | .validateTemp _ => 1
  | .demux => 1
  | .poll => 1
  | .temp => 1
  | .sendCommand _ => 2
  | .writeRegister _ _ => 3
  | .readField _ => 2
  | .selectInput _ => 2
  | .selectInputEffect _ _ => 3
  | .power _ => 2
  | .muted => 1
  | .decodeMode => 1
  | .snapshot => 1
  | .currentEffect => 1

/-- Whatever the configuration, an instruction is written in its format, with the number of bytes that format has. -/
def WordShape.Statement (i : Instr) : Prop :=
  ∀ c : Config, (encode c i).fmt = formatOf i ∧ (encode c i).word.length = wordLength i

theorem WordShape.getStatus : WordShape.Statement .getStatus := fun _ => ⟨rfl, rfl⟩
theorem WordShape.getTemp : WordShape.Statement .getTemp := fun _ => ⟨rfl, rfl⟩
theorem WordShape.pwrOn : WordShape.Statement .pwrOn := fun _ => ⟨rfl, rfl⟩
theorem WordShape.pwrOff : WordShape.Statement .pwrOff := fun _ => ⟨rfl, rfl⟩
theorem WordShape.muteOn : WordShape.Statement .muteOn := fun _ => ⟨rfl, rfl⟩
theorem WordShape.muteOff : WordShape.Statement .muteOff := fun _ => ⟨rfl, rfl⟩
theorem WordShape.inputUp : WordShape.Statement .inputUp := fun _ => ⟨rfl, rfl⟩
theorem WordShape.inputDown : WordShape.Statement .inputDown := fun _ => ⟨rfl, rfl⟩
theorem WordShape.selInputAux : WordShape.Statement .selInputAux := fun _ => ⟨rfl, rfl⟩
theorem WordShape.selInputDStereo : WordShape.Statement .selInputDStereo := fun _ => ⟨rfl, rfl⟩
theorem WordShape.selInputC : WordShape.Statement .selInputC := fun _ => ⟨rfl, rfl⟩
theorem WordShape.selInputD : WordShape.Statement .selInputD := fun _ => ⟨rfl, rfl⟩
theorem WordShape.selInputE : WordShape.Statement .selInputE := fun _ => ⟨rfl, rfl⟩
theorem WordShape.selInputF : WordShape.Statement .selInputF := fun _ => ⟨rfl, rfl⟩
theorem WordShape.selEffect3D : WordShape.Statement .selEffect3D := fun _ => ⟨rfl, rfl⟩
theorem WordShape.selEffectNone : WordShape.Statement .selEffectNone := fun _ => ⟨rfl, rfl⟩
theorem WordShape.selEffectE (k : Nat) : WordShape.Statement (.selEffectE k) := fun _ => ⟨rfl, rfl⟩
theorem WordShape.decodeOn : WordShape.Statement .decodeOn := fun _ => ⟨rfl, rfl⟩
theorem WordShape.decodeOff : WordShape.Statement .decodeOff := fun _ => ⟨rfl, rfl⟩
theorem WordShape.blockOn : WordShape.Statement .blockOn := fun _ => ⟨rfl, rfl⟩
theorem WordShape.blockOff : WordShape.Statement .blockOff := fun _ => ⟨rfl, rfl⟩
theorem WordShape.eepromSave : WordShape.Statement .eepromSave := fun _ => ⟨rfl, rfl⟩
theorem WordShape.inputSelectSequence (inp : Input) (eff : Effect) : WordShape.Statement (.inputSelectSequence inp eff) := fun _ => ⟨rfl, rfl⟩
theorem WordShape.volMain (use : VolUse) : WordShape.Statement (.volMain use) := fun _ => ⟨rfl, rfl⟩
theorem WordShape.volRear (use : VolUse) : WordShape.Statement (.volRear use) := fun _ => ⟨rfl, rfl⟩
theorem WordShape.volCenter (use : VolUse) : WordShape.Statement (.volCenter use) := fun _ => ⟨rfl, rfl⟩
theorem WordShape.volSub (use : VolUse) : WordShape.Statement (.volSub use) := fun _ => ⟨rfl, rfl⟩
theorem WordShape.statusFrame (payload : List Byte) : WordShape.Statement (.statusFrame payload) := fun _ => ⟨rfl, frameOf_length payload⟩
theorem WordShape.registerWriteFrame (payload : List Byte) : WordShape.Statement (.registerWriteFrame payload) := fun _ => ⟨rfl, frameOf_length payload⟩
theorem WordShape.temperatureFrame (f : TempFrame) : WordShape.Statement (.temperatureFrame f) := fun _ => ⟨rfl, rfl⟩
theorem WordShape.responseByte (v : Byte) : WordShape.Statement (.responseByte v) := fun _ => ⟨rfl, rfl⟩
theorem WordShape.uartCharacter (dir : LineDir) (d : Byte) (parity stop : Bool) : WordShape.Statement (.uartCharacter dir d parity stop) := fun _ => by cases dir <;> exact ⟨rfl, rfl⟩
theorem WordShape.lrc (buf : BufRef) (n : Nat) : WordShape.Statement (.lrc buf n) := fun _ => ⟨rfl, rfl⟩
theorem WordShape.lrcStore (buf : BufRef) (n : Nat) : WordShape.Statement (.lrcStore buf n) := fun _ => ⟨rfl, rfl⟩
theorem WordShape.lrcCheck (buf : BufRef) (n : Nat) : WordShape.Statement (.lrcCheck buf n) := fun _ => ⟨rfl, rfl⟩
theorem WordShape.flush : WordShape.Statement .flush := fun _ => ⟨rfl, rfl⟩
theorem WordShape.txWrite (bs : List Byte) : WordShape.Statement (.txWrite bs) := fun _ => ⟨rfl, rfl⟩
theorem WordShape.await (n : Nat) : WordShape.Statement (.await n) := fun _ => ⟨rfl, rfl⟩
theorem WordShape.read (n : Nat) : WordShape.Statement (.read n) := fun _ => ⟨rfl, rfl⟩
theorem WordShape.validateStatus (buf : BufRef) (n : Nat) : WordShape.Statement (.validateStatus buf n) := fun _ => ⟨rfl, rfl⟩
theorem WordShape.validateTemp (buf : TempRef) : WordShape.Statement (.validateTemp buf) := fun _ => ⟨rfl, rfl⟩
theorem WordShape.demux : WordShape.Statement .demux := fun _ => ⟨rfl, rfl⟩
theorem WordShape.poll : WordShape.Statement .poll := fun _ => ⟨rfl, rfl⟩
theorem WordShape.temp : WordShape.Statement .temp := fun _ => ⟨rfl, rfl⟩
theorem WordShape.sendCommand (op : Byte) : WordShape.Statement (.sendCommand op) := fun _ => ⟨rfl, rfl⟩
theorem WordShape.writeRegister (off : Nat) (val : Byte) : WordShape.Statement (.writeRegister off val) := fun _ => ⟨rfl, rfl⟩
theorem WordShape.readField (f : Field) : WordShape.Statement (.readField f) := fun _ => ⟨rfl, rfl⟩
theorem WordShape.selectInput (inp : Input) : WordShape.Statement (.selectInput inp) := fun _ => ⟨rfl, rfl⟩
theorem WordShape.selectInputEffect (inp : Input) (eff : Effect) : WordShape.Statement (.selectInputEffect inp eff) := fun _ => ⟨rfl, rfl⟩
theorem WordShape.power (on : Bool) : WordShape.Statement (.power on) := fun _ => ⟨rfl, rfl⟩
theorem WordShape.muted : WordShape.Statement .muted := fun _ => ⟨rfl, rfl⟩
theorem WordShape.decodeMode : WordShape.Statement .decodeMode := fun _ => ⟨rfl, rfl⟩
theorem WordShape.snapshot : WordShape.Statement .snapshot := fun _ => ⟨rfl, rfl⟩
theorem WordShape.currentEffect : WordShape.Statement .currentEffect := fun _ => ⟨rfl, rfl⟩

end Sys2Proof.Laws
end

