-- ==== Sys2Proof/Laws/WriteFrame.lean ====
section
/-! SUPPORT. The register-write frame as an instruction: which payloads WRITE_REGISTER can make of the one held, and what
its exchange does. -/

namespace Sys2Proof.Machine

open Sys2Proof.Safety

/-- The operand found for a byte puts that byte (44_driver_ops.md R206). -/
theorem registerValue_of_argument {c : Config} {off : Nat} {b v : Byte} (h : registerArgument c off b = some v) :
    registerValue c off v = b := by
  unfold registerArgument at h
  unfold registerValue
  split at h
  · rename_i hv
    rw [if_pos hv]
    simp only [Option.ite_none_right_eq_some, Option.some.injEq] at h
    obtain ⟨hb, rfl⟩ := h
    apply BitVec.eq_of_toNat_eq
    simp only [volDevMax, volExtMax, scaleDown, BitVec.toNat_ofNat] at hb ⊢
    have h1 : (b.toNat * 255 + (43 - 1)) / 43 < 2 ^ 8 := by omega
    rw [Nat.mod_eq_of_lt h1]
    have h2 : (b.toNat * 255 + (43 - 1)) / 43 * 43 / 255 = b.toNat := by omega
    rw [h2]
    omega
  · rename_i hv
    rw [if_neg hv]
    exact (Option.some.inj h).symm

/-- Every byte a register write puts has an operand. -/
theorem registerArgument_of_value (c : Config) (off : Nat) (v : Byte) :
    ∃ w, registerArgument c off (registerValue c off v) = some w := by
  unfold registerArgument registerValue
  split
  · refine ⟨_, if_pos ?_⟩
    have := v.isLt
    simp only [volDevMax, volExtMax, scaleDown, BitVec.toNat_ofNat]
    exact Nat.le_trans (Nat.mod_le _ _) (by omega)
  · exact ⟨_, rfl⟩

/-- What `differsOnlyAt` decides when the snapshot holds the frame of a payload. -/
theorem differsOnlyAt_iff {r : State} {p q : List Byte} {k : Nat} (hl : r.snapLen = p.length + 4)
    (hm : ∀ a, a < p.length + 4 → memRead r.snap a = (frameOf p)[a]?) :
    differsOnlyAt q k r = true ↔ q.length = p.length ∧ ∀ j, j < p.length → j ≠ k → p[j]? = q[j]? := by
  unfold differsOnlyAt
  simp only [Bool.and_eq_true, decide_eq_true_eq, List.all_eq_true, List.mem_range, Bool.or_eq_true, beq_iff_eq,
    hl, frameOverhead, headerSize]
  constructor
  · rintro ⟨h1, h2⟩
    refine ⟨by omega, fun j hj hk => ?_⟩
    have h := (h2 j (by omega)).resolve_left hk
    rw [hm _ (by omega), Nat.add_comm, frameOf_getElem?_payload p hj] at h
    exact h
  · rintro ⟨h1, h2⟩
    refine ⟨by omega, fun j hj => ?_⟩
    by_cases hk : j = k
    · exact .inl hk
    · right
      rw [hm _ (by omega), Nat.add_comm, frameOf_getElem?_payload p (by omega)]
      exact h2 j (by omega) hk

/-- Operands that are found make the payload of the one held (30_encoding.md R98). -/
theorem frameArguments_some {r : State} {p q : List Byte} {off : Nat} {val : Byte} (hl : r.snapLen = p.length + 4)
    (hm : ∀ a, a < p.length + 4 → memRead r.snap a = (frameOf p)[a]?) (h : frameArguments q r = some (off, val)) :
    3 ≤ off ∧ off ≤ p.length + 2 ∧ q = patchedPayload p off (writtenByte r.cfg off val) := by
  obtain ⟨k, hk, hs⟩ := List.exists_of_findSome?_eq_some h
  rw [List.mem_range] at hk
  simp only [Option.ite_none_right_eq_some, Option.map_eq_some_iff, Prod.mk.injEq] at hs
  obtain ⟨hd, v, hv, rfl, rfl⟩ := hs
  obtain ⟨hlen, hsame⟩ := (differsOnlyAt_iff hl hm).1 hd
  refine ⟨Nat.le_add_right 3 k, by simp only [headerSize]; omega, ?_⟩
  rw [← registerValue_eq, registerValue_of_argument hv, patchedPayload, show headerSize + k - 3 = k by simp [headerSize]]
  apply List.ext_getElem?
  intro j
  rw [List.getElem?_set]
  by_cases hj : k = j
  · subst hj
    rw [if_pos rfl, if_pos (by omega), byteAt, List.getD_eq_getElem?_getD, List.getElem?_eq_getElem hk]
    rfl
  · rw [if_neg hj]
    by_cases hjl : j < p.length
    · exact (hsame j hjl (Ne.symm hj)).symm
    · rw [List.getElem?_eq_none (by omega), List.getElem?_eq_none (by omega)]

/-- Where a register write makes a payload of the one held, operands are found. -/
theorem frameArguments_patched {r : State} {p : List Byte} {off : Nat} (val : Byte) (hl : r.snapLen = p.length + 4)
    (hm : ∀ a, a < p.length + 4 → memRead r.snap a = (frameOf p)[a]?) (h3 : 3 ≤ off) (ho : off ≤ p.length + 2) :
    ∃ a, frameArguments (patchedPayload p off (writtenByte r.cfg off val)) r = some a := by
  generalize hq : patchedPayload p off (writtenByte r.cfg off val) = q
  have hql : q.length = p.length := by rw [← hq, patchedPayload, List.length_set]
  rw [← Option.isSome_iff_exists, frameArguments, List.findSome?_isSome_iff]
  refine ⟨off - 3, List.mem_range.2 (by omega), ?_⟩
  have hd : differsOnlyAt q (off - 3) r = true := by
    refine (differsOnlyAt_iff hl hm).2 ⟨hql, fun j _ hj => ?_⟩
    rw [← hq, patchedPayload, List.getElem?_set, if_neg (Ne.symm hj)]
  have hb : byteAt q (off - 3) = registerValue r.cfg off val := by
    apply byteAt_eq
    rw [← hq, patchedPayload, List.getElem?_set, if_pos rfl, if_pos (by omega), registerValue_eq]
  obtain ⟨w, hw⟩ := registerArgument_of_value r.cfg off val
  rw [if_pos hd, hb, show headerSize + (off - 3) = off by simp only [headerSize]; omega, hw]
  rfl

/-- A register write on a held frame transmits the patched frame, whatever stands beyond it. -/
theorem sendPatched_txs {r : State} {off : Nat} {val : Byte} {p : List Byte} (hv : r.snapValid = true)
    (hl : r.snapLen = p.length + 4) (hm : ∀ a, a < p.length + 4 → memRead r.snap a = (frameOf p)[a]?) (h3 : 3 ≤ off)
    (ho : off ≤ p.length + 2) :
    (sendSnapshot (patchSnapshot off val r)).txs =
      r.txs ++ frameOf (patchedPayload p off (writtenByte r.cfg off val)) := by
  obtain ⟨q1, -⟩ := patchSnapshot_spec (s := r) (val := val) hv hl h3 ho hm
  rw [registerValue_eq] at q1
  have hfl : (frameOf (patchedPayload p off (writtenByte r.cfg off val))).length = p.length + 4 := by
    rw [frameOf_length, patchedPayload, List.length_set]
  rw [sendSnapshot_spec (fr := frameOf (patchedPayload p off (writtenByte r.cfg off val))) (by rw [hfl, ← hl]; rfl)
    (by rw [hfl]; exact q1)]
  simp

/-- A register write sends its frame in one write between two flushes (44_driver_ops.md R205). -/
theorem sendSnapshot_hist (s : State) :
    ∃ h, WriteFollows s.hist h (bufView s .snap s.snapLen) ∧ FlushFollows h (sendSnapshot s).hist :=
  ⟨_, transmit_hist _ (afterView .snap s.snapLen s), flushRx_hist _⟩

end Sys2Proof.Machine
end

