-- ==== Sys2Proof/Tests/Slice0.lean ====
section
/-! SUPPORT. The model's own tests: the ill-formed terms that WellFormed refuses, a word written out from the spec's
encoding for every constructor, one or two steps of every instruction with the results of 95_test_vectors.md, and for
every obligation with hypotheses a witness that meets them. -/

namespace Sys2Proof.Tests

open Sys2Proof Sys2Proof.Machine Sys2Proof.Safety

/-! ## What WellFormed refuses -/

theorem test_effect_beyond_EFFECTS_is_ill_formed :
    Effect.wf Config.ex1 (.further 0) = true ∧ Effect.wf Config.ex1 (.further 1) = false ∧
      Instr.wf Config.ex1 (.selEffectE 1) = false ∧ Instr.wf Config.ex1 (.selectInputEffect .aux (.further 1)) = false ∧
      Instr.wf Config.ex1 (.inputSelectSequence .aux (.further 1)) = false := by decide
theorem test_special_code_read_raw_is_ill_formed :
    Instr.wf Config.ex1 (.readField (.raw 0x03)) = false ∧ Instr.wf Config.ex1 (.readField (.raw 0xF0)) = false ∧
      Instr.wf Config.ex1 (.readField (.raw 0x07)) = true := by decide
theorem test_payload_of_256_is_ill_formed (bs : List Byte) (h : bs.length = 256) :
    Instr.wf Config.ex1 (.statusFrame bs) = false ∧ Instr.wf Config.ex1 (.registerWriteFrame bs) = false ∧
      Instr.wf Config.ex1 (.statusFrame bs.tail) = true := by simp [Instr.wf, h]
theorem test_outbound_character_with_wrong_bits_is_ill_formed :
    Instr.wf Config.ex1 (.uartCharacter .outbound 0x34 true true) = false ∧
      Instr.wf Config.ex1 (.uartCharacter .outbound 0x34 false false) = false ∧
      Instr.wf Config.ex1 (.uartCharacter .inbound 0x34 true false) = true := by decide
theorem test_length_of_65536_is_ill_formed :
    Instr.wf Config.ex1 (.lrc .snap 65536) = false ∧ Instr.wf Config.ex1 (.lrcStore .snap 65536) = false ∧
      Instr.wf Config.ex1 (.lrcCheck .snap 65536) = false ∧ Instr.wf Config.ex1 (.validateStatus .snap 65540) = false ∧
      Instr.wf Config.ex1 (.validateStatus .snap 3) = false := by decide
theorem test_offset_of_65536_is_ill_formed :
    Instr.wf Config.ex1 (.readField (.raw 65536)) = false ∧ Instr.wf Config.ex1 (.writeRegister 65536 0) = false ∧
      Instr.wf Config.ex1 (.readField (.raw 257)) = true ∧ Instr.wf Config.ex1 (.writeRegister 257 0) = true := by decide
theorem test_sequence_of_65536_is_ill_formed (bs : List Byte) (h : bs.length = 65536) :
    Instr.wf Config.ex1 (.validateTemp (.given bs)) = false := by simp [Instr.wf, TempRef.wf, h]
theorem test_counts_of_nothing_are_ill_formed :
    Instr.wf Config.ex1 (.txWrite []) = false ∧ Instr.wf Config.ex1 (.await 0) = false ∧
      Instr.wf Config.ex1 (.await 65537) = false ∧ Instr.wf Config.ex1 (.read 0) = false ∧
      Instr.wf Config.ex1 (.read 65537) = false := by decide
theorem test_write_of_65537_is_ill_formed (bs : List Byte) (h : bs.length = 65537) :
    Instr.wf Config.ex1 (.txWrite bs) = false := by simp [Instr.wf, h]
theorem test_illegal_configurations :
    Config.ex1.wf = true ∧ Config.wf { Config.ex1 with timeout := 0 } = false ∧
      Config.wf { Config.ex1 with bufCap := 31 } = false ∧ Config.wf { Config.ex1 with bufCap := 260 } = false ∧
      Config.wf { Config.ex1 with rxDepth := 60 } = false ∧ Config.wf { Config.ex1 with opGetTemp := 0xE0 } = false ∧
      Config.wf { Config.ex1 with offMain := 2 } = false ∧ Config.wf { Config.ex1 with fieldPower := 0xF0 } = false := by
  decide

/-! ## Words written out from the spec's encodings -/

/-- What a message with nothing beside it decodes to. -/
def word (f : Format) (w : List Byte) : Except DecodeError Instr := decode Config.ex1 ⟨f, w, []⟩

/-- What a host command word decodes to, with what is passed beside it. -/
def hostWord (w beside : List Byte) : Except DecodeError Instr := decode Config.ex1 ⟨.host, w, beside⟩

/-- 30_encoding.md R74 to R95: one byte each, the values of EX1. -/
theorem test_decode_wire_commands :
    word .w1 [0xE0] = .ok .getStatus ∧ word .w1 [0xE1] = .ok .getTemp ∧ word .w1 [0xEE] = .ok .pwrOn ∧
      word .w1 [0xEF] = .ok .pwrOff ∧ word .w1 [0xE2] = .ok .muteOn ∧ word .w1 [0xE3] = .ok .muteOff ∧
      word .w1 [0xF4] = .ok .inputUp ∧ word .w1 [0xF5] = .ok .inputDown ∧ word .w1 [0xE4] = .ok .selInputAux ∧
      word .w1 [0xE5] = .ok .selInputDStereo ∧ word .w1 [0xE6] = .ok .selInputC ∧ word .w1 [0xE7] = .ok .selInputD ∧
      word .w1 [0xE8] = .ok .selInputE ∧ word .w1 [0xE9] = .ok .selInputF ∧ word .w1 [0xEA] = .ok .selEffect3D ∧
      word .w1 [0xEB] = .ok .selEffectNone ∧ word .w1 [0xF8] = .ok (.selEffectE 0) ∧ word .w1 [0xEC] = .ok .decodeOn ∧
      word .w1 [0xED] = .ok .decodeOff ∧ word .w1 [0xF2] = .ok .blockOn ∧ word .w1 [0xF3] = .ok .blockOff ∧
      word .w1 [0xF1] = .ok .eepromSave ∧ word .w1 [0x77] = .error (.unknownOpcode 0x77) := by decide

/-- 30_encoding.md R73, format W4: MUTE_ON, the input, the effect, MUTE_OFF. -/
theorem test_decode_input_select_sequence :
    word .w4 [0xE2, 0xE9, 0xEB, 0xE3] = .ok (.inputSelectSequence .inF .noEffect) ∧
      word .w4 [0xE2, 0xE5, 0xF8, 0xE3] = .ok (.inputSelectSequence .dstereo (.further 0)) ∧
      word .w4 [0xE3, 0xE9, 0xEB, 0xE2] = .error .badSequence ∧
      word .w4 [0xE2, 0xEB, 0xE9, 0xE3] = .error .badSequence := by decide

/-- 30_encoding.md R96: the offsets 3 to 6 as register opcodes. -/
theorem test_decode_register_opcodes :
    decode Config.ex1 ⟨.reg, [0x03], [0x22]⟩ = .ok (.volMain .read) ∧
      decode Config.ex1 ⟨.reg, [0x04], [0x22]⟩ = .ok (.volRear .read) ∧
      decode Config.ex1 ⟨.reg, [0x05], [0x21, 0x80]⟩ = .ok (.volCenter (.write 0x80)) ∧
      decode Config.ex1 ⟨.reg, [0x06], [0x21, 0xFF]⟩ = .ok (.volSub (.write 0xFF)) ∧
      decode Config.ex1 ⟨.reg, [0x07], [0x22]⟩ = .error (.unknownRegister 0x07) := by decide

/-- 30_encoding.md R98, R99 and format R1 of R73, with the frames of V13, V19, V23. -/
theorem test_decode_frames :
    word .rs [0xAA, 0x0A, 0x00, 0xF6] = .ok (.statusFrame []) ∧
      word .rs [0xAA, 0x0A, 0x02, 0x10, 0x20, 0xC4] = .ok (.statusFrame [0x10, 0x20]) ∧
      word .rs [0xAB, 0x0A, 0x00, 0xF6] = .error .badFrame ∧ word .rs [0xAA, 0x0A, 0x01, 0xF6] = .error .badFrame ∧
      word .rs [0xAA, 0x0A, 0x00, 0xF7] = .error .badChecksum ∧
      word .wf [0xAA, 0x0A, 0x01, 0xF6, 0xFF] = .ok (.registerWriteFrame [0xF6]) ∧
      word .rt [1, 2, 0x0C, 3, 4, 5, 6, 0x2A, 7, 8] = .ok (.temperatureFrame ⟨1, 2, 3, 4, 5, 6, 0x2A, 7, 8⟩) ∧
      word .rt [1, 0x0C, 5, 3, 4, 5, 6, 0x2A, 7, 8] = .error .badFrame ∧ word .r1 [0x34] = .ok (.responseByte 0x34) := by
  decide

/-- 30_encoding.md R70 with V47 and V48: the bits 0 00101100 0 1 and 0 01010101 1 1, the first lowest. -/
theorem test_decode_characters :
    word .charIn [0b01101000, 0b100] = .ok (.uartCharacter .inbound 0x34 false true) ∧
      word .charOut [0b01010100, 0b111] = .ok (.uartCharacter .outbound 0xAA true true) ∧
      word .charOut [0b01101000, 0b110] = .error .badCharacter ∧ word .charIn [0b01101001, 0b100] = .error .badCharacter ∧
      characterBits 0x34 = [false, false, false, true, false, true, true, false, false, false, true] ∧
      characterBits 0xAA = [false, false, true, false, true, false, true, false, true, true, true] := by decide

/-- 30_encoding.md R100, the ordinals 00 to 09; what stands beside the word as in log 2. -/
theorem test_decode_unit_operations :
    hostWord [0x00] [0, 0x20, 0] = .ok (.lrc .snap 32) ∧ hostWord [0x01] [1, 4, 0] = .ok (.lrcStore .stage 4) ∧
      hostWord [0x02] [3, 4, 0, 0xAA, 0x0A, 0, 0xF6] = .ok (.lrcCheck (.given [0xAA, 0x0A, 0, 0xF6]) 4) ∧
      hostWord [0x03] [] = .ok .flush ∧ hostWord [0x04] [1, 0, 0xE0, 0x11] = .ok (.txWrite [0xE0, 0x11]) ∧
      hostWord [0x05, 0x04] [0] = .ok (.await 4) ∧ hostWord [0x06, 0x00] [0] = .ok (.read 256) ∧
      hostWord [0x06, 0x03] [1] = .ok (.read 259) ∧ hostWord [0x07] [1, 28, 0] = .ok (.validateStatus .stage 32) ∧
      hostWord [0x08] [0] = .ok (.validateTemp .tmp) ∧ hostWord [0x09] [] = .ok .demux := by decide

/-- 30_encoding.md R100 to R113, the ordinals 10 and 11 and 20 to 28. -/
theorem test_decode_driver_operations :
    hostWord [0x10] [] = .ok .poll ∧ hostWord [0x11] [] = .ok .temp ∧
      hostWord [0x20, 0xE2] [] = .ok (.sendCommand 0xE2) ∧ hostWord [0x21, 0x03, 0x80] [] = .ok (.writeRegister 3 0x80) ∧
      hostWord [0x22, 0xF0] [] = .ok (.readField .version) ∧ hostWord [0x22, 0xF6] [] = .ok (.readField .power) ∧
      hostWord [0x22, 0xF7] [] = .ok (.readField .input) ∧ hostWord [0x22, 0x06] [] = .ok (.readField (.vol .sub)) ∧
      hostWord [0x22, 0x08] [] = .ok (.readField (.raw 8)) ∧ hostWord [0x23, 0x05] [] = .ok (.selectInput .inF) ∧
      hostWord [0x23, 0x02, 0x01] [] = .ok (.selectInputEffect .inC .noEffect) ∧
      hostWord [0x24, 0x01] [] = .ok (.power true) ∧ hostWord [0x24, 0x00] [] = .ok (.power false) ∧
      hostWord [0x25] [] = .ok .muted ∧ hostWord [0x26] [] = .ok .decodeMode ∧ hostWord [0x27] [] = .ok .snapshot ∧
      hostWord [0x28] [] = .ok .currentEffect := by decide

/-- Offsets above 255: byte a of the word and, beside it, the blocks of 256 (log 29). -/
theorem test_decode_far_offsets :
    hostWord [0x22, 0x01] [1] = .ok (.readField (.raw 257)) ∧ hostWord [0x22, 0x03] [1] = .ok (.readField (.raw 259)) ∧
      hostWord [0x21, 0x00, 0x80] [1] = .ok (.writeRegister 256 0x80) ∧
      hostWord [0x22, 0x03] [0] = .error .badLength := by decide

/-- Words that are no operation. -/
theorem test_decode_refusals :
    hostWord [] [] = .error .emptyWord ∧ hostWord [0x0A] [] = .error (.unknownHop 0x0A) ∧
      hostWord [0x29] [] = .error (.unknownHop 0x29) ∧ hostWord [0x10, 0x00] [] = .error .badLength ∧
      hostWord [0x23, 0x06] [] = .error (.unknownInput 6) ∧ hostWord [0x23, 0x00, 0x03] [] = .error (.unknownEffect 3) ∧
      hostWord [0x24, 0x02] [] = .error (.badPowerBit 2) ∧ hostWord [0x00] [4, 0, 0] = .error (.unknownBuffer 4) ∧
      hostWord [0x01] [2, 4, 0] = .error (.unknownBuffer 2) ∧ hostWord [0x08] [1] = .error (.unknownBuffer 1) := by
  decide

/-- The words of spec/opcode_table.json, bit 0 the least significant bit of the first byte. -/
theorem test_decode_table_words :
    decodeTableWord 8 0x10 = some .poll ∧ decodeTableWord 8 0xE2 = some .muteOn ∧
      decodeTableWord 24 0x800321 = some (.writeRegister 3 0x80) ∧ decodeTableWord 32 0xE3EAE4E2 =
        some (.inputSelectSequence .aux .e3d) ∧ decodeTableWord 32 0xF6000AAA = some (.statusFrame []) := by decide

/-! ## One step of every instruction -/

/-- The payload of FRAME_B (95_test_vectors.md). -/
def payloadB : List Byte :=
  [0x14, 0x12, 0x16, 0x1E, 0x02, 0x00, 0x00, 0x01, 0x00, 0x00, 0x02, 0x00, 0x01, 0x01, 0x01, 0x02, 0x03, 0x00, 0x01, 0, 0, 0,
    0, 0, 0, 0, 0, 0]

/-- FRAME_B as 95_test_vectors.md writes it. -/
def frameB : List Byte := [0xAA, 0x0A, 0x1C] ++ payloadB ++ [0x72]

/-- FRAME_A as 95_test_vectors.md writes it. -/
def frameA : List Byte := [0xAA, 0x0A, 0x1C, 0x14] ++ List.replicate 27 0 ++ [0xC6]

/-- After reset, with an amplifier that answers the first request with these bytes two ticks after it. -/
def answering (bs : List Byte) : State := State.resetWith Config.ex1 [⟨0, []⟩, ⟨2, bs⟩] []

/-- The longest frame: payload 254 zeros and 7, which stands at offset 257; 0 - (0A + FF + 07) = F0. -/
def frameWide : List Byte := [0xAA, 0x0A, 0xFF] ++ List.replicate 254 0 ++ [7, 0xF0]

/-- A machine whose buffers hold it, with an amplifier that answers the first request with it. -/
def answeringWide : State :=
  State.resetWith { Config.ex1 with bufCap := 259, rxDepth := 259 } [⟨0, []⟩, ⟨2, frameWide⟩] []

/-- After reset, with a frame held as the snapshot. -/
def holding (fr : List Byte) : State :=
  { State.reset with snap := memStore [] 0 fr, snapLen := fr.length, snapValid := true }

/-- After reset, with these bytes in the receive queue. -/
def queued (bs : List Byte) : State := { State.reset with rxq := bs }

/-- The result an instruction delivers, if it answers a next state. -/
def resultOf (i : Instr) (s : State) : Option OpResult :=
  match exec i s with
  | .next t => some t.result
  | _ => none

/-- What an instruction leaves in one part of the state, if it answers a next state. -/
def after {α : Type} (i : Instr) (s : State) (f : State → α) : Option α :=
  match exec i s with
  | .next t => some (f t)
  | _ => none

/-- 30_encoding.md R76 to R95, V59: the opcode goes out, the answer is the result. -/
theorem test_wire_commands_send_their_opcode :
    [Instr.pwrOn, .pwrOff, .muteOn, .muteOff, .inputUp, .inputDown, .selInputAux, .selInputDStereo, .selInputC, .selInputD,
        .selInputE, .selInputF, .selEffect3D, .selEffectNone, .selEffectE 0, .decodeOn, .decodeOff, .blockOn, .blockOff,
        .eepromSave].map (fun i => after i (answering [0x5A]) fun t => (t.txs, t.result)) =
      [0xEE, 0xEF, 0xE2, 0xE3, 0xF4, 0xF5, 0xE4, 0xE5, 0xE6, 0xE7, 0xE8, 0xE9, 0xEA, 0xEB, 0xF8, 0xEC, 0xED, 0xF2, 0xF3,
        0xF1].map (fun b => some ([b], OpResult.byte 0x5A)) := by decide
/-- 44_driver_ops.md R201: the cache after the four opcodes, from both of its states. -/
theorem test_wire_commands_update_the_cache :
    after .muteOn (answering []) (·.muted) = some true ∧
      after .muteOff { answering [] with muted := true } (·.muted) = some false ∧
      after .decodeOn (answering []) (·.decode) = some true ∧
      after .decodeOff { answering [] with decode := true } (·.decode) = some false ∧
      after .pwrOff { answering [] with muted := true } (·.muted) = some true := by decide
theorem test_getStatus_takes_frame_A : after .getStatus (answering frameA) (fun t => (t.result, t.snapLen, t.txs)) =
    some (.flag true, 32, [0xE0]) := by decide +kernel
/-- P5, step 1. -/
theorem test_getTemp_good : after .getTemp (answering [0, 0, 0x0C, 0, 0, 0, 0, 0x2A, 0, 0]) (fun t => (t.result, t.txs)) =
    some (.byte 0x2A, [0xE1]) := by decide
/-- V53 as a line message. -/
theorem test_inputSelectSequence_sends : after (.inputSelectSequence .inC .e3d) State.reset (·.txs) =
    some [0xE2, 0xE6, 0xEA, 0xE3] := by decide
/-- V60. -/
theorem test_register_opcodes_read :
    resultOf (.volMain .read) (answering frameB) = some (.number 118) ∧
      resultOf (.volRear .read) (answering frameB) = some (.number 106) ∧
      resultOf (.volCenter .read) (answering frameB) = some (.number 130) ∧
      resultOf (.volSub .read) (answering frameB) = some (.number 177) := by decide +kernel
/-- P2, V68. -/
theorem test_register_opcodes_write :
    after (.volMain (.write 128)) (answering frameB) (·.txs) =
        some (0xE0 :: ((frameB.set 3 0x15).set 31 0x71)) ∧
      after (.volSub (.write 255)) (answering frameB) (·.txs) = some (0xE0 :: ((frameB.set 6 0x2B).set 31 0x65)) := by
  decide +kernel
theorem test_volRear_write_moves_byte_4 : after (.volRear (.write 0)) (answering frameB) (fun t => memRead t.snap 4) =
    some (some 0) := by decide +kernel
theorem test_volCenter_write_moves_byte_5 : after (.volCenter (.write 6)) (answering frameB) (fun t => memRead t.snap 5) =
    some (some 1) := by decide +kernel
theorem test_statusFrame_arrives : after (.statusFrame []) (queued [0x11]) (·.rxq) =
    some [0x11, 0xAA, 0x0A, 0x00, 0xF6] := by decide
theorem test_statusFrame_beyond_depth_is_lost :
    after (.statusFrame []) (queued (List.replicate 62 0x11)) (·.rxq) =
      some (List.replicate 62 0x11 ++ [0xAA, 0x0A]) := by decide +kernel
/-- P2: the frame goes out that differs from the polled one in its first payload byte; a second change, and it does not. -/
theorem test_registerWriteFrame_sends :
    after (.registerWriteFrame (payloadB.set 0 0x15)) (answering frameB) (·.txs) =
        some (0xE0 :: ((frameB.set 3 0x15).set 31 0x71)) ∧
      after (.registerWriteFrame ((payloadB.set 0 0x15).set 1 0)) (answering frameB) (·.txs) = some [0xE0] := by
  decide +kernel
theorem test_temperatureFrame_arrives : after (.temperatureFrame ⟨1, 2, 3, 4, 5, 6, 7, 8, 9⟩) State.reset (·.rxq) =
    some [1, 2, 0x0C, 3, 4, 5, 6, 7, 8, 9] := by decide
theorem test_responseByte_arrives : after (.responseByte 0x34) (queued [0x11]) (·.rxq) = some [0x11, 0x34] := by decide
/-- V47: the parity of 34 is 0; a wrong parity is dropped (30_encoding.md R72). -/
theorem test_uartCharacter_inbound :
    after (.uartCharacter .inbound 0x34 false true) State.reset (·.rxq) = some [0x34] ∧
      after (.uartCharacter .inbound 0x34 true true) State.reset (·.rxq) = some [] ∧
      after (.uartCharacter .inbound 0x34 false false) State.reset (·.rxq) = some [] := by decide
theorem test_uartCharacter_outbound : after (.uartCharacter .outbound 0xAA true true) State.reset (·.txs) =
    some [0xAA] := by decide
/-- V1, V4, V7, V8. -/
theorem test_lrc :
    resultOf (.lrc (.given [0xAA, 0x0A, 0x00, 0x55]) 4) State.reset = some (.byte 0xF6) ∧
      resultOf (.lrc (.given [9, 0x01, 9]) 3) State.reset = some (.byte 0xFF) ∧
      resultOf (.lrc (.given [9, 0xFF, 0xFF, 0xFF, 9]) 5) State.reset = some (.byte 0x03) ∧
      resultOf (.lrc (.given [0xAA, 0xFF, 0xFF, 0x02, 9]) 5) State.reset = some (.byte 0x00) := by decide
/-- V2, V3, V9. -/
theorem test_lrc_of_the_frames :
    resultOf (.lrc .snap 32) (holding frameA) = some (.byte 0xC6) ∧
      resultOf (.lrc .snap 32) (holding frameB) = some (.byte 0x72) ∧
      resultOf (.lrc .snap 2) State.reset = some (.byte 0) := by decide +kernel
/-- V11, V12. -/
theorem test_lrcStore :
    after (.lrcStore .snap 4) (holding [0xAA, 0x0A, 0x00, 0x00]) (fun t => memRead t.snap 3) = some (some 0xF6) ∧
      resultOf (.lrcStore (.given [0xAA, 0x0A, 2, 0x10, 0x20, 0]) 6) State.reset =
        some (.bytes [0xAA, 0x0A, 2, 0x10, 0x20, 0xC4]) := by decide
/-- 10_state.md R23: from `snap_len` up `snap` holds no value, and none at all with no frame held. -/
theorem test_lrcStore_beyond_the_frame :
    after (.lrcStore .snap 5) (holding [0xAA, 0x0A, 0x00, 0xF6]) (fun t => (memRead t.snap 4, t.snapLen)) = some (none, 4) ∧
      after (.lrcStore .snap 4) State.reset (fun t => memRead t.snap 3) = some none := by decide
/-- V13, V16, V18. -/
theorem test_lrcCheck :
    resultOf (.lrcCheck (.given [0xAA, 0x0A, 0x00, 0xF6]) 4) State.reset = some (.flag true) ∧
      resultOf (.lrcCheck (.given [0xAA, 0x0A, 0x00, 0xF7]) 4) State.reset = some (.flag false) ∧
      resultOf (.lrcCheck (.given [0x00, 0x0A, 0x00, 0xF6]) 4) State.reset = some (.flag true) ∧
      resultOf (.lrcCheck (.given [0xAA, 0x0A, 2, 0x11, 0x1F, 0xC4]) 6) State.reset = some (.flag true) := by decide
/-- V44, the discard one tick after the deadtime's end. -/
theorem test_flush :
    after .flush { queued [0x05] with now := 100, env := [⟨1, [0x06]⟩, ⟨0, [0x07]⟩] } (fun t => (t.rxq, t.now)) =
      some ([], 106) := by decide
/-- V45. -/
theorem test_txWrite : after (.txWrite [0xE0]) { queued [0x11, 0x22] with txs := [0x33] } (fun t => (t.rxq, t.txs)) =
    some ([], [0x33, 0xE0]) := by decide
/-- V40, V42. -/
theorem test_await_ok :
    resultOf (.await 4) { queued [0xAA, 0x0A, 0x00, 0xF6] with now := 2000 } = some (.awaited true) ∧
      resultOf (.await 1) { State.reset with env := [⟨999, [1]⟩] } = some (.awaited true) := by decide
/-- V41, V43: the loop looks at 1000 and at 1001 nothing more is looked at. -/
theorem test_await_timeout :
    after (.await 4) (queued [0xAA, 0x0A, 0x00]) (fun t => (t.result, t.now, t.rxq)) =
        some (.awaited false, 1000, [0xAA, 0x0A, 0x00]) ∧
      after (.await 10) { State.reset with env := [⟨1000, List.replicate 9 1⟩, ⟨1, [2]⟩] } (fun t => (t.result, t.rxq)) =
        some (.awaited false, List.replicate 9 1) := by decide
/-- V46. -/
theorem test_read : after (.read 3) (queued [0xAA, 0x0A, 0x00, 0xF6]) (fun t => (t.result, t.rxq)) =
    some (.bytes [0xAA, 0x0A, 0x00], [0xF6]) := by decide
/-- V14, V15, V20, V22. -/
theorem test_validateStatus :
    resultOf (.validateStatus (.given [0xAA, 0x0A, 0x00, 0xF6]) 4) State.reset = some (.flag true) ∧
      resultOf (.validateStatus (.given [0xAB, 0x0A, 0x00, 0xF6]) 4) State.reset = some (.flag false) ∧
      resultOf (.validateStatus (.given [0xAA, 0x0B, 0x00, 0xF5]) 4) State.reset = some (.flag false) ∧
      resultOf (.validateStatus (.given [0xAA, 0x0A, 0x00, 0xF7]) 4) State.reset = some (.flag false) := by decide
/-- V21. -/
theorem test_validateStatus_frames :
    resultOf (.validateStatus .snap 32) (holding frameA) = some (.flag true) ∧
      resultOf (.validateStatus (.given frameB) 32) State.reset = some (.flag true) := by decide +kernel
/-- V23, V24, V25. -/
theorem test_validateTemp :
    resultOf (.validateTemp (.given [0, 0, 0x0C, 0, 0, 0, 0, 0x2A, 0, 0])) State.reset = some (.flag true) ∧
      resultOf (.validateTemp (.given [0xAA, 0x0C, 5, 0, 0, 0, 0, 0x2A, 0, 0])) State.reset = some (.flag false) ∧
      resultOf (.validateTemp (.given [0xFF, 0xFF, 0x0C, 0xFF])) State.reset = some (.flag true) := by decide
/-- V26 to V29. -/
theorem test_demux_frame_B : resultOf .demux (holding frameB) =
    some (.fields ⟨some 0x14, some 0x12, some 0x16, some 0x1E, some 2, some 0,
      [some 0, some 1, some 0, some 0, some 2, some 0], some 1, some 1, some 1, some 2, some 3, some 0, some 1, some 0xAA,
      some 0x0A, some 0x1C, some 0x72⟩) := by decide +kernel
/-- 42_frame_codec.md R166 (b): with L = 0 every payload output holds no value. -/
theorem test_demux_shortest_frame : resultOf .demux (holding [0xAA, 0x0A, 0, 0xF6]) =
    some (.fields ⟨none, none, none, none, none, none, [none, none, none, none, none, none], none, none, none, none, none,
      none, none, some 0xAA, some 0x0A, some 0, some 0xF6⟩) := by decide +kernel
/-- V19: the shorter frame is taken and FF stays queued. -/
theorem test_poll_shorter_frame :
    after .poll (answering [0xAA, 0x0A, 0x00, 0xF6, 0xFF]) (fun t => (t.result, t.snapLen, t.rxq)) =
      some (.flag true, 4, [0xFF]) := by decide +kernel
/-- P3, steps 3 and 4: the overlong frame is refused at once, the short one times out; the unread byte stays. -/
theorem test_poll_fails :
    after .poll (answering [0xAA, 0x0A, 0x3D, 0x00]) (fun t => (t.result, t.cause, t.rxq, t.now)) =
        some (.flag false, some .frameInvalid, [0x00], 7) ∧
      after .poll (answering [0xAA, 0x0A, 0x1C, 0x14]) (fun t => (t.result, t.cause, t.rxq, t.now)) =
        some (.flag false, some .timeout, [0x14], 1005) := by decide +kernel
/-- P5, steps 1 and 2. -/
theorem test_temp :
    resultOf .temp (answering [0, 0, 0x0C, 0, 0, 0, 0, 0x2A, 0, 0]) = some (.byte 0x2A) ∧
      after .temp (answering [0xAA, 0x0C, 5, 0, 0, 0, 0, 0x2A, 0, 0]) (fun t => (t.result, memRead t.tmp 2)) =
        some (.byte 0, some 5) := by decide
/-- P5, step 3. -/
theorem test_temp_nine_bytes : after .temp (answering [0, 0, 0x0C, 0, 0, 0, 0, 0x2A, 0]) (fun t => (t.result, t.rxq.length)) =
    some (.byte 0, 9) := by decide
/-- V54, V58. -/
theorem test_sendCommand_answered :
    after (.sendCommand 0xE2) (answering [1]) (fun t => (t.result, t.muted, t.txs)) = some (.byte 1, true, [0xE2]) ∧
      after (.sendCommand 0x77) (answering [9]) (fun t => (t.result, t.muted, t.decode)) =
        some (.byte 9, false, false) := by decide
/-- V55. -/
theorem test_sendCommand_silent :
    after (.sendCommand 0xE3) { State.reset with muted := true } (fun t => (t.result, t.muted)) =
      some (.byte 0, false) := by decide
/-- V65, V66. -/
theorem test_writeRegister_refused_offsets :
    after (.writeRegister 2 7) (answering frameB) (fun t => (t.txs, memRead t.snap 2)) = some ([0xE0], some 0x1C) ∧
      after (.writeRegister 31 7) (answering frameB) (fun t => (t.txs, memRead t.snap 31)) = some ([0xE0], some 0x72) := by
  decide +kernel
/-- V67, and the last payload offset of the longest frame (44_driver_ops.md R205, R207). -/
theorem test_writeRegister_unscaled :
    after (.writeRegister 8 1) (answering frameB) (·.txs) = some (0xE0 :: ((frameB.set 8 0x01).set 31 0x71)) ∧
      after (.writeRegister 257 8) answeringWide (·.txs) = some (0xE0 :: ((frameWide.set 257 8).set 258 0xEF)) := by
  decide +kernel
/-- V61. -/
theorem test_readField_special :
    resultOf (.readField .version) (answering frameB) = some (.number 123) ∧
      resultOf (.readField .power) (answering frameB) = some (.number 1) ∧
      resultOf (.readField .input) (answering frameB) = some (.number 2) := by decide +kernel
/-- V62 and V64, and the last payload byte and the checksum of the longest frame (44_driver_ops.md R215). -/
theorem test_readField_raw :
    resultOf (.readField (.raw 0)) (answering frameB) = some (.number 170) ∧
      resultOf (.readField (.raw 10)) (answering frameB) = some (.number 1) ∧
      resultOf (.readField (.raw 31)) (answering frameB) = some (.number 114) ∧
      resultOf (.readField (.raw 257)) answeringWide = some (.number 7) ∧
      resultOf (.readField (.raw 258)) answeringWide = some (.number 240) ∧
      resultOf (.readField (.vol .main)) State.reset = some (.number 0) := by decide +kernel
/-- V50 to V52. -/
theorem test_selectInput_default_effects :
    [Input.aux, .dstereo, .inC, .inD, .inE, .inF].map (fun i => after (.selectInput i) State.reset (·.txs)) =
      [some [0xE2, 0xE4, 0xEA, 0xE3], some [0xE2, 0xE5, 0xEA, 0xE3], some [0xE2, 0xE6, 0xEB, 0xE3],
        some [0xE2, 0xE7, 0xEB, 0xE3], some [0xE2, 0xE8, 0xEB, 0xE3], some [0xE2, 0xE9, 0xEB, 0xE3]] := by decide
/-- V53. -/
theorem test_selectInputEffect :
    after (.selectInputEffect .inC .e3d) { State.reset with muted := true } (fun t => (t.txs, t.muted)) =
      some ([0xE2, 0xE6, 0xEA, 0xE3], true) := by decide
/-- V59. -/
theorem test_power : after (.power true) (answering [3]) (fun t => (t.txs, t.result)) = some ([0xEE], .byte 3) ∧
    after (.power false) (answering [4]) (fun t => (t.txs, t.result)) = some ([0xEF], .byte 4) := by decide
/-- P4, step 2. -/
theorem test_muted : resultOf .muted { State.reset with muted := true } = some (.flag true) := by decide
theorem test_decodeMode : resultOf .decodeMode { State.reset with muted := true } = some (.flag false) := by decide
/-- P3, step 6. -/
theorem test_snapshot : resultOf .snapshot (holding frameB) = some (.bytes frameB) := by decide +kernel
theorem test_refusals : resultOf .snapshot State.reset = none ∧ resultOf .demux State.reset = none ∧
    resultOf .currentEffect State.reset = none ∧ resultOf (.read 1) State.reset = none := by decide

/-! ## The step -/

/-- P1, the operation's word presented at the port of a machine right after reset. -/
theorem test_step_runs_the_presented_word :
    (match step ((answering frameA).withFetchWord 16 0x0322) with
      | .next t => some (t.result, t.snapLen, t.txs, t.port)
      | _ => none) = some (.number 118, 32, [0xE0], []) := by decide +kernel

/-! ## A witness for every obligation with hypotheses -/

theorem frameOf_payloadB : frameOf payloadB = frameB := by decide +kernel

/-- What the one answer of `answering` brings. -/
theorem brings_answering (bs : List Byte) (h : bs.length ≤ 64) : Brings (answering bs) [⟨2, bs⟩] bs :=
  ⟨⟨show 2 + 0 < 1000 by decide, ⟨0, []⟩, [], rfl⟩, by simp [allBytes], h⟩

/-- What that answer brings in all. -/
theorem bringsOnly_answering (bs : List Byte) (h : bs.length ≤ 64) : BringsOnly (answering bs) [⟨2, bs⟩] bs :=
  ⟨⟨[], rfl, .inl rfl⟩, by simp [allBytes], h⟩

/-- After reset nothing answers. -/
theorem bringsOnly_reset : BringsOnly State.reset [] [] := ⟨⟨[], rfl, .inl rfl⟩, rfl, Nat.zero_le _⟩

/-- A buffer filled from index 0 holds those bytes. -/
theorem holding_read (fr : List Byte) (a : Nat) : memRead (holding fr).snap a = fr[a]? := by
  show memRead (memStore [] 0 fr) a = _
  rw [memRead_memStore]
  by_cases h : a < fr.length
  · rw [if_pos (by omega), Nat.sub_zero]
  · rw [if_neg (by omega), List.getElem?_eq_none (by omega)]
    rfl

theorem snapshotIs_holding (fr : List Byte) : SnapshotIs (holding fr) fr := ⟨rfl, rfl, holding_read fr⟩

/-- A given sequence holds its own bytes. -/
theorem heldOn_given (s : State) (bs : List Byte) (lo hi : Nat) (h : hi < bs.length) :
    HeldOn s (.given bs) lo hi (byteAt bs) := by
  intro i _ hi'
  show bs[i]? = some (bs.getD i 0)
  rw [List.getD_eq_getElem?_getD, List.getElem?_eq_getElem (by omega)]
  rfl

/-- The shortest valid frame. -/
def frame0 : List Byte := [0xAA, 0x0A, 0x00, 0xF6]

theorem witness_DecodeOfEncode : Config.ex1.wf = true ∧ Instr.wf Config.ex1 (.selectInputEffect .inF (.further 0)) = true ∧
    Instr.wf Config.ex1 (.read 65536) = true ∧ Instr.wf Config.ex1 (.validateStatus .snap 65539) = true ∧
    Instr.wf Config.ex1 (.validateTemp .tmp) = true := by decide
theorem witness_DecodedIsWellFormed : decode Config.ex1 ⟨.host, [0x22, 0x06], []⟩ = .ok (.readField (.vol .sub)) := by decide
theorem witness_EncodeOfDecode : decode Config.ex1 ⟨.host, [0x05, 0xFF], [0xFF]⟩ = .ok (.await 65535) := by decide
theorem witness_StatusFrameLayout : payloadB.length ≤ 255 ∧ 27 < payloadB.length ∧ ([] : List Byte).length ≤ 255 := by decide
theorem witness_LrcComputes : State.reset.busy = false ∧ 4 ≤ bufSize State.reset.cfg (.given frame0) ∧
    HeldOn State.reset (.given frame0) 1 2 (byteAt frame0) := ⟨rfl, by decide, heldOn_given _ _ _ _ (by decide)⟩
theorem witness_LrcShortLengths : State.reset.busy = false ∧ 2 ≤ 2 ∧ 2 ≤ bufSize State.reset.cfg .stage := by decide
/-- A given sequence; the frame held at its own length, and one byte beyond it; a buffer with no frame held. -/
theorem witness_LrcStoreWritesSlot :
    State.reset.busy = false ∧ 1 ≤ 4 ∧ 4 ≤ bufSize State.reset.cfg (.given frame0) ∧
    HeldOn State.reset (.given frame0) 1 2 (byteAt frame0) ∧ bufPart .snap ≠ [] ∧ (holding frame0).busy = false ∧
    5 ≤ bufSize (holding frame0).cfg .snap ∧ Storable (holding frame0) .snap (4 - 1) ∧
    ¬Storable (holding frame0) .snap (5 - 1) ∧ ¬Storable State.reset .snap (1 - 1) ∧ Storable State.reset .stage (4 - 1) :=
  ⟨rfl, by decide, by decide, heldOn_given _ _ _ _ (by decide), by decide, rfl, by decide, ⟨rfl, by decide⟩,
    fun h => absurd h.2 (by decide), fun h => absurd h.1 (by decide), trivial⟩
theorem witness_LrcStoreThenCheck : (holding frameB).busy = false ∧ 1 ≤ 32 ∧ 32 ≤ bufSize (holding frameB).cfg .snap ∧
    Storable (holding frameB) .snap (32 - 1) ∧ HeldOn (holding frameB) .snap 1 30 (byteAt frameB) := by
  refine ⟨rfl, by decide, by decide, ⟨rfl, by decide⟩, ?_⟩
  intro i h1 h2
  show memRead (holding frameB).snap i = _
  rw [holding_read]
  exact heldOn_given State.reset frameB 1 30 (by decide) i h1 h2
theorem witness_LrcCheckIsSumToZero : State.reset.busy = false ∧ 1 ≤ 4 ∧ 4 ≤ bufSize State.reset.cfg (.given frame0) ∧
    HeldOn State.reset (.given frame0) 1 3 (byteAt frame0) ∧ HeldOn State.reset (.given frame0) 0 0 (byteAt frame0) :=
  ⟨rfl, by decide, by decide, heldOn_given _ _ _ _ (by decide), heldOn_given _ _ _ _ (by decide)⟩
theorem witness_SingleByteFlipDetected : State.reset.busy = false ∧ 4 ≤ frame0.length ∧ 1 ≤ 3 ∧ 3 + 1 ≤ 4 ∧
    frame0[3]? ≠ some 0xF7 ∧ frame0[1]? ≠ some 0x0B ∧
    resultOf (.lrcCheck (.given frame0) 4) State.reset = some (.flag true) := by decide
/-- V12 and V18: the bytes at 3 and 4 both change, and the changes cancel; each alone turns the check false. -/
theorem witness_SingleByteFlipDetected_two_cancel :
    let bs : List Byte := [0xAA, 0x0A, 2, 0x10, 0x20, 0xC4]
    4 < bs.length ∧ resultOf (.lrcCheck (.given bs) bs.length) State.reset = some (.flag true) ∧
      bs[3]? ≠ some 0x11 ∧ bs[4]? ≠ some 0x1F ∧
      resultOf (.lrcCheck (.given ((bs.set 3 0x11).set 4 0x1F)) bs.length) State.reset = some (.flag true) ∧
      resultOf (.lrcCheck (.given (bs.set 3 0x11)) bs.length) State.reset = some (.flag false) ∧
      resultOf (.lrcCheck (.given (bs.set 4 0x1F)) bs.length) State.reset = some (.flag false) := by decide
theorem witness_LengthBeyondBufferFaults : State.reset.busy = false ∧ bufSize State.reset.cfg .stage < 65 ∧
    bufSize State.reset.cfg .snap < 65 ∧ bufSize State.reset.cfg (.given [1]) < 2 ∧ tempSize (.given [1, 2]) ≤ 2 := by decide
theorem witness_FlushDiscards : (queued [5]).busy = false := by decide
theorem witness_WriteFlushesOnceThenSends : (queued [5]).busy = false ∧ ([0xE0] : List Byte) ≠ [] := by decide
theorem witness_ReadPops : (queued frame0).busy = false ∧ 4 ≤ (queued frame0).rxq.length ∧ (queued frame0).rxq.length < 5 := by
  decide
theorem witness_AwaitDecides : (queued frame0).busy = false ∧ 4 ≤ (queued frame0).rxq.length ∧
    resultOf (.await 4) (queued frame0) = some (.awaited true) ∧
    resultOf (.await 5) (queued frame0) = some (.awaited false) := by decide
theorem witness_AwaitSeesTimelyBytes :
    let s : State := { State.reset with env := [⟨999, [1]⟩] }
    s.busy = false ∧ s.env = [⟨999, [1]⟩] ++ [] ∧ s.t0 ≤ s.now ∧ s.now - s.t0 + totalTicks [⟨999, [1]⟩] < s.cfg.timeout ∧
      1 ≤ s.rxq.length + (allBytes [⟨999, [1]⟩]).length ∧
      s.rxq.length + (allBytes [⟨999, [1]⟩]).length ≤ s.cfg.rxDepth := by decide
theorem witness_ValidateStatusIsConjunction : State.reset.busy = false ∧ 4 ≤ 4 ∧
    4 ≤ bufSize State.reset.cfg (.given frame0) ∧ HeldOn State.reset (.given frame0) 0 3 (byteAt frame0) :=
  ⟨rfl, by decide, by decide, heldOn_given _ _ _ _ (by decide)⟩
theorem witness_ValidateTempIsSentinel : State.reset.busy = false ∧ 3 ≤ tempSize (.given [0, 0, 0x0C]) ∧ 3 ≤ tempSize .tmp ∧
    heldTemp State.reset (.given [0, 0, 0x0C]) 2 = some 0x0C ∧
    heldTemp { State.reset with tmp := [⟨2, 0x0D⟩] } .tmp 2 = some 0x0D := by decide
theorem witness_DemuxPresentsFields : (holding frame0).busy = false ∧ (holding frame0).snapValid = true ∧
    State.reset.busy = false ∧ State.reset.snapValid = false := by decide
theorem witness_SnapshotReturnsFrame : (holding frame0).busy = false ∧ (holding frame0).snapValid = true ∧
    3 < (holding frame0).snapLen ∧ memRead (holding frame0).snap 3 = some 0xF6 ∧ State.reset.snapValid = false := by decide
/-- A frame of exactly BUF_CAP bytes, and one with bytes behind it. -/
theorem witness_PollTakesTimelyFrame :
    (answering (frameOf (List.replicate 60 1) ++ [])).busy = false ∧ (List.replicate 60 (1 : Byte)).length ≤ 255 ∧
      (List.replicate 60 (1 : Byte)).length + 4 ≤ Config.ex1.bufCap ∧
      Brings (answering (frameOf (List.replicate 60 1) ++ [])) [⟨2, frameOf (List.replicate 60 1) ++ []⟩]
        (frameOf (List.replicate 60 1) ++ []) ∧
      Brings (answering (frameOf payloadB ++ [9])) [⟨2, frameOf payloadB ++ [9]⟩] (frameOf payloadB ++ [9]) :=
  ⟨rfl, by decide, by decide, brings_answering _ (by rw [List.append_nil, frameOf_length]; decide), brings_answering _ (by decide +kernel)⟩
theorem witness_PollEndsOneOfTwoWays : State.reset.busy = false ∧ resultOf .poll State.reset = some (.flag false) ∧
    resultOf .getStatus (answering frame0) = some (.flag true) := by decide +kernel
theorem witness_PollRefusesOverlongFrame : (answering [0xAA, 0x0A, 61, 0]).busy = false ∧
    (answering [0xAA, 0x0A, 61, 0]).cfg.bufCap < (61 : Byte).toNat + 4 ∧ ([0] : List Byte) ≠ [] ∧
    Brings (answering [0xAA, 0x0A, 61, 0]) [⟨2, [0xAA, 0x0A, 61, 0]⟩] (0xAA :: 0x0A :: 61 :: [0]) :=
  ⟨rfl, by decide, by decide, brings_answering _ (by decide)⟩
/-- A wrong start marker, a wrong model identifier, a wrong checksum: each alone. -/
theorem witness_PollRefusesDamagedFrame : (0 : Byte).toNat + 4 ≤ Config.ex1.bufCap ∧
    ([0xF6] : List Byte).length = (0 : Byte).toNat + 1 ∧ (0xAB : Byte) ≠ 0xAA ∧ (0x0B : Byte) ≠ 0x0A ∧
    sumOn 1 ((0 : Byte).toNat + 3) (byteAt (0xAA :: 0x0A :: 0 :: [0xF7])) % 256 ≠ 0 ∧
    ∀ fr ∈ [[0xAB, 0x0A, 0, 0xF6], [0xAA, 0x0B, 0, 0xF5], [0xAA, 0x0A, 0, 0xF7]],
      (answering (fr ++ [])).busy = false ∧ Brings (answering (fr ++ [])) [⟨2, fr ++ []⟩] (fr ++ []) := by
  refine ⟨by decide, by decide, by decide, by decide, by decide, ?_⟩
  intro fr h
  exact ⟨rfl, brings_answering _ (by revert fr; decide)⟩
theorem witness_SilentLinkTimesOut : State.reset.busy = false ∧ SilentLink State.reset ∧
    SilentLink { holding frame0 with env := [⟨7, []⟩] } ∧ (commandOpcode State.reset.cfg (.power true)).isSome = true ∧
    (fieldRead (.volRear .read)).isSome = true := ⟨rfl, rfl, rfl, rfl, rfl⟩
/-- An amplifier that answers nothing; three bytes; a header of FRAME_B with all of its frame but the last byte. -/
theorem witness_ShortAnswerTimesOut :
    State.reset.busy = false ∧ BringsOnly State.reset [] [] ∧ (answering [1, 2, 3]).busy = false ∧
    BringsOnly (answering [1, 2, 3]) [⟨2, [1, 2, 3]⟩] [1, 2, 3] ∧ (answering frameB.dropLast).busy = false ∧
    (0x1C : Byte).toNat + 4 ≤ (answering frameB.dropLast).cfg.bufCap ∧
    Brings (answering frameB.dropLast) [⟨2, frameB.dropLast⟩] (0xAA :: 0x0A :: 0x1C :: payloadB) ∧ payloadB ≠ [] ∧
    BringsOnly (answering frameB.dropLast) ([⟨2, frameB.dropLast⟩] ++ []) frameB.dropLast ∧
    frameB.dropLast.length < (0x1C : Byte).toNat + 4 :=
  ⟨rfl, bringsOnly_reset, rfl, bringsOnly_answering _ (by decide), rfl, by decide, brings_answering _ (by decide), by decide,
    bringsOnly_answering _ (by decide), by decide⟩
/-- The three ends of a poll, a probe, a command, and an operation without a request. -/
theorem witness_SequencerPath :
    after .poll (answering frame0) (fun t => seqMoves t.hist) = some [.awaitHeader, .awaitPayload, .valid, .idle] ∧
      after (.volMain .read) (answering [1]) (fun t => seqMoves t.hist) = some [.awaitHeader, .failed, .idle] ∧
      after .getStatus (answering [0xAA, 0x0A, 0, 0xF7]) (fun t => seqMoves t.hist) =
        some [.awaitHeader, .awaitPayload, .failed, .idle] ∧
      after .temp State.reset (fun t => seqMoves t.hist) = some [.awaitHeader, .idle] ∧
      after .muteOn State.reset (fun t => seqMoves t.hist) = some [.awaitHeader, .idle] ∧
      after .flush State.reset (fun t => seqMoves t.hist) = some [] := by decide +kernel
theorem witness_ProbeTakesTimelyBytes : ∀ bs ∈ [[0, 0, 0x0C, 0, 0, 0, 0, 0x2A, 0, 0], [0, 0, 0x0D, 0, 0, 0, 0, 0x2A, 0, 0]],
    (answering (bs ++ [9])).busy = false ∧ bs.length = 10 ∧ Brings (answering (bs ++ [9])) [⟨2, bs ++ [9]⟩] (bs ++ [9]) := by
  intro bs h
  have hl : bs.length = 10 := by revert bs; decide
  exact ⟨rfl, hl, brings_answering _ (by simp [hl])⟩
/-- A silent link, and nine bytes. -/
theorem witness_ProbeIsIndependent : State.reset.busy = false ∧ BringsOnly State.reset [] [] ∧
    (answering (List.replicate 9 1)).busy = false ∧
    BringsOnly (answering (List.replicate 9 1)) [⟨2, List.replicate 9 1⟩] (List.replicate 9 1) :=
  ⟨rfl, bringsOnly_reset, rfl, bringsOnly_answering _ (by decide)⟩
theorem witness_CommandReturnsOldestByte : commandOpcode (answering [1, 2]).cfg (.selEffectE 0) = some 0xF8 ∧
    (answering [1, 2]).busy = false ∧ Brings (answering [1, 2]) [⟨2, [1, 2]⟩] (1 :: [2]) :=
  ⟨rfl, rfl, brings_answering _ (by decide)⟩
theorem witness_CommandUpdatesCacheAtIssue : commandOpcode State.reset.cfg (.sendCommand 0xE2) = some 0xE2 ∧
    commandOpcode State.reset.cfg .decodeOff = some 0xED ∧ State.reset.busy = false ∧ State.reset.cfg.wf = true := by decide
theorem witness_CacheOnlyByCommands : commandOpcode State.reset.cfg (.selectInput .aux) = none ∧
    resultOf (.selectInput .aux) State.reset = some .nothing := by decide
/-- The first and the last offset of FRAME_B's payload. -/
theorem witness_RegisterWriteSendsPatchedFrame :
    registerWrite Config.ex1 (.writeRegister 3 128) = some (3, 128) ∧
      registerWrite Config.ex1 (.writeRegister 30 7) = some (30, 7) ∧ (answering (frameOf payloadB ++ [])).busy = false ∧
      payloadB.length ≤ 255 ∧ payloadB.length + 4 ≤ Config.ex1.bufCap ∧
      Brings (answering (frameOf payloadB ++ [])) [⟨2, frameOf payloadB ++ []⟩] (frameOf payloadB ++ []) ∧
      3 ≤ 3 ∧ 3 ≤ payloadB.length + 2 ∧ 30 ≤ payloadB.length + 2 :=
  ⟨rfl, rfl, rfl, by decide, by decide, brings_answering _ (by decide +kernel), by decide, by decide, by decide⟩
/-- A machine that holds FRAME_B, on a link that answers the first request with these bytes. -/
def holdingAnswered (bs : List Byte) : State := { holding frameB with env := [⟨0, []⟩, ⟨2, bs⟩] }

theorem snapshotIs_holdingAnswered (bs : List Byte) : SnapshotIs (holdingAnswered bs) (frameOf payloadB) :=
  ⟨rfl, by rw [frameOf_payloadB]; rfl, by rw [frameOf_payloadB]; exact holding_read frameB⟩

/-- A poll whose result is false. -/
theorem poll_failed {s : State} (h : resultOf .poll s = some (.flag false)) :
    ∃ u, exec .poll s = .next u ∧ u.result = .flag false := by
  unfold resultOf at h
  split at h
  · exact ⟨_, ‹_›, Option.some.inj h⟩
  · cases h

/-- The offsets beside FRAME_B's payload, in the polled frame and in the stale one after a damaged answer. -/
theorem witness_RegisterWriteRefusesOffset :
    registerWrite Config.ex1 (.writeRegister 2 7) = some (2, 7) ∧
      registerWrite Config.ex1 (.writeRegister 31 7) = some (31, 7) ∧ (answering (frameOf payloadB ++ [])).busy = false ∧
      payloadB.length ≤ 255 ∧ payloadB.length + 4 ≤ Config.ex1.bufCap ∧
      Brings (answering (frameOf payloadB ++ [])) [⟨2, frameOf payloadB ++ []⟩] (frameOf payloadB ++ []) ∧
      2 < 3 ∧ payloadB.length + 2 < 31 ∧
      (∃ u, exec .poll (holdingAnswered [0xAA, 0x0A, 0, 0xF7]) = .next u ∧ u.result = .flag false) ∧
      (holdingAnswered [0xAA, 0x0A, 0, 0xF7]).cfg.wregOnPollFail = .proceed ∧
      SnapshotIs (holdingAnswered [0xAA, 0x0A, 0, 0xF7]) (frameOf payloadB) :=
  ⟨rfl, rfl, rfl, by decide, by decide, brings_answering _ (by decide +kernel), by decide, by decide,
    poll_failed (by decide +kernel), rfl, snapshotIs_holdingAnswered _⟩
/-- Failed polls by a timeout and by an invalid frame, damaged or overlong; the two ways to end early, and the stale
snapshot. -/
theorem witness_RegisterWriteAfterFailedPoll :
    registerWrite Config.ex1 (.volSub (.write 255)) = some (6, 255) ∧
      (∃ u, exec .poll State.reset = .next u ∧ u.result = .flag false) ∧ State.reset.snapValid = false ∧
      (∃ u, exec .poll (answering [0xAA, 0x0A, 0, 0xF7]) = .next u ∧ u.result = .flag false) ∧
      (answering [0xAA, 0x0A, 0, 0xF7]).snapValid = false ∧
      Config.wregOnPollFail { Config.ex1 with wregOnPollFail := .abort } = .abort ∧ payloadB.length ≤ 255 ∧
      (∀ bs ∈ [[], [0xAA, 0x0A, 0, 0xF7], [0xAA, 0x0A, 61, 0]],
        (∃ u, exec .poll (holdingAnswered bs) = .next u ∧ u.result = .flag false) ∧
        SnapshotIs (holdingAnswered bs) (frameOf payloadB)) ∧
      (holdingAnswered []).cfg.wregOnPollFail = .proceed ∧ 3 ≤ 6 ∧ 6 ≤ payloadB.length + 2 :=
  ⟨rfl, poll_failed (by decide +kernel), rfl, poll_failed (by decide +kernel), rfl, rfl, by decide,
    fun bs h => ⟨poll_failed (by revert bs; decide +kernel), snapshotIs_holdingAnswered bs⟩, rfl, by decide, by decide⟩
theorem witness_RegisterWriteCompletes : registerWrite State.reset.cfg (.volMain (.write 1)) = some (3, 1) ∧
    State.reset.busy = false := by decide
/-- A volume field and the raw checksum byte. -/
theorem witness_FieldReadGivesNumber :
    fieldRead (.volMain .read) = some (.vol .main) ∧ fieldRead (.readField (.raw 31)) = some (.raw 31) ∧
      (answering (frameOf payloadB ++ [])).busy = false ∧ payloadB.length ≤ 255 ∧
      payloadB.length + 4 ≤ Config.ex1.bufCap ∧
      Brings (answering (frameOf payloadB ++ [])) [⟨2, frameOf payloadB ++ []⟩] (frameOf payloadB ++ []) ∧
      fieldNumber Config.ex1 (.vol .main) (frameOf payloadB) = some 118 ∧
      fieldNumber Config.ex1 (.raw 31) (frameOf payloadB) = some 114 :=
  ⟨rfl, rfl, rfl, by decide, by decide, brings_answering _ (by decide +kernel), by decide +kernel, by decide +kernel⟩
theorem witness_FieldReadCompletes : fieldRead (.readField .version) = some .version ∧ State.reset.busy = false := by decide
theorem witness_SelectInputSendsFourBytes : inputSelection (.selectInput .dstereo) = some (.dstereo, .e3d) ∧
    inputSelection (.selectInput .inF) = some (.inF, .noEffect) ∧
    inputSelection (.inputSelectSequence .aux (.further 0)) = some (.aux, .further 0) ∧
    effectOpcode State.reset.cfg .e3d = some 0xEA ∧ effectOpcode State.reset.cfg (.further 0) = some 0xF8 ∧
    State.reset.busy = false := by decide
theorem witness_GettersReportCache : State.reset.busy = false := by decide
theorem witness_CurrentEffectRefused : State.reset.busy = false := by decide
theorem witness_BusyBlockRefuses :
    let s : State := { State.reset with busy := true }
    Instr.wf s.cfg .poll = true ∧ isLineEvent .poll = false ∧ s.busy = true := by decide
theorem witness_InboundMessageArrives : inboundBytes (.statusFrame []) = some frame0 ∧
    inboundBytes (.temperatureFrame ⟨1, 2, 3, 4, 5, 6, 7, 8, 9⟩) = some [1, 2, 0x0C, 3, 4, 5, 6, 7, 8, 9] ∧
    inboundBytes (.responseByte 7) = some [7] := by decide
theorem witness_CharacterCrosses :
    ((dataBitsOf 0x34).count true + false.toNat) % 2 = 1 ∧ ¬((dataBitsOf 0x34).count true + true.toNat) % 2 = 1 ∧
      State.reset.cfg.rxErrPolicy = .drop ∧
      Config.rxErrPolicy { Config.ex1 with rxErrPolicy := .deliver } = .deliver := by decide
theorem witness_IllFormedOperandsRefused : effectOpcode State.reset.cfg (.further 1) = none ∧ State.reset.busy = false ∧
    255 < (List.replicate 256 (0 : Byte)).length ∧
    ¬(((dataBitsOf 0x34).count true + true.toNat) % 2 = 1 ∧ true = true) := by
  refine ⟨by decide, by decide, ?_, by decide⟩
  rw [List.length_replicate]
  decide
/-- A frame with its last payload byte replaced, one of another length, and a machine with no frame held. -/
theorem witness_RegisterWriteFrameSends :
    (answering (frameOf payloadB ++ [])).busy = false ∧ payloadB.length ≤ 255 ∧ payloadB.length + 4 ≤ Config.ex1.bufCap ∧
      Brings (answering (frameOf payloadB ++ [])) [⟨2, frameOf payloadB ++ []⟩] (frameOf payloadB ++ []) ∧ 3 ≤ 30 ∧
      30 ≤ payloadB.length + 2 ∧
      patchedPayload payloadB 30 (writtenByte Config.ex1 30 7) = payloadB.set 27 7 ∧ ([] : List Byte).length ≤ 255 ∧
      (∀ off val, 3 ≤ off → off ≤ payloadB.length + 2 →
        [] ≠ patchedPayload payloadB off (writtenByte Config.ex1 off val)) ∧
      State.reset.busy = false ∧ SnapshotFrameValid State.reset :=
  ⟨rfl, by decide, by decide, brings_answering _ (by decide +kernel), by decide, by decide, by decide, by decide,
    fun off val _ _ h => absurd (congrArg List.length h) (by rw [patchedPayload, List.length_set]; decide), rfl,
    fun h => absurd h (by decide)⟩
/-- A port with an operation, with no instruction, and with nothing. -/
theorem witness_StepRunsDecoded :
    (State.reset.withFetchWord 8 0x10).port = [⟨.host, [0x10], []⟩] ∧ decode Config.ex1 ⟨.host, [0x10], []⟩ = .ok .poll ∧
      decode Config.ex1 ⟨.host, [0x29], []⟩ = .error (.unknownHop 0x29) ∧ State.reset.port = [] := by decide

/-- A machine that holds FRAME_B has the invariant. -/
theorem inv_holding : Inv { holding frameB with port := [⟨.host, [0x27], []⟩] } := by
  have hr : ∀ a, 32 ≤ a → memRead (holding frameB).snap a = none := by
    intro a ha
    rw [holding_read, List.getElem?_eq_none (show frameB.length ≤ a from ha)]
  refine ⟨by decide, memStore_wf rfl _ _, rfl, rfl, ?_, fun _ _ => rfl, fun _ _ => rfl, by decide, hr, ?_, by decide, rfl, rfl⟩
  · intro a ha
    exact hr a (Nat.le_trans (by decide) ha)
  · intro _
    refine ⟨by decide, by decide, ?_⟩
    intro a ha
    show (memRead (holding frameB).snap a).isSome = true
    rw [holding_read, List.getElem?_eq_getElem ha]
    rfl

theorem witness_InvKept :
    Inv { holding frameB with port := [⟨.host, [0x27], []⟩] } ∧
      ∃ t, step { holding frameB with port := [⟨.host, [0x27], []⟩] } = .next t := ⟨inv_holding, _, rfl⟩
theorem witness_InvAtReset : Config.ex1.wf = true := by decide
/-- A poll, and LRC_STORE at the length of the frame held. -/
theorem witness_SnapshotStaysValidFrame :
    (∀ n, Instr.poll = .lrcStore .snap n → (holding frameB).snapLen ≤ n) ∧
      (∀ n, Instr.lrcStore .snap 32 = .lrcStore .snap n → (holding frameB).snapLen ≤ n) ∧
      SnapshotFrameValid (holding frameB) ∧ (∃ t, exec .poll (holding frameB) = .next t) ∧
      ∃ t, exec (.lrcStore .snap 32) (holding frameB) = .next t :=
  ⟨fun _ h => (by cases h), fun _ h => (by cases h; decide),
    fun _ => ⟨frameB, ⟨payloadB, by decide, frameOf_payloadB.symm⟩, rfl, fun a _ => holding_read frameB a⟩, ⟨_, rfl⟩, _, rfl⟩
theorem witness_SnapshotWriters : (∃ t, exec .temp (holding frame0) = .next t) ∧ polls .temp = false ∧
    storesIntoSnapshot .temp = false ∧ (holding frame0).snapValid = true := ⟨⟨_, rfl⟩, rfl, rfl, rfl⟩
theorem witness_ParametersFixed : ∃ t, step (State.reset.withFetchWord 8 0x10) = .next t := ⟨_, rfl⟩
theorem witness_OutputAndClockOnlyGrow : ∃ t, step (State.reset.withFetchWord 8 0xE2) = .next t := ⟨_, rfl⟩
theorem witness_OperationEndsReady : isLineEvent .poll = false ∧ (∃ t, exec .poll State.reset = .next t) ∧
    State.reset.seq = .idle := ⟨rfl, ⟨_, rfl⟩, rfl⟩
theorem witness_DeviceUnreachableNeverRaised :
    ∃ t, exec .flush { State.reset with cause := some .deviceUnreachable } = .next t ∧ t.cause = some .deviceUnreachable :=
  ⟨_, rfl, rfl⟩

end Sys2Proof.Tests
end

/-! PROOFS. O53: the ghosts of 10_state.md R44 influence no rule. Two states are alike when they differ in their ghosts
alone; every operation keeps alike states alike and answers them the same, from the single
updates up to the dispatch. -/

namespace Sys2Proof.Ghosts

open Sys2Proof.Machine Sys2Proof.Safety

/-! ## Alike states, results and outcomes -/

/-- Two states that differ at most in the ghosts. -/
def Alike (s t : State) : Prop := eraseGhost s = eraseGhost t

/-- The same value delivered, and states that differ at most in the ghosts. -/
def AlikeResult {α : Type} (p q : α × State) : Prop := p.1 = q.1 ∧ Alike p.2 q.2

/-- The same kind of outcome for the same reason, and next states that differ at most in the ghosts. -/
def AlikeOutcome (o q : Result) : Prop := eraseOutcome o = eraseOutcome q

section

variable {s t : State}

theorem alike_eraseGhost (s : State) : Alike (eraseGhost s) s := rfl

/-- What does not look at the ghosts is the same of alike states. -/
theorem Alike.view (h : Alike s t) {α : Type} (f : State → α) (hf : ∀ u, f (eraseGhost u) = f u) : f s = f t :=
  calc
    f s = f (eraseGhost s) := (hf s).symm
    _ = f (eraseGhost t) := congrArg f h
    _ = f t := hf t

/-- An update whose other fields do not look at the ghosts keeps states alike. -/
theorem Alike.update (h : Alike s t) (f : State → State)
    (hf : ∀ u, eraseGhost (f (eraseGhost u)) = eraseGhost (f u)) : Alike (f s) (f t) :=
  h.view (fun u => eraseGhost (f u)) hf

theorem Alike.cfg (h : Alike s t) : s.cfg = t.cfg := h.view State.cfg fun _ => rfl
theorem Alike.env (h : Alike s t) : s.env = t.env := h.view State.env fun _ => rfl
theorem Alike.rxq (h : Alike s t) : s.rxq = t.rxq := h.view State.rxq fun _ => rfl
theorem Alike.now (h : Alike s t) : s.now = t.now := h.view State.now fun _ => rfl
theorem Alike.t0 (h : Alike s t) : s.t0 = t.t0 := h.view State.t0 fun _ => rfl
theorem Alike.busy (h : Alike s t) : s.busy = t.busy := h.view State.busy fun _ => rfl
theorem Alike.snapLen (h : Alike s t) : s.snapLen = t.snapLen := h.view State.snapLen fun _ => rfl
theorem Alike.snapValid (h : Alike s t) : s.snapValid = t.snapValid := h.view State.snapValid fun _ => rfl
theorem Alike.stageLen (h : Alike s t) : s.stageLen = t.stageLen := h.view State.stageLen fun _ => rfl
theorem Alike.draws (h : Alike s t) : s.draws = t.draws := h.view State.draws fun _ => rfl

theorem Alike.bufView (h : Alike s t) (b : BufRef) (n : Nat) : bufView s b n = bufView t b n :=
  h.view (Machine.bufView · b n) fun _ => rfl

theorem AlikeOutcome.next (h : Alike s t) : AlikeOutcome (.next s) (.next t) := congrArg Host.Outcome.next h

/-- An operation that ends by delivering the same result from alike states answers the same. -/
theorem Alike.delivers (h : Alike s t) {r r' : OpResult} (hr : r = r') :
    AlikeOutcome (.next (deliver r s)) (.next (deliver r' t)) :=
  hr ▸ .next (h.update (deliver r) fun _ => rfl)

theorem AlikeResult.delivers {α : Type} {p q : α × State} (h : AlikeResult p q) (mk : α → OpResult) :
    AlikeOutcome (.next (deliver (mk p.1) p.2)) (.next (deliver (mk q.1) q.2)) :=
  h.2.delivers (congrArg mk h.1)

/-- Two ways on from a wait or a poll, taken by its answer, keep results alike when each way does. -/
theorem AlikeResult.branch {α : Type} {p q : Bool × State} (h : AlikeResult p q) {f g : State → α × State}
    (hf : ∀ {u v : State}, Alike u v → AlikeResult (f u) (f v))
    (hg : ∀ {u v : State}, Alike u v → AlikeResult (g u) (g v)) :
    AlikeResult (if p.1 then f p.2 else g p.2) (if q.1 then f q.2 else g q.2) := by
  obtain ⟨hanswer, hstate⟩ := h
  rw [hanswer]
  split
  · exact hf hstate
  · exact hg hstate

/-! ## Updates of the state -/

theorem Alike.setSeq (h : Alike s t) (q : Seq) : Alike (setSeq q s) (setSeq q t) := h.update _ fun _ => rfl
theorem Alike.noteFailure (h : Alike s t) (c : Cause) : Alike (noteFailure c s) (noteFailure c t) :=
  h.update _ fun _ => rfl
theorem Alike.tx (h : Alike s t) (bs : List Byte) : Alike (tx bs s) (tx bs t) := h.update _ fun _ => rfl
theorem Alike.pop (h : Alike s t) (n : Nat) : Alike (pop n s) (pop n t) := h.update _ fun _ => rfl
theorem Alike.lrcRun (h : Alike s t) (b : BufRef) (n : Nat) : Alike (lrcRun b n s) (lrcRun b n t) :=
  h.update _ fun _ => rfl
theorem Alike.afterView (h : Alike s t) (b : BufRef) (n : Nat) : Alike (afterView b n s) (afterView b n t) :=
  h.update _ fun _ => rfl

theorem Alike.bufWrite (h : Alike s t) (b : BufRef) (i : Nat) (v : Byte) :
    Alike (bufWrite b i v s) (bufWrite b i v t) := by
  cases b with
  | snap => exact h.update (Machine.bufWrite .snap i v) fun _ => rfl
  | stage => exact h.update (Machine.bufWrite .stage i v) fun _ => rfl
  | given bs => exact h

theorem Alike.lrcStoreRun (h : Alike s t) (b : BufRef) (n : Nat) : Alike (lrcStoreRun b n s) (lrcStoreRun b n t) := by
  rw [Machine.lrcStoreRun, Machine.lrcStoreRun, h.bufView]
  exact (h.lrcRun b n).bufWrite _ _ _

theorem Alike.updateCache (h : Alike s t) (op : Byte) : Alike (updateCache op s) (updateCache op t) := by
  unfold Machine.updateCache
  rw [congrArg Config.opMuteOn h.cfg, congrArg Config.opMuteOff h.cfg, congrArg Config.opDecodeOn h.cfg,
    congrArg Config.opDecodeOff h.cfg]
  split
  · exact h.update (fun u => { u with muted := true }) fun _ => rfl
  split
  · exact h.update (fun u => { u with muted := false }) fun _ => rfl
  split
  · exact h.update (fun u => { u with decode := true }) fun _ => rfl
  split
  · exact h.update (fun u => { u with decode := false }) fun _ => rfl
  · exact h

/-! ## The link -/

theorem Alike.arrive (h : Alike s t) (b : Byte) : Alike (arrive b s) (arrive b t) := by
  unfold Machine.arrive
  rw [congrArg List.length h.rxq, congrArg Config.rxDepth h.cfg]
  split
  · exact h.update (fun u => { u with rxq := u.rxq ++ [b], hist := u.hist ++ [.arrived b] }) fun _ => rfl
  · exact h.update (fun u => { u with hist := u.hist ++ [.lost b] }) fun _ => rfl

theorem Alike.arriveAll (h : Alike s t) (bs : List Byte) : Alike (arriveAll bs s) (arriveAll bs t) := by
  induction bs generalizing s t with
  | nil => exact h
  | cons b bs ih => exact ih (h.arrive b)

theorem Alike.wait (h : Alike s t) (d : Nat) : Alike (wait d s) (wait d t) := by
  cases he : t.env with
  | nil =>
    rw [wait_nil he, wait_nil (h.env.trans he)]
    exact h.update (fun u => { u with now := u.now + d }) fun _ => rfl
  | cons m ms =>
    rw [wait_cons he, wait_cons (h.env.trans he)]
    exact (h.update (fun u => { u with now := u.now + d + m.ticks, env := ms }) fun _ => rfl).arriveAll m.bytes

theorem Alike.flushRx (h : Alike s t) : Alike (flushRx s) (flushRx t) := by
  unfold Machine.flushRx
  rw [h.cfg]
  exact (h.wait t.cfg.deadtime).update (fun w => { w with rxq := [], hist := w.hist ++ [.flushed w.rxq] }) fun _ => rfl

theorem Alike.transmit (h : Alike s t) (bs : List Byte) : Alike (transmit bs s) (transmit bs t) := h.flushRx.tx bs

theorem Alike.request (h : Alike s t) (bs : List Byte) : Alike (request bs s) (request bs t) :=
  ((h.transmit bs).update latchRequest fun _ => rfl).setSeq .awaitHeader

theorem Alike.awaitLoop (h : Alike s t) (n : Nat) (ms : List EnvMove) :
    AlikeResult (awaitLoop n ms s) (awaitLoop n ms t) := by
  have hwaited {u v : State} (h : Alike u v) : u.now - u.t0 = v.now - v.t0 :=
    h.view (fun u => u.now - u.t0) fun _ => rfl
  induction ms generalizing s t with
  | nil =>
    unfold Machine.awaitLoop
    rw [congrArg List.length h.rxq, congrArg Config.timeout h.cfg, hwaited h]
    split
    · exact ⟨rfl, h⟩
    split
    · exact ⟨rfl, h⟩
    · exact ⟨rfl, h.update (fun u => { u with now := u.t0 + t.cfg.timeout }) fun _ => rfl⟩
  | cons m ms ih =>
    unfold Machine.awaitLoop
    rw [congrArg List.length h.rxq, congrArg Config.timeout h.cfg, hwaited h]
    split
    · exact ⟨rfl, h⟩
    split
    · exact ⟨rfl, h⟩
    · exact ih (h.wait 0)

theorem Alike.awaitBytes (h : Alike s t) (n : Nat) : AlikeResult (awaitBytes n s) (awaitBytes n t) := by
  rw [Machine.awaitBytes, Machine.awaitBytes, h.env]
  exact h.awaitLoop n t.env

/-! ## The sequencer -/

theorem Alike.pollFail (h : Alike s t) (c : Cause) : AlikeResult (pollFail c s) (pollFail c t) :=
  ⟨rfl, ((h.noteFailure c).setSeq .failed).setSeq .idle⟩

theorem Alike.pollCommit (h : Alike s t) : AlikeResult (pollCommit s) (pollCommit t) :=
  ⟨rfl, h.update (fun u => (Machine.pollCommit u).2) fun _ => rfl⟩

theorem Alike.pollValidate (h : Alike s t) : AlikeResult (pollValidate s) (pollValidate t) := by
  unfold Machine.pollValidate
  rw [h.stageLen, h.bufView]
  split
  · exact (h.lrcRun .stage t.stageLen).pollCommit
  · exact (h.lrcRun .stage t.stageLen).pollFail .frameInvalid

theorem Alike.pollPayload (h : Alike s t) (l : Byte) : AlikeResult (pollPayload l s) (pollPayload l t) :=
  (h.awaitBytes (l.toNat + 1)).branch (fun h => (h.update (takePayload l) fun _ => rfl).pollValidate)
    (fun h => h.pollFail .timeout)

theorem Alike.pollHeader (h : Alike s t) : AlikeResult (pollHeader s) (pollHeader t) := by
  have hlen : headerLen s = headerLen t := h.view headerLen fun _ => rfl
  have htake : Alike (takeHeader s) (takeHeader t) := h.update takeHeader fun _ => rfl
  unfold Machine.pollHeader
  rw [hlen, h.cfg]
  split
  · exact htake.pollFail .frameInvalid
  · exact (htake.setSeq .awaitPayload).pollPayload (headerLen t)

theorem Alike.pollBody (h : Alike s t) : AlikeResult (pollBody s) (pollBody t) := by
  unfold Machine.pollBody
  rw [h.cfg]
  exact ((h.request [t.cfg.opGetStatus]).awaitBytes (headerSize + 1)).branch Alike.pollHeader
    (fun h => h.pollFail .timeout)

theorem Alike.tempValidate (h : Alike s t) : AlikeResult (tempValidate s) (tempValidate t) := by
  have htake : Alike (takeTemp s) (takeTemp t) := h.update takeTemp fun _ => rfl
  unfold Machine.tempValidate
  rw [h.rxq]
  split
  · exact ⟨rfl, htake.setSeq .idle⟩
  · exact ⟨rfl, (htake.setSeq .idle).noteFailure .frameInvalid⟩

/-- How a probe and a command end when nothing answers: 0 is delivered (43_sequencer.md R190, 44_driver_ops.md R200). -/
theorem Alike.unanswered (h : Alike s t) :
    AlikeResult ((0 : Byte), Machine.setSeq .idle (Machine.noteFailure .timeout s))
      ((0 : Byte), Machine.setSeq .idle (Machine.noteFailure .timeout t)) :=
  ⟨rfl, (h.noteFailure .timeout).setSeq .idle⟩

theorem Alike.tempBody (h : Alike s t) : AlikeResult (tempBody s) (tempBody t) := by
  unfold Machine.tempBody
  rw [h.cfg]
  exact ((h.request [t.cfg.opGetTemp]).awaitBytes tempLen).branch Alike.tempValidate Alike.unanswered

/-! ## The driver layer -/

theorem Alike.takeResponse (h : Alike s t) : AlikeResult (takeResponse s) (takeResponse t) :=
  ⟨h.view (byteAt ·.rxq 0) fun _ => rfl, (h.pop 1).setSeq .idle⟩

theorem Alike.sendBody (h : Alike s t) (op : Byte) : AlikeResult (sendBody op s) (sendBody op t) :=
  (((h.request [op]).updateCache op).awaitBytes 1).branch Alike.takeResponse Alike.unanswered

theorem Alike.patchSnapshot (h : Alike s t) (off : Nat) (val : Byte) :
    Alike (patchSnapshot off val s) (patchSnapshot off val t) := h.update _ fun _ => rfl

theorem Alike.sendSnapshot (h : Alike s t) : Alike (sendSnapshot s) (sendSnapshot t) := by
  unfold Machine.sendSnapshot
  rw [h.snapLen, h.bufView]
  exact ((h.afterView .snap t.snapLen).transmit _).flushRx

theorem Alike.writeAfterPoll (h : Alike s t) (off : Nat) (val : Byte) (ok : Bool) :
    Alike (writeAfterPoll off val ok s) (writeAfterPoll off val ok t) := by
  have hearly : writeEndsEarly ok s = writeEndsEarly ok t := h.view (writeEndsEarly ok) fun _ => rfl
  have hout : outsidePayload off s = outsidePayload off t := h.view (outsidePayload off) fun _ => rfl
  unfold Machine.writeAfterPoll
  rw [hearly, hout]
  split
  · exact h
  split
  · exact h
  · exact (h.patchSnapshot off val).sendSnapshot

theorem Alike.writeBody (h : Alike s t) (off : Nat) (val : Byte) :
    Alike (writeBody off val s) (writeBody off val t) := by
  obtain ⟨hok, hst⟩ := h.pollBody
  rw [Machine.writeBody, Machine.writeBody, hok]
  exact hst.writeAfterPoll off val _

theorem Alike.writeFrameBody (h : Alike s t) (p : List Byte) : Alike (writeFrameBody p s) (writeFrameBody p t) := by
  obtain ⟨hok, hst⟩ := h.pollBody
  have hargs := hst.view (frameArguments p) fun _ => rfl
  unfold Machine.writeFrameBody
  rw [hargs, hok]
  split
  · exact hst.writeAfterPoll _ _ _
  · exact hst

theorem Alike.fieldBytes (h : Alike s t) (f : Field) (offs : List Nat) : fieldBytes f s offs = fieldBytes f t offs := by
  induction offs with
  | nil => rfl
  | cons off rest ih =>
    have hholds : fieldHolds f s off = fieldHolds f t off := h.view (fieldHolds f · off) fun _ => rfl
    have hread : memRead s.snap off = memRead t.snap off := h.view (memRead ·.snap off) fun _ => rfl
    rw [Machine.fieldBytes, Machine.fieldBytes, hholds, hread, ih]

theorem Alike.readAfterPoll (h : Alike s t) (f : Field) : AlikeResult (readAfterPoll f s) (readAfterPoll f t) := by
  unfold Machine.readAfterPoll
  rw [congrArg (fieldOffsets · f) h.cfg, h.fieldBytes]
  split
  · exact ⟨rfl, h⟩
  · exact ⟨congrArg Config.freeNumber h.draws, h.update (fun u => { u with draws := u.draws + 1 }) fun _ => rfl⟩

theorem Alike.readBody (h : Alike s t) (f : Field) : AlikeResult (readBody f s) (readBody f t) :=
  h.pollBody.branch (fun h => h.readAfterPoll f) (fun h => ⟨rfl, h⟩)

/-! ## Operations -/

/-- An operation answers alike states the same when its body does. -/
theorem Alike.hostOp (h : Alike s t) {body : State → Result}
    (hbody : ∀ {u v : State}, Alike u v → AlikeOutcome (body u) (body v)) :
    AlikeOutcome (hostOp s body) (hostOp t body) := by
  unfold Machine.hostOp
  rw [h.busy]
  split
  · rfl
  · exact hbody (h.update beginOp fun _ => rfl)

theorem Alike.pollRun (h : Alike s t) : AlikeOutcome (pollRun s) (pollRun t) :=
  h.hostOp fun h => h.pollBody.delivers .flag

theorem Alike.tempRun (h : Alike s t) : AlikeOutcome (tempRun s) (tempRun t) :=
  h.hostOp fun h => h.tempBody.delivers .byte

theorem Alike.sendRun (h : Alike s t) (op : Byte) : AlikeOutcome (sendRun op s) (sendRun op t) :=
  h.hostOp fun h => (h.sendBody op).delivers .byte

theorem Alike.writeRun (h : Alike s t) (off : Nat) (val : Byte) :
    AlikeOutcome (writeRun off val s) (writeRun off val t) :=
  h.hostOp fun h => (h.writeBody off val).delivers rfl

theorem Alike.readRun (h : Alike s t) (f : Field) : AlikeOutcome (readRun f s) (readRun f t) :=
  h.hostOp fun h => (h.readBody f).delivers .number

theorem Alike.volumeRun (h : Alike s t) (ch : VolChannel) (use : VolUse) :
    AlikeOutcome (volumeRun ch use s) (volumeRun ch use t) := by
  cases use with
  | read => exact h.readRun (.vol ch)
  | write val =>
    simp only [Machine.volumeRun, h.cfg]
    exact h.writeRun (volOffset t.cfg ch) val

theorem Alike.selectRun (h : Alike s t) (inp : Input) (e : Effect) :
    AlikeOutcome (selectRun inp e s) (selectRun inp e t) :=
  h.hostOp fun h => by
    simp only [h.cfg]
    split
    · exact ((h.transmit _).flushRx).delivers rfl
    · rfl

theorem Alike.execLrc (h : Alike s t) (b : BufRef) (n : Nat) : AlikeOutcome (execLrc b n s) (execLrc b n t) :=
  h.hostOp fun h => by
    simp only [h.cfg, h.bufView]
    split
    · rfl
    · exact (h.lrcRun b n).delivers rfl

/-- The guards of the operations that need a checksum slot (40_lrc.md R120, R124) judge alike states the same. -/
theorem Alike.slotGuarded (h : Alike s t) (b : BufRef) (n : Nat) {o q : Result} (hoq : AlikeOutcome o q) :
    AlikeOutcome
      (if n = 0 then .refused .noChecksumSlot else if bufSize s.cfg b < n then .fault .outOfBuffer else o)
      (if n = 0 then .refused .noChecksumSlot else if bufSize t.cfg b < n then .fault .outOfBuffer else q) := by
  rw [h.cfg]
  split
  · rfl
  split
  · rfl
  · exact hoq

theorem Alike.execLrcStore (h : Alike s t) (b : BufRef) (n : Nat) :
    AlikeOutcome (execLrcStore b n s) (execLrcStore b n t) :=
  h.hostOp fun h => h.slotGuarded b n <|
    (h.lrcStoreRun b n).delivers (congrArg (fun bs => storeResult b n (lrcSum bs n)) (h.bufView b n))

theorem Alike.execLrcCheck (h : Alike s t) (b : BufRef) (n : Nat) :
    AlikeOutcome (execLrcCheck b n s) (execLrcCheck b n t) :=
  h.hostOp fun h => h.slotGuarded b n <|
    (h.lrcRun b n).delivers (congrArg (OpResult.flag <| lrcHolds · n) (h.bufView b n))

theorem Alike.execValidateStatus (h : Alike s t) (b : BufRef) (n : Nat) :
    AlikeOutcome (execValidateStatus b n s) (execValidateStatus b n t) :=
  h.hostOp fun h => h.slotGuarded b n <|
    (h.lrcRun b n).delivers (congrArg (OpResult.flag <| statusValid · n) (h.bufView b n))

theorem Alike.execValidateTemp (h : Alike s t) (b : TempRef) :
    AlikeOutcome (execValidateTemp b s) (execValidateTemp b t) :=
  h.hostOp fun h => by
    have hview := h.view (tempView · b (tempModelOff + 1)) fun _ => rfl
    split
    · rfl
    · exact (h.update (afterTempView b _) fun _ => rfl).delivers (congrArg (OpResult.flag <| tempValid ·) hview)

theorem Alike.execRead (h : Alike s t) (n : Nat) : AlikeOutcome (execRead n s) (execRead n t) :=
  h.hostOp fun h => by
    simp only [h.rxq]
    split
    · rfl
    · exact (h.pop n).delivers rfl

theorem Alike.execDemux (h : Alike s t) : AlikeOutcome (execDemux s) (execDemux t) :=
  h.hostOp fun h => by
    simp only [h.snapValid]
    split
    · exact h.delivers (congrArg OpResult.fields (h.view demuxOut fun _ => rfl))
    · rfl

theorem Alike.execSnapshot (h : Alike s t) : AlikeOutcome (execSnapshot s) (execSnapshot t) :=
  h.hostOp fun h => by
    simp only [h.snapValid, h.snapLen, h.bufView]
    split
    · exact (h.afterView .snap _).delivers rfl
    · rfl

theorem Alike.execRegisterWriteFrame (h : Alike s t) (p : List Byte) :
    AlikeOutcome (execRegisterWriteFrame p s) (execRegisterWriteFrame p t) :=
  h.hostOp fun h => by
    split
    · exact (h.writeFrameBody p).delivers rfl
    · rfl

/-! ## The line -/

theorem Alike.execStatusFrame (h : Alike s t) (p : List Byte) :
    AlikeOutcome (execStatusFrame p s) (execStatusFrame p t) := by
  unfold Machine.execStatusFrame
  split
  · exact .next (h.arriveAll _)
  · rfl

theorem Alike.execUartCharacter (h : Alike s t) (dir : LineDir) (d : Byte) (parity stop : Bool) :
    AlikeOutcome (execUartCharacter dir d parity stop s) (execUartCharacter dir d parity stop t) := by
  cases dir with
  | inbound =>
    simp only [Machine.execUartCharacter, h.cfg]
    split
    · exact .next (h.arrive d)
    · exact .next h
  | outbound =>
    simp only [Machine.execUartCharacter]
    split
    · exact .next (h.tx [d])
    · rfl

/-! ## The dispatch -/

/-- Every instruction answers alike states the same. -/
theorem exec_alike (i : Instr) (h : Alike s t) : AlikeOutcome (exec i s) (exec i t) := by
  have hcmd : commandOpcode s.cfg i = commandOpcode t.cfg i := by rw [h.cfg]
  cases hc : commandOpcode t.cfg i with
  | some op =>
    rw [exec_of_commandOpcode hc, exec_of_commandOpcode (hcmd.trans hc)]
    exact h.sendRun op
  | none =>
    cases i <;> simp only [commandOpcode, reduceCtorEq] at hc
    case getStatus => exact h.pollRun
    case getTemp => exact h.tempRun
    case selEffectE k =>
      show AlikeOutcome (execSelEffectE k s) (execSelEffectE k t)
      rw [execSelEffectE, execSelEffectE, h.cfg, effectOpcode, hc]
      rfl
    case inputSelectSequence inp e => exact h.selectRun inp e
    case volMain use => exact h.volumeRun .main use
    case volRear use => exact h.volumeRun .rear use
    case volCenter use => exact h.volumeRun .center use
    case volSub use => exact h.volumeRun .sub use
    case statusFrame p => exact h.execStatusFrame p
    case registerWriteFrame p => exact h.execRegisterWriteFrame p
    case temperatureFrame f => exact .next (h.arriveAll _)
    case responseByte v => exact .next (h.arriveAll _)
    case uartCharacter dir d parity stop => exact h.execUartCharacter dir d parity stop
    case lrc b n => exact h.execLrc b n
    case lrcStore b n => exact h.execLrcStore b n
    case lrcCheck b n => exact h.execLrcCheck b n
    case flush => exact h.hostOp fun h => h.flushRx.delivers rfl
    case txWrite bs => exact h.hostOp fun h => (h.transmit bs).delivers rfl
    case await n => exact h.hostOp fun h => (h.awaitBytes n).delivers .awaited
    case read n => exact h.execRead n
    case validateStatus b n => exact h.execValidateStatus b n
    case validateTemp b => exact h.execValidateTemp b
    case demux => exact h.execDemux
    case poll => exact h.pollRun
    case temp => exact h.tempRun
    case writeRegister off val => exact h.writeRun off val
    case readField f => exact h.readRun f
    case selectInput inp => exact h.selectRun inp (defaultEffect inp)
    case selectInputEffect inp e => exact h.selectRun inp e
    case muted => exact h.hostOp fun h => h.delivers (h.view (OpResult.flag ·.muted) fun _ => rfl)
    case decodeMode => exact h.hostOp fun h => h.delivers (h.view (OpResult.flag ·.decode) fun _ => rfl)
    case snapshot => exact h.execSnapshot
    case currentEffect => exact h.hostOp (body := fun _ => .refused .currentEffectUndefined) fun _ => rfl

end

/-- Settles O53: a state and its wiped copy are alike, so every instruction answers them the same. -/
theorem ghostsDoNotInfluence : Obligations.GhostsDoNotInfluence :=
  fun i s => exec_alike i (alike_eraseGhost s)

end Sys2Proof.Ghosts

namespace Sys2Proof.Machine

/-- Each bit folded in flips the parity of the count and the accumulator together, so their sum keeps its parity. -/
theorem count_true_add_foldl_xor (bs : List Bool) (p : Bool) :
    (bs.count true + (bs.foldl (fun p b => p ^^ b) p).toNat) % 2 = p.toNat % 2 := by
  induction bs generalizing p with
  | nil => simp
  | cons b bs ih =>
    rw [List.foldl_cons]
    have hrest := ih (p ^^ b)
    cases b with
    | false => simpa using hrest
    | true =>
      rw [List.count_cons_self]
      have hflip : (p ^^ true).toNat = 1 - p.toNat := by cases p <;> rfl
      have hbit : p.toNat ≤ 1 := Bool.toNat_le p
      omega

/-- 30_encoding.md R71: the fold starts at 1, which makes the whole count odd. -/
theorem count_dataBitsOf_add_oddParity (d : Byte) : ((dataBitsOf d).count true + (oddParity d).toNat) % 2 = 1 :=
  count_true_add_foldl_xor (dataBitsOf d) true

/-- 30_encoding.md R70: the data bits written out, the least significant first. -/
theorem dataBitsOf_eq (d : Byte) :
    dataBitsOf d =
      [d.getLsbD 0, d.getLsbD 1, d.getLsbD 2, d.getLsbD 3, d.getLsbD 4, d.getLsbD 5, d.getLsbD 6, d.getLsbD 7] := by
  simp [dataBitsOf, List.range_succ]

/-- 30_encoding.md R71: the fold written out over the eight data bits. -/
theorem oddParity_eq_xor (d : Byte) :
    oddParity d =
      (true ^^ d.getLsbD 0 ^^ d.getLsbD 1 ^^ d.getLsbD 2 ^^ d.getLsbD 3 ^^ d.getLsbD 4 ^^ d.getLsbD 5 ^^ d.getLsbD 6 ^^
        d.getLsbD 7) := by
  simp only [oddParity, dataBitsOf_eq, List.foldl_cons, List.foldl_nil]

/-- Settles O6: the count by induction over the folded bits, the xor form by the list of the data bits, the examples by
evaluation. -/
theorem parityIsOdd : Obligations.ParityIsOdd :=
  ⟨fun d => ⟨count_dataBitsOf_add_oddParity d, oddParity_eq_xor d⟩, by decide⟩

end Sys2Proof.Machine

namespace Sys2Proof.Machine

open Sys2Proof.Safety

/-- 40_lrc.md R120, "Writes: `acc` only": beside the result delivered, running the LRC moves the accumulator and the
count of free values, and `busy` is 0 again at the end. -/
theorem onlyChanges_deliver_lrcRun {s : State} (r : OpResult) (b : BufRef) (n : Nat) (h : s.busy = false) :
    OnlyChanges [.acc, .result, .draws] s (deliver r (lrcRun b n (beginOp s))) := by
  intro p hp
  cases p with
  | acc | result | draws => simp at hp
  | busy => exact h.symm
  | snap | stage | tmp => exact sameBytes_refl _
  | _ => rfl

/-- What a buffer holds on a range it still holds when an operation has begun. -/
theorem heldOn_beginOp {s : State} {b : BufRef} {lo hi : Nat} {f : Nat → Byte} (h : HeldOn s b lo hi f) :
    HeldOn (beginOp s) b lo hi f :=
  fun i hlo hhi => (heldByte_beginOp s b i).trans (h i hlo hhi)

/-- Settles O7: an idle block runs the LRC on every buffer long enough, the run changes nothing else, and the
accumulator then holds the closed form of the covered bytes. -/
theorem lrcComputes : Obligations.LrcComputes := by
  intro s b n hidle hn
  refine ⟨_, execLrc_idle hn hidle, onlyChanges_deliver_lrcRun _ b n hidle, rfl, ?_⟩
  intro f hf
  rw [deliver_acc, lrcRun_acc]
  exact lrcSum_held (heldOn_beginOp hf)

end Sys2Proof.Machine

namespace Sys2Proof.Machine

open Sys2Proof.Safety

/-! ## The transport's own operations (41_transport.md)

The frame of each body is said from the state in which the operation has begun; `onlyChanges_deliver` carries it over
the operation's beginning and end. -/

/-- Beginning an operation on an idle block and delivering its result adds the result to what the body changes, and
nothing else: `busy` is 0 again (70_reset_and_hazards.md R286). -/
theorem onlyChanges_deliver {ps : List Part} {s u : State} (r : OpResult) (hidle : s.busy = false)
    (hbody : OnlyChanges ps (beginOp s) u) : OnlyChanges (ps ++ [.result]) s (deliver r u) := by
  intro p hp
  obtain ⟨hps, hres⟩ : p ∉ ps ∧ p ∉ [Part.result] := by simpa only [List.mem_append, not_or] using hp
  cases p with
  | result => simp at hres
  | busy => exact hidle.symm
  | _ => exact hbody _ hps

/-- 41_transport.md R131, the frame of a write: the queue, the output, the clock, the schedule and the history. -/
theorem onlyChanges_transmit (bs : List Byte) (s : State) :
    OnlyChanges [.rxq, .txs, .now, .env, .hist] s (transmit bs s) := by
  intro p hp
  cases p with
  | rxq | txs | now | env | hist => simp at hp
  | _ => simp [samePart]

/-- 41_transport.md R141, the frame of a wait: the queue, the clock, the schedule and the history. -/
theorem onlyChanges_awaitBytes (n : Nat) (s : State) :
    OnlyChanges [.rxq, .now, .env, .hist] s (awaitBytes n s).2 := by
  intro p hp
  cases p with
  | rxq | now | env | hist => simp at hp
  | _ => simp [samePart]

/-- 41_transport.md R140, the frame of taking bytes from the queue: the queue and the history. -/
theorem onlyChanges_pop (n : Nat) (s : State) : OnlyChanges [.rxq, .hist] s (pop n s) := by
  intro p hp
  cases p with
  | rxq | hist => simp at hp
  | _ => simp [samePart]

/-- 41_transport.md R140: with fewer bytes queued READ has no meaning. -/
theorem execRead_tooShort {s : State} {n : Nat} (hn : s.rxq.length < n) (hidle : s.busy = false) :
    execRead n s = .refused .readTooShort := by
  rw [execRead, hostOp_idle hidle]
  exact if_pos hn

/-- Settles O17: the wait's specification by induction over the schedule (`awaitBytes_spec`), and its first look at the
queue, which with enough bytes there leaves the state as it is (`awaitBytes_available`). -/
theorem awaitDecides : Obligations.AwaitDecides := by
  intro s n hidle
  obtain ⟨hok, htimeout, hclock, happends, -⟩ := awaitBytes_spec n (beginOp s)
  refine ⟨_, _, execAwait_idle n hidle, onlyChanges_deliver _ hidle (onlyChanges_awaitBytes n _), rfl, happends, hclock,
    hok, htimeout, ?_⟩
  intro havailable
  have hstays : awaitBytes n (beginOp s) = (true, beginOp s) := awaitBytes_available havailable
  simp [hstays]

/-- Settles O15: the write is one flush and then the bytes, in the count of discard instants and in the history. -/
theorem writeFlushesOnceThenSends : Obligations.WriteFlushesOnceThenSends := by
  intro s bs hidle _
  exact ⟨_, execTxWrite_idle bs hidle, onlyChanges_deliver _ hidle (onlyChanges_transmit bs _), transmit_txs bs _, rfl,
    flushRx_now_le (beginOp s), rfl, transmit_flushCount bs _, transmit_hist bs _⟩

/-- Settles O16: the queue is the bytes taken followed by the bytes left; with too few queued the guard refuses. -/
theorem readPops : Obligations.ReadPops := by
  intro s n hidle
  constructor
  · intro henough
    exact ⟨_, execRead_idle henough hidle, onlyChanges_deliver _ hidle (onlyChanges_pop n _), s.rxq.take n,
      List.length_take_of_le henough, (List.take_append_drop n s.rxq).symm, rfl⟩
  · intro hshort
    exact execRead_tooShort hshort hidle

end Sys2Proof.Machine

namespace Sys2Proof.Machine

open Sys2Proof.Safety

/-! ## The driver layer's getters, rescalings and field reads (44_driver_ops.md) -/

/-- A state agrees with itself on every part. -/
theorem onlyChanges_refl (ps : List Part) (s : State) : OnlyChanges ps s s := by
  intro p _
  cases p with
  | snap | stage | tmp => exact sameBytes_refl _
  | _ => rfl

/-- A frame may name more parts than have changed. -/
theorem onlyChanges_mono {ps qs : List Part} {s t : State} (h : OnlyChanges ps s t) (hsub : ps ⊆ qs) :
    OnlyChanges qs s t :=
  fun p hp => h p fun hps => hp (hsub hps)

/-- 43_sequencer.md R180 to R187, the frame of a poll that took its frame: beside the parts listed nothing changes, the
cause of an earlier failure included. -/
theorem onlyChanges_pollBody_committed {s : State} (hok : (pollBody s).1 = true) :
    OnlyChanges [.acc, .snap, .snapLen, .snapValid, .stage, .stageLen, .rxq, .txs, .seq, .t0, .now, .hist, .env] s
      (pollBody s).2 := by
  intro p hp
  cases p with
  | acc | snap | snapLen | snapValid | stage | stageLen | rxq | txs | seq | t0 | now | hist | env => simp at hp
  | cause => exact ((pollBody_end s).committed hok).1
  | draws => exact (pollBody_end s).draws
  | _ => simp [samePart]

/-- 44_driver_ops.md R210: when the poll brings a frame that holds the field, a field read gives the field's number in
that frame and does nothing beside its poll. -/
theorem readBody_in_time {s : State} {ms : List EnvMove} {p extra : List Byte} {f : Sys2Proof.Field} {v : Nat}
    (hp : p.length ≤ 255) (hcap : p.length + 4 ≤ s.cfg.bufCap) (hbrings : Brings s ms (frameOf p ++ extra))
    (hv : fieldNumber s.cfg f (frameOf p) = some v) : readBody f s = (v, (pollBody s).2) := by
  obtain ⟨hok, hsnap, -⟩ := pollBody_ok hp hcap hbrings
  rw [readBody, if_pos hok]
  exact readAfterPoll_held hsnap (by rwa [pollBody_cfg])

/-- Settles O38: the poll takes the frame, the read of the frame taken is the field's number, and what changes is what
the poll changes. -/
theorem fieldReadGivesNumber : Obligations.FieldReadGivesNumber := by
  intro i s f ms p extra v hi hidle hp hcap hbrings hv
  obtain ⟨hok, hsnap, -⟩ := pollBody_ok (s := beginOp s) hp hcap hbrings
  have hread : readBody f (beginOp s) = (v, (pollBody (beginOp s)).2) := readBody_in_time hp hcap hbrings hv
  have hexec : exec i s = .next (deliver (.number v) (pollBody (beginOp s)).2) := by
    rw [exec_of_fieldRead hi, readRun_idle f hidle, hread]
  have hframe := onlyChanges_deliver (.number v) hidle (onlyChanges_pollBody_committed hok)
  exact ⟨_, hexec, onlyChanges_mono hframe (by decide), (pollBody_end (beginOp s)).stageFrame, rfl, hsnap, pollBody_txs (beginOp s)⟩

/-- 44_driver_ops.md R206: a byte is scaled to 43 at most. -/
theorem scaleDown_le {v : Nat} (hv : v < 256) : scaleDown v ≤ 43 := by
  simp only [scaleDown, volDevMax, volExtMax]
  omega

/-- 44_driver_ops.md R224: the truncations never round the round trip up. -/
theorem scaleUp_scaleDown_le (v : Nat) : scaleUp (scaleDown v) ≤ v := by
  simp only [scaleDown, scaleUp, volDevMax, volExtMax]
  omega

/-- 44_driver_ops.md R224: the two truncations together lose 6 at most. -/
theorem le_scaleUp_scaleDown_add (v : Nat) : v ≤ scaleUp (scaleDown v) + 6 := by
  simp only [scaleDown, scaleUp, volDevMax, volExtMax]
  omega

/-- 44_driver_ops.md R224: below 11 the loss stays under 6, so 11 is the first value that loses the whole of it. -/
theorem lt_scaleUp_scaleDown_add {v : Nat} (hv : v < 11) : v < scaleUp (scaleDown v) + 6 := by
  rcases Nat.lt_or_ge v 6 with hlow | hhigh
  · exact Nat.lt_add_left _ hlow
  · have hone : scaleDown v = 1 := by
      simp only [scaleDown, volDevMax, volExtMax]
      omega
    have hfive : scaleUp 1 = 5 := by decide
    rw [hone, hfive]
    omega

/-- Settles O37: the bounds by the arithmetic of the two truncated divisions, the listed values by evaluation. -/
theorem volumeScaling : Obligations.VolumeScaling := by
  refine ⟨fun v => ⟨scaleDown_le v.isLt, scaleUp_scaleDown_le v, le_scaleUp_scaleDown_add v⟩, ?_⟩
  have hsmall : ∀ v : Fin 11, v < scaleUp (scaleDown v) + 6 := fun v => lt_scaleUp_scaleDown_add v.isLt
  simp only [hsmall]
  decide

/-- An operation that only delivers a result changes nothing else. -/
theorem onlyChanges_deliver_beginOp {s : State} (r : OpResult) (hidle : s.busy = false) :
    OnlyChanges [.result] s (deliver r (beginOp s)) :=
  onlyChanges_deliver r hidle (onlyChanges_refl [] _)

/-- Settles O41: both getters deliver their cache bit from the state in which they began. -/
theorem gettersReportCache : Obligations.GettersReportCache := by
  intro s hidle
  constructor
  · exact ⟨_, execMuted_idle hidle, onlyChanges_deliver_beginOp _ hidle, rfl⟩
  · exact ⟨_, execDecodeMode_idle hidle, onlyChanges_deliver_beginOp _ hidle, rfl⟩

/-- 44_driver_ops.md R223: on an idle block CURRENT_EFFECT is refused by its own name. -/
theorem execCurrentEffect_idle {s : State} (hidle : s.busy = false) :
    execCurrentEffect s = .refused .currentEffectUndefined :=
  hostOp_idle hidle _

/-- 44_driver_ops.md R223: idle or busy, CURRENT_EFFECT answers no next state. -/
theorem execCurrentEffect_ne_next (s t : State) : execCurrentEffect s ≠ .next t := by
  intro hnext
  obtain ⟨hidle, -⟩ := hostOp_next hnext
  rw [execCurrentEffect_idle hidle] at hnext
  cases hnext

/-- Settles O42: the refusal of the idle block, and the lack of a next state on every block. -/
theorem currentEffectRefused : Obligations.CurrentEffectRefused :=
  ⟨fun _ hidle => execCurrentEffect_idle hidle, execCurrentEffect_ne_next⟩

end Sys2Proof.Machine

namespace Sys2Proof.Machine

/-! ## The causes an operation may note (60_exceptions.md R240 to R243) -/

/-- 60_exceptions.md R241, R242: what an operation may do to the cause of the last failure: leave it, or note one of the
two causes that operations raise. -/
def CauseKeptOrRaised (s t : State) : Prop :=
  t.cause = s.cause ∨ t.cause = some .timeout ∨ t.cause = some .frameInvalid

/-- 44_driver_ops.md R205: a register write notes what its poll notes, and nothing of its own. -/
@[simp] theorem writeBody_cause (off : Nat) (val : Byte) (s : State) :
    (writeBody off val s).cause = (pollBody s).2.cause := by
  rcases writeBody_cases off val s with ⟨-, h⟩ | ⟨-, -, h⟩ | ⟨-, -, h⟩ <;> rw [h]
  rw [sendSnapshot_cause, patchSnapshot_cause]

/-- 60_exceptions.md R241, R242: only an operation that waits for an answer notes a cause, in its poll, its probe or its
command; every other one, and every event of the line, leaves the cause as it was. -/
theorem RunsTo.causeKeptOrRaised {s t : State} {i : Instr} (h : RunsTo s i t) : CauseKeptOrRaised s t := by
  cases h with
  | poll => exact pollBody_cause (beginOp s)
  | temp => exact tempBody_cause (beginOp s)
  | @command _ op => exact (sendBody_cause op (beginOp s)).imp_right .inl
  | write off val =>
    rw [CauseKeptOrRaised, deliver_cause, writeBody_cause]
    exact pollBody_cause (beginOp s)
  | field f =>
    rw [CauseKeptOrRaised, deliver_cause, readBody_cause]
    exact pollBody_cause (beginOp s)
  | sendThenFlush | flush | send | await | read => exact .inl (by simp)
  | lrc | lrcStore | view | tempView | report => exact .inl (by simp)
  | arrival | departure => exact .inl (by simp)

/-- Settles O57: DeviceUnreachable is neither of the two causes an operation may note, so where it stands afterwards it
stood before. -/
theorem deviceUnreachableNeverRaised : Obligations.DeviceUnreachableNeverRaised := by
  intro i s t hexec hunreachable
  rcases (exec_runsTo hexec).causeKeptOrRaised with hkept | htimeout | hinvalid
  · exact hkept.symm.trans hunreachable
  · simp [htimeout] at hunreachable
  · simp [hinvalid] at hunreachable

end Sys2Proof.Machine

namespace Sys2Proof.Machine

/-! ## The reset event (10_state.md R43, 70_reset_and_hazards.md R270) -/

/-- A memory that nothing was written to holds no value at any address. -/
@[simp] theorem memRead_nil (a : Nat) : memRead [] a = none := rfl

/-- 10_state.md R43: every byte of the snapshot is unspecified after reset, so no address of it holds a value. -/
theorem resetWith_snap_holds_nothing (c : Config) (env : List EnvMove) (port : List Message) (a : Nat) :
    memRead (State.resetWith c env port).snap a = none :=
  memRead_nil a

/-- Settles O58: the registers are read off the reset state, field by field, and its snapshot was never written. -/
theorem resetLeaves : Obligations.ResetLeaves := by
  rintro c env port s rfl
  exact ⟨rfl, rfl, rfl, rfl, rfl, resetWith_snap_holds_nothing c env port, rfl, rfl⟩

end Sys2Proof.Machine

namespace Sys2Proof

open Machine

/-! ## Messages: what a decoded part of a message was written as (30_encoding.md R73, R96, R98 to R113)

For each part of a message two lemmas: what is written from well-formed operands is read back (`_encoded`), and whatever
is read has well-formed operands and is written as it stood (`_ok`). The instruction's own statements put the parts
together. -/

/-- A mapped decoding that succeeds comes from one that succeeds. -/
theorem ok_of_map_eq_ok {α β : Type} {f : α → β} {x : Except DecodeError α} {b : β} (h : x.map f = .ok b) :
    ∃ a, x = .ok a ∧ f a = b := by
  cases x with
  | error e => cases h
  | ok a => exact ⟨a, rfl, Except.ok.inj h⟩

/-- Two decodings in a row succeed when both do. -/
theorem ok_of_bind_eq_ok {α β : Type} {f : α → Except DecodeError β} {x : Except DecodeError α} {b : β}
    (h : x.bind f = .ok b) : ∃ a, x = .ok a ∧ f a = .ok b := by
  cases x with
  | error e => cases h
  | ok a => exact ⟨a, rfl, h⟩

/-- Among pairwise distinct keys, looking for a member's key finds that member. -/
theorem find?_of_nodup_keys {α β : Type} [BEq β] [LawfulBEq β] {key : α → β} {l : List α} {x : α}
    (hnodup : (l.map key).Nodup) (hx : x ∈ l) : l.find? (fun y => key y == key x) = some x := by
  induction l with
  | nil => cases hx
  | cons y ys ih =>
    rw [List.map_cons, List.nodup_cons] at hnodup
    obtain ⟨hfresh, hrest⟩ := hnodup
    rcases List.mem_cons.1 hx with rfl | hmem
    · simp
    · have hne : key y ≠ key x := fun he => hfresh (he ▸ List.mem_map_of_mem hmem)
      rw [List.find?_cons_of_neg (by simpa using hne)]
      exact ih hrest hmem

/-! ### Buffers and numbers beside a host command word -/

theorem decodeBuf_encoded {b : BufRef} (hb : b.wf = true) : decodeBuf (bufCode b) (bufBytes b) = .ok b := by
  cases b with
  | snap => rfl
  | stage => rfl
  | given bs =>
    have hlen : bs.length < 65536 := by simpa [BufRef.wf] using hb
    simp [decodeBuf, bufCode, bufBytes, decodeGiven, hlen, Except.map]

theorem decodeGiven_ok {bs cs : List Byte} (h : decodeGiven bs = .ok cs) : cs = bs ∧ bs.length < 65536 := by
  rw [decodeGiven] at h
  split at h <;> cases h
  exact ⟨rfl, ‹_›⟩

theorem decodeBuf_ok {r : Byte} {bs : List Byte} {b : BufRef} (h : decodeBuf r bs = .ok b) :
    b.wf = true ∧ bufCode b = r ∧ bufBytes b = bs := by
  rw [decodeBuf] at h
  split at h
  · rename_i hr
    split at h <;> cases h
    exact ⟨rfl, hr.symm, (Eq.symm ‹_›)⟩
  · split at h
    · rename_i hr
      split at h <;> cases h
      exact ⟨rfl, hr.symm, (Eq.symm ‹_›)⟩
    · split at h
      · rename_i hr
        obtain ⟨cs, hcs, rfl⟩ := ok_of_map_eq_ok h
        obtain ⟨rfl, hlen⟩ := decodeGiven_ok hcs
        exact ⟨decide_eq_true hlen, hr.symm, rfl⟩
      · cases h

theorem decodeTempBuf_ok {r : Byte} {bs : List Byte} {b : TempRef} (h : decodeTempBuf r bs = .ok b) :
    b.wf = true ∧ besideTemp b = r :: bs := by
  rw [decodeTempBuf] at h
  split at h
  · rename_i hr
    split at h
    · rename_i hbs
      cases h
      rw [hr, hbs]
      exact ⟨rfl, rfl⟩
    · cases h
  · split at h
    · rename_i hr
      obtain ⟨cs, hcs, rfl⟩ := ok_of_map_eq_ok h
      obtain ⟨rfl, hlen⟩ := decodeGiven_ok hcs
      rw [hr]
      exact ⟨decide_eq_true hlen, rfl⟩
    · cases h

theorem decodeHBuf_encoded {b : TempRef} (hb : b.wf = true) : decodeHBuf [] (besideTemp b) = .ok b := by
  cases b with
  | tmp => rfl
  | given bs =>
    have hlen : bs.length < 65536 := by simpa [TempRef.wf] using hb
    simp [decodeHBuf, besideTemp, decodeTempBuf, decodeGiven, hlen, Except.map]

theorem decodeHBuf_ok {args beside : List Byte} {b : TempRef} (h : decodeHBuf args beside = .ok b) :
    b.wf = true ∧ args = [] ∧ besideTemp b = beside := by
  unfold decodeHBuf at h
  split at h
  · obtain ⟨hwf, hbeside⟩ := decodeTempBuf_ok h
    exact ⟨hwf, rfl, hbeside⟩
  · cases h

theorem decodeHB_encoded {b : BufRef} {n : Nat} (hb : b.wf = true) (hn : n < 65536) :
    decodeHB [] (besideHB b n) = .ok (b, n) := by
  simp only [decodeHB, besideHB, decodeBuf_encoded hb, Except.map, wordOf_bytes hn]

theorem decodeHB_ok {args beside : List Byte} {q : BufRef × Nat} (h : decodeHB args beside = .ok q) :
    q.1.wf = true ∧ q.2 < 65536 ∧ args = [] ∧ besideHB q.1 q.2 = beside := by
  unfold decodeHB at h
  split at h
  · rename_i r lo hi bs
    obtain ⟨b, hb, rfl⟩ := ok_of_map_eq_ok h
    obtain ⟨hwf, rfl, rfl⟩ := decodeBuf_ok hb
    exact ⟨hwf, wordOf_lt lo hi, rfl, by simp [besideHB]⟩
  · cases h

theorem decodeHBytes_encoded {bs : List Byte} (h0 : 0 < bs.length) (h1 : bs.length ≤ 65536) :
    decodeHBytes [] (loByte (bs.length - 1) :: hiByte (bs.length - 1) :: bs) = .ok bs := by
  have hcount : bs.length = wordOf (loByte (bs.length - 1)) (hiByte (bs.length - 1)) + 1 := by
    rw [wordOf_bytes (by omega)]
    omega
  exact if_pos hcount

theorem decodeHBytes_ok {args beside bs : List Byte} (h : decodeHBytes args beside = .ok bs) :
    0 < bs.length ∧ bs.length ≤ 65536 ∧ args = [] ∧
      beside = loByte (bs.length - 1) :: hiByte (bs.length - 1) :: bs := by
  unfold decodeHBytes at h
  split at h
  · rename_i lo hi cs
    split at h <;> cases h
    rename_i hcount
    have hlt := wordOf_lt lo hi
    rw [hcount, Nat.add_sub_cancel, loByte_wordOf, hiByte_wordOf]
    exact ⟨Nat.succ_pos _, hlt, rfl, rfl⟩
  · cases h

theorem countOf_bytes {n : Nat} (h0 : 0 < n) (h1 : n ≤ 65536) : countOf (loByte n) (hiByte (n - 1)) = n := by
  rw [countOf, loByte_toNat, hiByte_toNat]
  omega

theorem decodeCount_encoded {n : Nat} (h0 : 0 < n) (h1 : n ≤ 65536) :
    decodeCount [loByte n] [hiByte (n - 1)] = .ok n :=
  congrArg Except.ok (countOf_bytes h0 h1)

theorem decodeCount_ok {args beside : List Byte} {n : Nat} (h : decodeCount args beside = .ok n) :
    0 < n ∧ n ≤ 65536 ∧ args = [loByte n] ∧ beside = [hiByte (n - 1)] := by
  unfold decodeCount at h
  split at h
  · rename_i a hi
    cases h
    have ha := a.isLt
    have hhi := hi.isLt
    have hlo : loByte (countOf a hi) = a := by
      rw [← BitVec.toNat_inj, loByte_toNat, countOf]
      omega
    have hhigh : hiByte (countOf a hi - 1) = hi := by
      rw [← BitVec.toNat_inj, hiByte_toNat, countOf]
      omega
    rw [hlo, hhigh, countOf]
    exact ⟨by omega, by omega, rfl, rfl⟩
  · cases h

theorem decodeH0_ok {i j : Instr} {args beside : List Byte} (h : decodeH0 i args beside = .ok j) :
    j = i ∧ args = [] ∧ beside = [] := by
  unfold decodeH0 at h
  split at h <;> cases h
  exact ⟨rfl, rfl, rfl⟩

theorem decodeH1_ok {args beside : List Byte} {a : Byte} (h : decodeH1 args beside = .ok a) :
    args = [a] ∧ beside = [] := by
  unfold decodeH1 at h
  split at h <;> cases h
  exact ⟨rfl, rfl⟩

/-! ### Inputs, effects and POWER's bit in a host command word -/

theorem inputOfIndex_encoded (i : Input) : inputOfIndex (loByte (inputIndex i)) = .ok i := by
  cases i <;> rfl

theorem inputOfIndex_ok {a : Byte} {i : Input} (h : inputOfIndex a = .ok i) : loByte (inputIndex i) = a := by
  unfold inputOfIndex at h
  split at h <;> cases h
  rename_i hget
  obtain ⟨hlt, hget⟩ := List.getElem?_eq_some_iff.1 hget
  have hindex : ∀ k (hk : k < allInputs.length), inputIndex allInputs[k] = k := by decide
  rw [← hget, hindex _ hlt, ← BitVec.toNat_inj, loByte_toNat, Nat.mod_eq_of_lt a.isLt]

/-- EFFECTS in the order of the command word: an effect stands at its position (30_encoding.md R111). -/
theorem allEffects_getElem?_eq_some {c : Config} {k : Nat} {e : Effect} :
    (allEffects c)[k]? = some e ↔ e.wf c = true ∧ effectIndex e = k := by
  rw [allEffects]
  match k with
  | 0 => cases e <;> simp [Effect.wf, effectIndex]
  | 1 => cases e <;> simp [Effect.wf, effectIndex]
  | k + 2 =>
    rw [List.getElem?_append_right (by simp)]
    cases e <;> simp [Effect.wf, effectIndex, List.getElem?_eq_some_iff]
    rename_i j
    constructor
    · rintro ⟨hk, rfl⟩
      exact ⟨hk, rfl⟩
    · rintro ⟨hj, rfl⟩
      exact ⟨hj, rfl⟩

theorem effectOfIndex_encoded {c : Config} {e : Effect} (hc : c.wf = true) (he : e.wf c = true) :
    effectOfIndex c (loByte (effectIndex e)) = .ok e := by
  have hmore : c.opSelEffectMore.length + 2 ≤ 256 := by
    simp only [Config.wf, Bool.and_eq_true, decide_eq_true_eq] at hc
    exact hc.2
  have hlt : effectIndex e < 256 := by
    cases e with
    | e3d | noEffect => decide
    | further k =>
      have hk : k < c.opSelEffectMore.length := by simpa [Effect.wf] using he
      rw [effectIndex]
      omega
  have hget := allEffects_getElem?_eq_some.2 ⟨he, rfl⟩
  rw [effectOfIndex, loByte_toNat, Nat.mod_eq_of_lt hlt, hget]

theorem effectOfIndex_ok {c : Config} {b : Byte} {e : Effect} (h : effectOfIndex c b = .ok e) :
    e.wf c = true ∧ loByte (effectIndex e) = b := by
  unfold effectOfIndex at h
  split at h <;> cases h
  rename_i hget
  obtain ⟨hwf, hindex⟩ := allEffects_getElem?_eq_some.1 hget
  refine ⟨hwf, ?_⟩
  rw [hindex, ← BitVec.toNat_inj, loByte_toNat, Nat.mod_eq_of_lt b.isLt]

theorem decodeSelect_ok {c : Config} {args beside : List Byte} {i : Instr} (h : decodeSelect c args beside = .ok i) :
    i.wf c = true ∧ encode c i = hostMessage .selectInput args beside := by
  unfold decodeSelect at h
  split at h
  · obtain ⟨inp, hinp, rfl⟩ := ok_of_map_eq_ok h
    exact ⟨rfl, by rw [encode, inputOfIndex_ok hinp]⟩
  · obtain ⟨inp, hinp, h⟩ := ok_of_bind_eq_ok h
    obtain ⟨e, he, rfl⟩ := ok_of_map_eq_ok h
    obtain ⟨hwf, hindex⟩ := effectOfIndex_ok he
    exact ⟨hwf, by rw [encode, inputOfIndex_ok hinp, hindex]⟩
  · cases h

theorem decodePower_ok {a : Byte} {i : Instr} (h : decodePower a = .ok i) :
    ∃ on, i = .power on ∧ a = if on then 1 else 0 := by
  unfold decodePower at h
  split at h
  · cases h
    exact ⟨true, rfl, ‹_›⟩
  · split at h <;> cases h
    exact ⟨false, rfl, ‹_›⟩

/-! ### The host command word -/

theorem hopOfCode_hopCode (op : Hop) : hopOfCode (hopCode op) = some op := by
  cases op <;> decide

theorem hopOfCode_eq_some {h : Byte} {op : Hop} (hop : hopOfCode h = some op) : hopCode op = h := by
  simpa using List.find?_some hop

/-- A host command word is read by the reader of its operation. -/
theorem decode_hostMessage (c : Config) (op : Hop) (args beside : List Byte) :
    decode c (hostMessage op args beside) = decodeOp c op args beside := by
  show decodeHost c (hopCode op :: args) beside = _
  rw [decodeHost, hopOfCode_hopCode]

/-- What the reader of a host operation reads is well formed, and is written as that operation with those operands. -/
theorem decodeOp_ok {c : Config} {op : Hop} {args beside : List Byte} {i : Instr}
    (h : decodeOp c op args beside = .ok i) : i.wf c = true ∧ encode c i = hostMessage op args beside := by
  cases op with
  | lrc | lrcStore | lrcCheck =>
    obtain ⟨⟨b, n⟩, hq, rfl⟩ := ok_of_map_eq_ok h
    obtain ⟨hb, hn, rfl, rfl⟩ := decodeHB_ok hq
    exact ⟨by simpa [Instr.wf] using And.intro hb hn, rfl⟩
  | validateStatus =>
    obtain ⟨⟨b, n⟩, hq, rfl⟩ := ok_of_map_eq_ok h
    obtain ⟨hb, hn, rfl, rfl⟩ := decodeHB_ok hq
    exact ⟨by simpa [Instr.wf] using And.intro hb (Nat.add_lt_add_right hn 4), by simp [encode]⟩
  | validateTemp =>
    obtain ⟨b, hq, rfl⟩ := ok_of_map_eq_ok h
    obtain ⟨hb, rfl, rfl⟩ := decodeHBuf_ok hq
    exact ⟨hb, rfl⟩
  | txWrite =>
    obtain ⟨bs, hq, rfl⟩ := ok_of_map_eq_ok h
    obtain ⟨h0, h1, rfl, rfl⟩ := decodeHBytes_ok hq
    exact ⟨by simp only [Instr.wf, h0, h1, decide_true, Bool.and_self], rfl⟩
  | await | read =>
    obtain ⟨n, hq, rfl⟩ := ok_of_map_eq_ok h
    obtain ⟨h0, h1, rfl, rfl⟩ := decodeCount_ok hq
    exact ⟨by simp only [Instr.wf, h0, h1, decide_true, Bool.and_self], rfl⟩
  | flush | demux | poll | temp | muted | decodeMode | snapshot | currentEffect =>
    obtain ⟨rfl, rfl, rfl⟩ := decodeH0_ok h
    exact ⟨rfl, rfl⟩
  | sendCommand =>
    obtain ⟨a, hq, rfl⟩ := ok_of_map_eq_ok h
    obtain ⟨rfl, rfl⟩ := decodeH1_ok hq
    exact ⟨rfl, rfl⟩
  | writeRegister =>
    obtain ⟨off, val, rfl, hoff, rfl, rfl⟩ := decodeWrite_ok h
    exact ⟨decide_eq_true hoff, rfl⟩
  | readField =>
    obtain ⟨f, rfl, hf, rfl, rfl⟩ := decodeRead_ok h
    exact ⟨hf, rfl⟩
  | selectInput => exact decodeSelect_ok h
  | power =>
    obtain ⟨a, hq, h⟩ := ok_of_bind_eq_ok h
    obtain ⟨rfl, rfl⟩ := decodeH1_ok hq
    obtain ⟨on, rfl, rfl⟩ := decodePower_ok h
    exact ⟨rfl, rfl⟩

theorem decodeHost_ok {c : Config} {word beside : List Byte} {i : Instr} (h : decodeHost c word beside = .ok i) :
    i.wf c = true ∧ encode c i = ⟨.host, word, beside⟩ := by
  unfold decodeHost at h
  split at h
  · cases h
  · split at h
    · rename_i hop
      rw [← hopOfCode_eq_some hop]
      exact decodeOp_ok h
    · cases h

/-! ### Single-byte wire commands and the input-select sequence -/

/-- The single-byte wire commands are those with an opcode. -/
theorem mem_wireCommands {c : Config} {i : Instr} : i ∈ wireCommands c ↔ (wireOpcode c i).isSome = true := by
  cases i <;> simp [wireCommands, wireOpcode]

/-- The members of a list, read off at its indices. -/
theorem map_getElem?_range {α : Type} (l : List α) : (List.range l.length).map (fun k => l[k]?) = l.map some := by
  apply List.ext_getElem <;> simp

/-- The opcodes of the single-byte wire commands are those of the configuration (00_scope.md R10). -/
theorem map_wireOpcode_wireCommands (c : Config) : (wireCommands c).map (wireOpcode c) = c.opcodes.map some := by
  rw [wireCommands, Config.opcodes, List.map_append, List.map_append, List.map_map, ← map_getElem?_range c.opSelEffectMore]
  rfl

theorem encode_of_wireOpcode {c : Config} {i : Instr} {op : Byte} (h : wireOpcode c i = some op) :
    encode c i = w1Message op := by
  cases i <;> simp only [wireOpcode, Option.some.injEq, reduceCtorEq] at h
  case selEffectE k => rw [encode, List.getD_eq_getElem?_getD, h, Option.getD_some]
  all_goals rw [← h]; rfl

theorem wf_of_wireOpcode {c : Config} {i : Instr} {op : Byte} (h : wireOpcode c i = some op) : i.wf c = true := by
  cases i <;> simp only [wireOpcode, reduceCtorEq] at h
  case selEffectE k => exact decide_eq_true (List.getElem?_eq_some_iff.1 h).1
  all_goals rfl

theorem decodeW1_encoded {c : Config} {i : Instr} {op : Byte} (hc : c.opcodes.Nodup) (h : wireOpcode c i = some op) :
    decodeW1 c [op] = .ok i := by
  have hkeys : ((wireCommands c).map (wireOpcode c)).Nodup := by
    rw [map_wireOpcode_wireCommands]
    exact hc.map (Option.some_injective _)
  have hfind := find?_of_nodup_keys hkeys (mem_wireCommands.2 (Option.isSome_of_mem h))
  rw [h] at hfind
  simp only [decodeW1, hfind]

theorem decodeW1_ok {c : Config} {word : List Byte} {i : Instr} (h : decodeW1 c word = .ok i) :
    ∃ op, word = [op] ∧ wireOpcode c i = some op := by
  unfold decodeW1 at h
  split at h
  · rename_i b
    split at h <;> cases h
    rename_i hfind
    exact ⟨b, rfl, by simpa using List.find?_some hfind⟩
  · cases h

theorem effectOpcode_isSome (c : Config) (e : Effect) : (effectOpcode c e).isSome = e.wf c := by
  cases e with
  | e3d | noEffect => rfl
  | further k => exact Bool.eq_iff_iff.2 (by simp [effectOpcode, Effect.wf])

theorem mem_allEffects {c : Config} {e : Effect} : e ∈ allEffects c ↔ e.wf c = true := by
  simp only [List.mem_iff_getElem?, allEffects_getElem?_eq_some, exists_and_left, exists_eq', and_true]

/-- The inputs' opcodes are distinct, being opcodes of the configuration (00_scope.md R10). -/
theorem nodup_inputOpcodes {c : Config} (hc : c.opcodes.Nodup) : (allInputs.map (inputOpcode c)).Nodup := by
  have hsub : ((c.opcodes.drop 8).take 6).Sublist c.opcodes := (List.take_sublist 6 _).trans (List.drop_sublist 8 _)
  exact hc.sublist hsub

/-- The effects' opcodes are distinct, being opcodes of the configuration (00_scope.md R10). -/
theorem nodup_effectOpcodes {c : Config} (hc : c.opcodes.Nodup) : ((allEffects c).map (effectOpcode c)).Nodup := by
  have hmap : (allEffects c).map (effectOpcode c) =
      (c.opSelEffect3D :: c.opSelEffectNone :: c.opSelEffectMore).map some := by
    rw [allEffects, List.map_append, List.map_map, List.map_cons (f := some), List.map_cons (f := some),
      ← map_getElem?_range]
    rfl
  have hsub : (c.opSelEffect3D :: c.opSelEffectNone :: c.opSelEffectMore).Sublist (c.opcodes.drop 14) :=
    ((List.sublist_append_right [c.opDecodeOn, c.opDecodeOff, c.opBlockOn, c.opBlockOff, c.opEepromSave] _).cons_cons _).cons_cons _
  rw [hmap]
  exact (hc.sublist (hsub.trans (List.drop_sublist 14 _))).map (Option.some_injective _)

theorem inputOfOpcode_encoded {c : Config} (hc : c.opcodes.Nodup) (i : Input) :
    inputOfOpcode c (inputOpcode c i) = some i :=
  find?_of_nodup_keys (nodup_inputOpcodes hc) (by cases i <;> decide)

theorem effectOfOpcode_encoded {c : Config} (hc : c.opcodes.Nodup) {e : Effect} {op : Byte}
    (h : effectOpcode c e = some op) : effectOfOpcode c op = some e := by
  have hmem : e ∈ allEffects c := by rw [mem_allEffects, ← effectOpcode_isSome, h, Option.isSome_some]
  have hfind := find?_of_nodup_keys (nodup_effectOpcodes hc) hmem
  rwa [h] at hfind

theorem decodeW4_encoded {c : Config} (hc : c.opcodes.Nodup) (i : Input) {e : Effect} (he : e.wf c = true) :
    decodeW4 c [c.opMuteOn, inputOpcode c i, (effectOpcode c e).getD 0, c.opMuteOff] =
      .ok (.inputSelectSequence i e) := by
  obtain ⟨op, hop⟩ := Option.isSome_iff_exists.1 ((effectOpcode_isSome c e).trans he)
  rw [hop, Option.getD_some]
  simp only [decodeW4, and_self, if_true, inputOfOpcode_encoded hc, effectOfOpcode_encoded hc hop]

theorem decodeW4_ok {c : Config} {word : List Byte} {i : Instr} (h : decodeW4 c word = .ok i) :
    i.wf c = true ∧ encode c i = ⟨.w4, word, []⟩ := by
  unfold decodeW4 at h
  split at h
  · split at h
    · rename_i hmute
      obtain ⟨rfl, rfl⟩ := hmute
      split at h <;> cases h
      rename_i inp e hinp he
      have hin := List.find?_some hinp
      have hef := List.find?_some he
      rw [beq_iff_eq] at hin hef
      refine ⟨mem_allEffects.1 (List.mem_of_find?_eq_some he), ?_⟩
      rw [encode, hin, hef, Option.getD_some]
    · cases h
  · cases h

/-! ### Frames -/

theorem decodeFrame_encoded {p : List Byte} (hp : p.length ≤ 255) : decodeFrame (frameOf p) = .ok p := by
  have hlen : (BitVec.ofNat 8 p.length).toNat = p.length := by
    rw [BitVec.toNat_ofNat]
    exact Nat.mod_eq_of_lt (by omega)
  simp [decodeFrame, frameOf, frameBody, hlen]

theorem decodeFrame_ok {word p : List Byte} (h : decodeFrame word = .ok p) : p.length ≤ 255 ∧ frameOf p = word := by
  unfold decodeFrame at h
  split at h
  · rename_i a b l rest
    split at h
    · rename_i henv
      obtain ⟨rfl, rfl, hlen⟩ := henv
      split at h <;> cases h
      rename_i hsum
      have hl := l.isLt
      have hdrop : rest.dropLast.length = l.toNat := by rw [List.length_dropLast, hlen, Nat.add_sub_cancel]
      have hrest : rest.dropLast ++ [frameChecksum rest.dropLast] = rest := List.dropLast_append_getLast? _ hsum
      refine ⟨by omega, ?_⟩
      rw [frameOf, frameBody, hdrop, List.cons_append, List.cons_append, List.cons_append, hrest]
      simp
    · cases h
  · cases h

theorem decodeTempFrame_ok {word : List Byte} {f : TempFrame} (h : decodeTempFrame word = .ok f) :
    tempFrameOf f.x0 f.x1 f.x3 f.x4 f.x5 f.x6 f.t f.x8 f.x9 = word := by
  unfold decodeTempFrame at h
  split at h
  · split at h <;> cases h
    rename_i hm
    rw [hm]
    rfl
  · cases h

theorem decodeResponse_ok {word : List Byte} {i : Instr} (h : decodeResponse word = .ok i) :
    ∃ v, i = .responseByte v ∧ word = [v] := by
  unfold decodeResponse at h
  split at h <;> cases h
  exact ⟨_, rfl, rfl⟩

/-! ### Characters -/

/-- A bit of a byte, as arithmetic. -/
theorem getLsbD_eq_decide (b : Byte) (k : Nat) : b.getLsbD k = decide (b.toNat / 2 ^ k % 2 = 1) := by
  rw [BitVec.getLsbD, Nat.testBit_eq_decide_div_mod_eq]

theorem charNumber_lt (d : Byte) (parity stop : Bool) : charNumber d parity stop < 2048 := by
  have hd := d.isLt
  have hp := Bool.toNat_le parity
  have hs := Bool.toNat_le stop
  rw [charNumber]
  omega

/-- The fields of a character's number: the start bit is 0, then the data, the parity and the stop bit (30_encoding.md
R70). -/
theorem charNumber_fields (d : Byte) (parity stop : Bool) :
    charNumber d parity stop % 2 = 0 ∧ charNumber d parity stop / 2 % 256 = d.toNat ∧
      decide (charNumber d parity stop / 512 % 2 = 1) = parity ∧
      decide (charNumber d parity stop / 1024 % 2 = 1) = stop := by
  have hd := d.isLt
  rw [charNumber]
  cases parity <;> cases stop <;> simp only [Bool.toNat_false, Bool.toNat_true, decide_eq_true_eq, decide_eq_false_iff_not] <;>
    omega

theorem decodeChar_encoded {c : Config} {dir : LineDir} {d : Byte} {parity stop : Bool}
    (hwf : (Instr.uartCharacter dir d parity stop).wf c = true) :
    decodeChar c dir [loByte (charNumber d parity stop), hiByte (charNumber d parity stop)] =
      .ok (.uartCharacter dir d parity stop) := by
  obtain ⟨hstart, hdata, hparity, hstop⟩ := charNumber_fields d parity stop
  have hlt := charNumber_lt d parity stop
  generalize charNumber d parity stop = n at *
  have hlo : (loByte n).getLsbD 0 = false := by
    rw [getLsbD_eq_decide, loByte_toNat, decide_eq_false_iff_not]
    omega
  have hhi : ¬8 ≤ (hiByte n).toNat := by
    rw [hiByte_toNat]
    omega
  have hd : BitVec.ofNat 8 (wordOf (loByte n) (hiByte n) / 2) = d := by
    rw [← BitVec.toNat_inj, BitVec.toNat_ofNat, wordOf_bytes (by omega), ← hdata]
  have hp : (hiByte n).getLsbD 1 = parity := by
    rw [getLsbD_eq_decide, hiByte_toNat, ← hparity]
    congr 2
    omega
  have hs : (hiByte n).getLsbD 2 = stop := by
    rw [getLsbD_eq_decide, hiByte_toNat, ← hstop]
    congr 2
    omega
  simp only [decodeChar, hlo, hhi, hd, hp, hs, hwf, decide_false, Bool.or_self, Bool.false_eq_true, if_false, if_true]

theorem charNumber_of_bytes {lo hi : Byte} (hlo : lo.getLsbD 0 = false) (hhi : hi.toNat < 8) :
    charNumber (BitVec.ofNat 8 (wordOf lo hi / 2)) (hi.getLsbD 1) (hi.getLsbD 2) = wordOf lo hi := by
  have hbit : ∀ k, (hi.getLsbD k).toNat = hi.toNat / 2 ^ k % 2 := fun k => by
    rw [getLsbD_eq_decide]
    rcases Nat.mod_two_eq_zero_or_one (hi.toNat / 2 ^ k) with h | h <;> simp [h]
  rw [getLsbD_eq_decide, decide_eq_false_iff_not] at hlo
  have hl := lo.isLt
  rw [charNumber, hbit, hbit, BitVec.toNat_ofNat, wordOf]
  omega

theorem decodeChar_ok {c : Config} {dir : LineDir} {word : List Byte} {i : Instr} (h : decodeChar c dir word = .ok i) :
    i.wf c = true ∧ ∃ d parity stop, i = .uartCharacter dir d parity stop ∧
      word = [loByte (charNumber d parity stop), hiByte (charNumber d parity stop)] := by
  unfold decodeChar at h
  split at h
  · rename_i lo hi
    split at h
    · cases h
    · rename_i hbits
      rw [Bool.or_eq_true, decide_eq_true_eq, not_or, Bool.not_eq_true, Nat.not_le] at hbits
      simp only at h
      split at h <;> cases h
      refine ⟨‹_›, _, _, _, rfl, ?_⟩
      rw [charNumber_of_bytes hbits.1 hbits.2, loByte_wordOf, hiByte_wordOf]
  · cases h

/-! ### Register opcodes -/

theorem decodeVolUse_encoded (use : VolUse) : decodeVolUse (besideVolUse use) = .ok use := by
  cases use <;> rfl

theorem decodeVolUse_ok {beside : List Byte} {use : VolUse} (h : decodeVolUse beside = .ok use) :
    besideVolUse use = beside := by
  unfold decodeVolUse at h
  split at h
  · split at h <;> cases h
    rename_i hh
    rw [hh]
    rfl
  · split at h <;> cases h
    rename_i hh
    rw [hh]
    rfl
  · cases h

/-- The instruction of a volume channel's register opcode (30_encoding.md R96). -/
def volInstr : VolChannel → VolUse → Instr
  | .main => .volMain
  | .rear => .volRear
  | .center => .volCenter
  | .sub => .volSub

theorem encode_volInstr (c : Config) (ch : VolChannel) (use : VolUse) :
    encode c (volInstr ch use) = regMessage (volOffset c ch) use := by
  cases ch <;> rfl

theorem decodeReg_encoded {c : Config} (hc : c.wf = true) (ch : VolChannel) (use : VolUse) :
    decode c (regMessage (volOffset c ch) use) = .ok (volInstr ch use) := by
  simp only [Config.wf, Bool.and_eq_true, decide_eq_true_eq, List.all_eq_true] at hc
  obtain ⟨⟨⟨⟨⟨-, hoffsets⟩, -⟩, hbytes⟩, -⟩, -⟩ := hc
  have hdistinct : c.volumeOffsets.Nodup := hoffsets.sublist
    ((List.sublist_append_left _ _).trans ((List.sublist_append_left _ _).trans (List.sublist_append_left _ _)))
  have hbyte : (loByte (volOffset c ch)).toNat = volOffset c ch := by
    rw [loByte_toNat, Nat.mod_eq_of_lt]
    exact hbytes _ (by cases ch <;> simp [Config.volumeOffsets, volOffset])
  simp only [Config.volumeOffsets, List.nodup_cons, List.mem_cons, not_or, List.not_mem_nil] at hdistinct
  obtain ⟨⟨hmr, hmc, hms, -⟩, ⟨hrc, hrs, -⟩, ⟨hcs, -⟩, -⟩ := hdistinct
  show decodeReg c [loByte (volOffset c ch)] (besideVolUse use) = _
  rw [decodeReg, hbyte, decodeVolUse_encoded]
  cases ch with
  | main => rw [volOffset, if_pos rfl]; rfl
  | rear => rw [volOffset, if_neg (Ne.symm hmr), if_pos rfl]; rfl
  | center => rw [volOffset, if_neg (Ne.symm hmc), if_neg (Ne.symm hrc), if_pos rfl]; rfl
  | sub => rw [volOffset, if_neg (Ne.symm hms), if_neg (Ne.symm hrs), if_neg (Ne.symm hcs), if_pos rfl]; rfl

theorem decodeReg_ok {c : Config} {word beside : List Byte} {i : Instr} (h : decodeReg c word beside = .ok i) :
    ∃ ch use, i = volInstr ch use ∧ word = [loByte (volOffset c ch)] ∧ beside = besideVolUse use := by
  have hbyte : ∀ {r : Byte} {n : Nat}, r.toNat = n → r = loByte n := fun {r n} hr => by
    rw [← BitVec.toNat_inj, loByte_toNat, ← hr, Nat.mod_eq_of_lt r.isLt]
  have hend : ∀ {r : Byte} (ch : VolChannel), r.toNat = volOffset c ch →
      (decodeVolUse beside).map (volInstr ch) = .ok i →
      ∃ ch use, i = volInstr ch use ∧ [r] = [loByte (volOffset c ch)] ∧ beside = besideVolUse use := by
    intro r ch hr h
    obtain ⟨use, huse, rfl⟩ := ok_of_map_eq_ok h
    exact ⟨ch, use, rfl, by rw [hbyte hr], (decodeVolUse_ok huse).symm⟩
  unfold decodeReg at h
  split at h
  · split at h
    · exact hend .main ‹_› h
    split at h
    · exact hend .rear ‹_› h
    split at h
    · exact hend .center ‹_› h
    split at h
    · exact hend .sub ‹_› h
    · cases h
  · cases h

/-! ### Whole messages -/

theorem bare_ok {beside : List Byte} {x : Except DecodeError Instr} {i : Instr} (h : bare beside x = .ok i) :
    beside = [] ∧ x = .ok i := by
  rw [bare] at h
  split at h
  · exact ⟨‹_›, h⟩
  · cases h

/-- Whatever a message decodes to is well formed, and is written as that message. -/
theorem decode_ok {c : Config} {m : Message} {i : Instr} (h : decode c m = .ok i) :
    i.wf c = true ∧ encode c i = m := by
  obtain ⟨fmt, word, beside⟩ := m
  cases fmt with
  | w1 =>
    obtain ⟨rfl, h⟩ := bare_ok h
    obtain ⟨op, rfl, hop⟩ := decodeW1_ok h
    exact ⟨wf_of_wireOpcode hop, encode_of_wireOpcode hop⟩
  | w4 =>
    obtain ⟨rfl, h⟩ := bare_ok h
    exact decodeW4_ok h
  | wf =>
    obtain ⟨rfl, h⟩ := bare_ok h
    obtain ⟨p, hp, rfl⟩ := ok_of_map_eq_ok h
    obtain ⟨hlen, rfl⟩ := decodeFrame_ok hp
    exact ⟨decide_eq_true hlen, rfl⟩
  | rs =>
    obtain ⟨rfl, h⟩ := bare_ok h
    obtain ⟨p, hp, rfl⟩ := ok_of_map_eq_ok h
    obtain ⟨hlen, rfl⟩ := decodeFrame_ok hp
    exact ⟨decide_eq_true hlen, rfl⟩
  | rt =>
    obtain ⟨rfl, h⟩ := bare_ok h
    obtain ⟨f, hf, rfl⟩ := ok_of_map_eq_ok h
    exact ⟨rfl, by rw [encode, decodeTempFrame_ok hf]⟩
  | r1 =>
    obtain ⟨rfl, h⟩ := bare_ok h
    obtain ⟨v, rfl, rfl⟩ := decodeResponse_ok h
    exact ⟨rfl, rfl⟩
  | charIn | charOut =>
    obtain ⟨rfl, h⟩ := bare_ok h
    obtain ⟨hwf, d, parity, stop, rfl, rfl⟩ := decodeChar_ok h
    exact ⟨hwf, rfl⟩
  | reg =>
    obtain ⟨ch, use, rfl, rfl, rfl⟩ := decodeReg_ok h
    exact ⟨by cases ch <;> rfl, encode_volInstr c ch use⟩
  | host => exact decodeHost_ok h

/-- Settles O2: the operands' half of what a decoded message says. -/
theorem decodedIsWellFormed : Obligations.DecodedIsWellFormed := fun _ _ _ h => (decode_ok h).1

/-- Settles O3: the message's half. -/
theorem encodeOfDecode : Obligations.EncodeOfDecode := fun _ _ _ h => (decode_ok h).2

/-- A single-byte wire command is read back: the opcodes are pairwise distinct (00_scope.md R10). -/
theorem decode_encode_of_wireOpcode {c : Config} {i : Instr} {op : Byte} (hc : c.opcodes.Nodup)
    (h : wireOpcode c i = some op) : decode c (encode c i) = .ok i := by
  rw [encode_of_wireOpcode h]
  exact decodeW1_encoded hc h

/-- Settles O1: each format is read back by its own reader; the single-byte commands and the input selection by the
distinct opcodes, the register opcodes and field codes by the distinct offsets and codes of a legal configuration. -/
theorem decodeOfEncode : Obligations.DecodeOfEncode := by
  intro c i hc hi
  have hops : c.opcodes.Nodup := by
    simp only [Config.wf, Bool.and_eq_true, decide_eq_true_eq] at hc
    exact hc.1.1.1.1.1.2
  cases hop : wireOpcode c i with
  | some op => exact decode_encode_of_wireOpcode hops hop
  | none =>
    cases i <;> simp only [wireOpcode, reduceCtorEq] at hop
    case selEffectE k =>
      rw [List.getElem?_eq_none_iff] at hop
      exact absurd (of_decide_eq_true hi) (Nat.not_lt.2 hop)
    case inputSelectSequence inp e => exact decodeW4_encoded hops inp hi
    case volMain use => exact decodeReg_encoded hc .main use
    case volRear use => exact decodeReg_encoded hc .rear use
    case volCenter use => exact decodeReg_encoded hc .center use
    case volSub use => exact decodeReg_encoded hc .sub use
    case statusFrame p => exact congrArg (Except.map _) (decodeFrame_encoded (of_decide_eq_true hi))
    case registerWriteFrame p => exact congrArg (Except.map _) (decodeFrame_encoded (of_decide_eq_true hi))
    case temperatureFrame f => rfl
    case responseByte v => rfl
    case uartCharacter dir d parity stop => cases dir <;> exact decodeChar_encoded hi
    all_goals rw [encode, decode_hostMessage, decodeOp]
    case lrc b n | lrcStore b n | lrcCheck b n =>
      simp only [Instr.wf, Bool.and_eq_true, decide_eq_true_eq] at hi
      rw [decodeHB_encoded hi.1 hi.2, Except.map]
    case txWrite bs =>
      simp only [Instr.wf, Bool.and_eq_true, decide_eq_true_eq] at hi
      rw [decodeHBytes_encoded hi.1 hi.2, Except.map]
    case await n | read n =>
      simp only [Instr.wf, Bool.and_eq_true, decide_eq_true_eq] at hi
      rw [decodeCount_encoded hi.1 hi.2, Except.map]
    case validateStatus b n =>
      simp only [Instr.wf, Bool.and_eq_true, decide_eq_true_eq] at hi
      obtain ⟨⟨hb, h4⟩, hn⟩ := hi
      rw [decodeHB_encoded hb (by omega), Except.map, Nat.sub_add_cancel h4]
    case validateTemp b => rw [decodeHBuf_encoded hi, Except.map]
    case writeRegister off val => exact decodeWrite_encoded val (of_decide_eq_true hi)
    case readField f => exact decodeRead_encoded hc hi
    case selectInput inp => cases inp <;> rfl
    case selectInputEffect inp e =>
      rw [decodeSelect, inputOfIndex_encoded, Except.bind, effectOfIndex_encoded hc hi, Except.map]
    case power on => cases on <;> rfl
    all_goals rfl

end Sys2Proof

namespace Sys2Proof.Machine

open Sys2Proof.Safety

/-! ## What every instruction keeps, said of `RunsTo` (Sys2Proof/Laws/Exec.lean)

Each fact is proved once over the next states an instruction can answer; the statements about steps and instructions
read it off. -/

/-- 10_state.md R39: no instruction writes a parameter. -/
theorem RunsTo.cfg {s t : State} {i : Instr} (h : RunsTo s i t) : t.cfg = s.cfg := by
  cases h <;> simp

/-- Settles O54: neither the idle block nor an instruction writes a parameter, and reset takes the given ones. -/
theorem parametersFixed : Obligations.ParametersFixed := by
  refine ⟨fun s t hstep => ?_, fun _ _ _ => rfl⟩
  rcases step_next hstep with ⟨-, rfl⟩ | ⟨m, rest, i, -, -, hruns⟩
  · exact idle_cfg s
  · exact hruns.cfg

/-- Settles O56: every operation ends with its delivery, and the exchanges, which alone move `seq`, leave it at Idle. -/
theorem operationEndsReady : Obligations.OperationEndsReady := by
  intro i s t hline hexec
  cases exec_runsTo hexec with
  | arrival bs hevent => simp [hevent] at hline
  | departure bs hevent => simp [hevent] at hline
  | _ => simp

/-- Settles O32: of the bodies only the command's updates the cache. -/
theorem cacheOnlyByCommands : Obligations.CacheOnlyByCommands := by
  intro i s t hnone hexec
  cases exec_runsTo hexec with
  | command hop => simp [hop] at hnone
  | _ => simp

/-! ## The output, the clock and the queue -/

/-- 44_driver_ops.md R205, R207, R208: after its poll's request a register write sends its whole snapshot or nothing. -/
theorem writeBody_txs (off : Nat) (val : Byte) (s : State) :
    ∃ sent, (writeBody off val s).txs = s.txs ++ [s.cfg.opGetStatus] ++ sent ∧
      (sent = [] ∨ sent.length = (writeBody off val s).snapLen) := by
  rcases writeBody_cases off val s with ⟨-, h⟩ | ⟨-, -, h⟩ | ⟨-, -, h⟩ <;> rw [h]
  · exact ⟨[], by simp, .inl rfl⟩
  · exact ⟨[], by simp, .inl rfl⟩
  · refine ⟨_, by rw [sendSnapshot_txs, patchSnapshot_txs, pollBody_txs], .inr ?_⟩
    rw [sendSnapshot_snapLen]
    exact memView_length _ _ _

/-- 10_state.md R29: no instruction takes back a transmitted byte. -/
theorem RunsTo.txs_prefix {s t : State} {i : Instr} (h : RunsTo s i t) : s.txs <+: t.txs := by
  cases h with
  | write off val =>
    obtain ⟨sent, htxs, -⟩ := writeBody_txs off val (beginOp s)
    rw [deliver_txs, htxs, List.append_assoc]
    exact List.prefix_append _ _
  | _ => simp

/-- What every instruction keeps of the clock and the queue: the clock does not go back, a request time that was not in
the future still is not, and a queue within its depth stays within it. -/
structure LinkStep (s t : State) : Prop where
  clock : s.now ≤ t.now
  request : s.t0 ≤ s.now → t.t0 ≤ t.now
  queue : s.rxq.length ≤ s.cfg.rxDepth → t.rxq.length ≤ s.cfg.rxDepth

/-- An exchange that latches a request time and starts from an empty queue keeps all three whatever held before. -/
theorem LinkKept.linkStep {s t : State} (h : LinkKept s t) : LinkStep s t :=
  ⟨h.1, fun _ => h.2.1, fun _ => h.2.2⟩

theorem LinkStep.trans {s t u : State} (h : LinkStep s t) (hcfg : t.cfg = s.cfg) (h' : LinkStep t u) : LinkStep s u :=
  ⟨h.clock.trans h'.clock, fun hs => h'.request (h.request hs), fun hs => by
    have := h'.queue (by rw [hcfg]; exact h.queue hs)
    rwa [hcfg] at this⟩

/-- An operation's beginning and delivery touch neither the clock nor the queue. -/
theorem LinkStep.deliver {s u : State} (r : OpResult) (h : LinkStep (beginOp s) u) :
    LinkStep s (Machine.deliver r u) :=
  ⟨h.clock, h.request, h.queue⟩

theorem linkStep_flushRx (s : State) : LinkStep s (flushRx s) := by
  have hclock := flushRx_now_le s
  exact ⟨by omega, fun hs => by rw [flushRx_t0]; omega, fun _ => Nat.zero_le _⟩

theorem linkStep_transmit (bs : List Byte) (s : State) : LinkStep s (transmit bs s) :=
  ⟨(linkStep_flushRx s).clock, (linkStep_flushRx s).request, (linkStep_flushRx s).queue⟩

theorem linkStep_awaitBytes (n : Nat) (s : State) : LinkStep s (awaitBytes n s).2 := by
  obtain ⟨-, -, hclock, -, hqueue⟩ := awaitBytes_spec n s
  exact ⟨hclock, fun hs => by rw [awaitBytes_t0]; exact hs.trans hclock, hqueue⟩

theorem linkStep_pop (n : Nat) (s : State) : LinkStep s (pop n s) :=
  ⟨le_refl _, id, fun hs => by rw [pop_rxq, List.length_drop]; omega⟩

theorem linkStep_arriveAll (bs : List Byte) (s : State) : LinkStep s (arriveAll bs s) :=
  ⟨by simp, by simp, arriveAll_rxq_le⟩

theorem RunsTo.linkStep {s t : State} {i : Instr} (h : RunsTo s i t) : LinkStep s t := by
  cases h with
  | poll => exact (pollBody_link _).linkStep.deliver _
  | temp => exact (tempBody_link _).linkStep.deliver _
  | command => exact (sendBody_link _ _).linkStep.deliver _
  | write off val => exact (writeBody_link off val _).linkStep.deliver _
  | field f =>
    have hpoll := pollBody_link (beginOp s)
    have hread : LinkKept (beginOp s) (readBody f (beginOp s)).2 := by
      rwa [LinkKept, readBody_now, readBody_t0, readBody_rxq]
    exact hread.linkStep.deliver _
  | sendThenFlush bs =>
    exact ((linkStep_transmit bs _).trans (transmit_cfg bs _) (linkStep_flushRx _)).deliver _
  | flush => exact (linkStep_flushRx _).deliver _
  | send bs => exact (linkStep_transmit bs _).deliver _
  | await n => exact (linkStep_awaitBytes n _).deliver _
  | read n => exact (linkStep_pop n _).deliver _
  | lrc | lrcStore | view | tempView | report => exact ⟨by simp, by simp, by simp⟩
  | arrival bs => exact linkStep_arriveAll bs s
  | departure bs => exact ⟨le_refl _, id, id⟩

/-- Settles O55: the idle block sends nothing and its clock stands; of an instruction both are said above. -/
theorem outputAndClockOnlyGrow : Obligations.OutputAndClockOnlyGrow := by
  intro s t hstep
  rcases step_next hstep with ⟨-, rfl⟩ | ⟨m, rest, i, -, -, hruns⟩
  · simp
  · exact ⟨hruns.txs_prefix, hruns.linkStep.clock⟩

/-! ## The snapshot -/

/-- The three parts of the snapshot are equal, byte for byte and in their form. -/
structure SameSnapshot (s t : State) : Prop where
  snap : t.snap = s.snap
  snapLen : t.snapLen = s.snapLen
  snapValid : t.snapValid = s.snapValid

theorem SameSnapshot.trans {s t u : State} (h : SameSnapshot s t) (h' : SameSnapshot t u) : SameSnapshot s u :=
  ⟨h'.snap.trans h.snap, h'.snapLen.trans h.snapLen, h'.snapValid.trans h.snapValid⟩

theorem SameSnapshot.kept {s t : State} (h : SameSnapshot s t) : SnapshotKept s t :=
  ⟨by rw [h.snap]; exact sameBytes_refl _, h.snapLen, h.snapValid⟩

theorem SameSnapshot.snapshotIs {s t : State} {fr : List Byte} (h : SameSnapshot s t) (hs : SnapshotIs s fr) :
    SnapshotIs t fr := by
  rwa [SnapshotIs, h.snap, h.snapLen, h.snapValid]

/-- A poll leaves the snapshot as it was or holds a valid frame of at most BUF_CAP bytes in it (43_sequencer.md R187,
R188). -/
theorem pollBody_snapshot (s : State) :
    ((pollBody s).1 = false ∧ SameSnapshot s (pollBody s).2) ∨
    ((pollBody s).1 = true ∧ ∃ p : List Byte, p.length ≤ 255 ∧ p.length + 4 ≤ s.cfg.bufCap ∧
      SnapshotIs (pollBody s).2 (frameOf p) ∧ (Memory.wf s.stage = true → Memory.wf (pollBody s).2.snap = true)) := by
  have hend := pollBody_end s
  cases hok : (pollBody s).1 with
  | false =>
    obtain ⟨hsnap, hlen, hvalid, -⟩ := hend.failed hok
    exact .inl ⟨rfl, hsnap, hlen, hvalid⟩
  | true =>
    obtain ⟨-, p, hp, hcap, his, -, -, hform⟩ := hend.committed hok
    exact .inr ⟨rfl, p, hp, hcap, his, hform⟩

/-- 44_driver_ops.md R208: a register write that goes on after its poll has a valid snapshot. -/
theorem snapValid_of_writeGoesOn {s : State} (h : writeEndsEarly (pollBody s).1 (pollBody s).2 = false) :
    (pollBody s).2.snapValid = true := by
  rcases pollBody_snapshot s with ⟨hok, -⟩ | ⟨-, p, -, -, his, -⟩
  · rw [writeEndsEarly, hok] at h
    cases hv : (pollBody s).2.snapValid with
    | true => rfl
    | false => simp [hv] at h
  · exact his.1

/-- 44_driver_ops.md R207: what the offset of a register write that goes on satisfies. -/
theorem outsidePayload_eq_false {off : Nat} {s : State} :
    outsidePayload off s = false ↔ 3 ≤ off ∧ off + 2 ≤ s.snapLen := by
  rw [outsidePayload, headerSize, Bool.or_eq_false_iff, decide_eq_false_iff_not, decide_eq_false_iff_not, Nat.not_lt,
    Nat.not_lt]

/-- The snapshot of a register write is its poll's, or the poll's patched at an offset of the payload. -/
theorem writeBody_snapshot (off : Nat) (val : Byte) (s : State) :
    SameSnapshot (pollBody s).2 (writeBody off val s) ∨
    ((pollBody s).2.snapValid = true ∧ 3 ≤ off ∧ off + 2 ≤ (pollBody s).2.snapLen ∧
      SameSnapshot (patchSnapshot off val (pollBody s).2) (writeBody off val s)) := by
  rcases writeBody_cases off val s with ⟨-, h⟩ | ⟨-, -, h⟩ | ⟨hgoes, hin, h⟩ <;> rw [h]
  · exact .inl ⟨rfl, rfl, rfl⟩
  · exact .inl ⟨rfl, rfl, rfl⟩
  · obtain ⟨hlow, hhigh⟩ := outsidePayload_eq_false.1 hin
    exact .inr ⟨snapValid_of_writeGoesOn hgoes, hlow, hhigh, by simp, by simp, by simp⟩

/-- Everything an instruction can do to the snapshot: what its poll does, what a register write patches after its poll,
what LRC_STORE stores, or nothing (10_state.md R22, 20_memory.md R64). -/
theorem RunsTo.snapshot {s t : State} {i : Instr} (h : RunsTo s i t) :
    (polls i = true ∧ SameSnapshot (pollBody (beginOp s)).2 t) ∨
    (polls i = true ∧ ∃ off val, (pollBody (beginOp s)).2.snapValid = true ∧ 3 ≤ off ∧
      off + 2 ≤ (pollBody (beginOp s)).2.snapLen ∧ SameSnapshot (patchSnapshot off val (pollBody (beginOp s)).2) t) ∨
    (∃ n, i = .lrcStore .snap n ∧ 1 ≤ n ∧ SameSnapshot (lrcStoreRun .snap n (beginOp s)) t) ∨
    SameSnapshot s t := by
  cases h with
  | poll hi =>
    refine .inl ⟨?_, rfl, rfl, rfl⟩
    rcases hi with rfl | rfl <;> rfl
  | field f hi => exact .inl ⟨polls_of_field hi, by simp, by simp, by simp⟩
  | write off val hi =>
    rcases writeBody_snapshot off val (beginOp s) with hsame | ⟨hvalid, hlow, hhigh, hsame⟩
    · exact .inl ⟨polls_of_write hi, hsame.snap, hsame.snapLen, hsame.snapValid⟩
    · exact .inr (.inl ⟨polls_of_write hi, off, val, hvalid, hlow, hhigh, hsame.snap, hsame.snapLen, hsame.snapValid⟩)
  | lrcStore r b n hn =>
    cases b with
    | snap => exact .inr (.inr (.inl ⟨n, rfl, hn, rfl, rfl, rfl⟩))
    | stage | given => exact .inr (.inr (.inr ⟨rfl, rfl, rfl⟩))
  | _ => exact .inr (.inr (.inr ⟨by simp, by simp, by simp⟩))

/-- Settles O52: the writers are those of `RunsTo.snapshot`, and none of them clears `snap_valid`. -/
theorem snapshotWriters : Obligations.SnapshotWriters := by
  intro i s t hexec
  have hpollValid : s.snapValid = true → (pollBody (beginOp s)).2.snapValid = true :=
    fun hv => pollBody_snapValid (s := beginOp s) hv
  rcases (exec_runsTo hexec).snapshot with ⟨hpolls, hsame⟩ | ⟨hpolls, off, val, hvalid, -, -, hsame⟩ |
    ⟨n, rfl, -, hsame⟩ | hsame
  · exact ⟨fun hno => by simp [hpolls] at hno, fun hv => by rw [hsame.snapValid]; exact hpollValid hv⟩
  · exact ⟨fun hno => by simp [hpolls] at hno, fun _ => by rw [hsame.snapValid]; exact hvalid⟩
  · exact ⟨fun _ hno => Bool.noConfusion hno, fun hv => by rw [hsame.snapValid, lrcStoreRun_snapValid]; exact hv⟩
  · exact ⟨fun _ _ => hsame.kept, fun hv => by rw [hsame.snapValid]; exact hv⟩

/-! ### The snapshot stays a valid frame -/

theorem SameSnapshot.frameValid {s t : State} (h : SameSnapshot s t) (hs : SnapshotFrameValid s) :
    SnapshotFrameValid t := by
  rwa [SnapshotFrameValid, h.snap, h.snapLen, h.snapValid]

theorem snapshotFrameValid_of_snapshotIs {s : State} {p : List Byte} (hp : p.length ≤ 255)
    (h : SnapshotIs s (frameOf p)) : SnapshotFrameValid s :=
  fun _ => ⟨frameOf p, ⟨p, hp, rfl⟩, h.2.1, fun a _ => h.2.2 a⟩

/-- 43_sequencer.md R186, R187: a poll commits valid frames only. -/
theorem pollBody_frameValid {s : State} (hs : SnapshotFrameValid s) : SnapshotFrameValid (pollBody s).2 := by
  rcases pollBody_snapshot s with ⟨-, hsame⟩ | ⟨-, p, hp, -, his, -⟩
  · exact hsame.frameValid hs
  · exact snapshotFrameValid_of_snapshotIs hp his

/-- 44_driver_ops.md R205, R209: the patch regenerates the checksum, so the frame held stays valid. -/
theorem patchSnapshot_frameValid {s : State} {off : Nat} (val : Byte) (hs : SnapshotFrameValid s)
    (hlow : 3 ≤ off) (hhigh : off + 2 ≤ s.snapLen) : SnapshotFrameValid (patchSnapshot off val s) := by
  intro hvalid
  obtain ⟨_, ⟨p, hp, rfl⟩, hlen, hread⟩ := hs hvalid
  rw [frameOf_length] at hlen
  obtain ⟨hpatched, -⟩ := patchSnapshot_spec (s := s) (val := val) hvalid hlen hlow (by omega)
    (fun a ha => hread a (by omega))
  refine ⟨_, ⟨p.set (off - 3) (registerValue s.cfg off val), by rwa [List.length_set], rfl⟩, ?_, ?_⟩
  · rw [frameOf_length, List.length_set]
    exact hlen
  · intro a ha
    exact hpatched a (by rwa [← hlen])

/-- 40_lrc.md R121: LRC_STORE over the whole frame held stores the checksum the frame has, and a greater length stores
nothing of it. -/
theorem lrcStoreRun_frameValid {s : State} {n : Nat} (hs : SnapshotFrameValid s) (hn : s.snapLen ≤ n) (h1 : 1 ≤ n) :
    SnapshotFrameValid (lrcStoreRun .snap n s) := by
  intro hvalid
  rw [lrcStoreRun_snapValid] at hvalid
  obtain ⟨_, ⟨p, hp, rfl⟩, hlen, hread⟩ := hs hvalid
  refine ⟨frameOf p, ⟨p, hp, rfl⟩, by rwa [lrcStoreRun_snapLen], ?_⟩
  intro a ha
  rw [lrcStoreRun_snapLen] at ha
  obtain ⟨hstored, hnotStored⟩ := heldByte_lrcStoreRun s .snap n a
  by_cases hslot : Storable s .snap (n - 1)
  · have hnlen : n = p.length + 4 := by
      have hin : n - 1 < s.snapLen := hslot.2
      rw [frameOf_length] at hlen
      omega
    have hview : bufView s .snap n = frameOf p :=
      memView_eq (by rw [frameOf_length, hnlen]) (fun i hi => hread i (by rw [hlen, frameOf_length]; omega))
    have hafter : memRead (lrcStoreRun .snap n s).snap a =
        if a = n - 1 then some (lrcSum (bufView s .snap n) n) else memRead s.snap a := hstored hslot
    rw [hafter]
    split
    · rename_i hlast
      rw [hview, hlast, hnlen, lrcSum_of_body (take_frameOf p)]
      exact (frameOf_getElem?_last p).symm
    · exact hread a ha
  · exact (hnotStored hslot).trans (hread a ha)

/-- Settles O51: each writer of the snapshot keeps it a valid frame; LRC_STORE by the premise on its slot. -/
theorem snapshotStaysValidFrame : Obligations.SnapshotStaysValidFrame := by
  intro i s t hstore hs hexec
  have hbegin : SnapshotFrameValid (beginOp s) := hs
  rcases (exec_runsTo hexec).snapshot with ⟨-, hsame⟩ | ⟨-, off, val, -, hlow, hhigh, hsame⟩ | ⟨n, rfl, hn, hsame⟩ | hsame
  · exact hsame.frameValid (pollBody_frameValid hbegin)
  · exact hsame.frameValid (patchSnapshot_frameValid val (pollBody_frameValid hbegin) hlow hhigh)
  · exact hsame.frameValid (lrcStoreRun_frameValid hbegin (hstore n rfl) hn)
  · exact hsame.frameValid hs

/-! ## The machine's invariant

`Inv` is kept part by part: the snapshot, the staging buffer, the temperature buffer, and the clock with the queue. -/

/-- What `Inv` says of the snapshot. -/
structure SnapshotInv (s : State) : Prop where
  form : Memory.wf s.snap = true
  size : Below s.snap s.cfg.bufCap
  ends : Below s.snap (if s.snapValid then s.snapLen else 0)
  held : s.snapValid = true → 4 ≤ s.snapLen ∧ s.snapLen ≤ s.cfg.bufCap ∧ Holds s.snap s.snapLen

/-- A buffer has its canonical form and holds nothing beyond its size. -/
structure BufferInv (m : Memory) (size : Nat) : Prop where
  form : Memory.wf m = true
  size : Below m size

theorem SameSnapshot.inv {s t : State} (h : SameSnapshot s t) (hcfg : t.cfg = s.cfg) (hs : SnapshotInv s) :
    SnapshotInv t := by
  obtain ⟨hform, hsize, hends, hheld⟩ := hs
  exact ⟨by rwa [h.snap], by rwa [h.snap, hcfg], by rwa [h.snap, h.snapLen, h.snapValid],
    by rwa [h.snap, h.snapLen, h.snapValid, hcfg]⟩

/-- A byte written below the end keeps a memory below it. -/
theorem below_memWrite {m : Memory} {n a : Nat} {v : Byte} (h : Below m n) (ha : a < n) : Below (memWrite m a v) n := by
  intro b hb
  rw [memRead_memWrite, if_neg (by omega)]
  exact h b hb

/-- A written byte takes no value away. -/
theorem holds_memWrite {m : Memory} {n a : Nat} {v : Byte} (h : Holds m n) : Holds (memWrite m a v) n := by
  intro b hb
  rw [memRead_memWrite]
  split
  · rfl
  · exact h b hb

/-- A byte written inside the frame held keeps the snapshot's part of the invariant. -/
theorem SnapshotInv.write {s : State} (h : SnapshotInv s) (hv : s.snapValid = true) {a : Nat} (ha : a < s.snapLen)
    (v : Byte) : SnapshotInv { s with snap := memWrite s.snap a v } := by
  obtain ⟨hform, hsize, hends, hheld⟩ := h
  obtain ⟨h4, hcap, hholds⟩ := hheld hv
  rw [if_pos hv] at hends
  have hends' : Below (memWrite s.snap a v) (if s.snapValid then s.snapLen else 0) := by
    rw [if_pos hv]
    exact below_memWrite hends ha
  exact ⟨memWrite_wf hform a v, below_memWrite hsize (Nat.lt_of_lt_of_le ha hcap), hends',
    fun _ => ⟨h4, hcap, holds_memWrite hholds⟩⟩

/-- A snapshot that is a frame of at most BUF_CAP bytes has the snapshot's part of the invariant. -/
theorem snapshotInv_of_snapshotIs {s : State} {p : List Byte} (hform : Memory.wf s.snap = true)
    (hcap : p.length + 4 ≤ s.cfg.bufCap) (his : SnapshotIs s (frameOf p)) : SnapshotInv s := by
  obtain ⟨hvalid, hlen, hread⟩ := his
  have hends : Below s.snap (p.length + 4) := fun a ha => by
    rw [hread, List.getElem?_eq_none (by rwa [frameOf_length])]
  rw [frameOf_length] at hlen
  refine ⟨hform, fun a ha => hends a (by omega), by rwa [if_pos hvalid, hlen], fun _ => ⟨by omega, by omega, ?_⟩⟩
  intro a ha
  rw [hread, List.getElem?_eq_getElem (by rw [frameOf_length]; omega)]
  rfl

theorem pollBody_snapshotInv {s : State} (hs : SnapshotInv s) (hstage : Memory.wf s.stage = true) :
    SnapshotInv (pollBody s).2 := by
  rcases pollBody_snapshot s with ⟨-, hsame⟩ | ⟨-, p, -, hcap, his, hform⟩
  · exact hsame.inv (pollBody_cfg s) hs
  · exact snapshotInv_of_snapshotIs (hform hstage) (by rwa [pollBody_cfg]) his

theorem patchSnapshot_snapshotInv {s : State} {off : Nat} (val : Byte) (hs : SnapshotInv s) (hv : s.snapValid = true)
    (hhigh : off + 2 ≤ s.snapLen) : SnapshotInv (patchSnapshot off val s) := by
  obtain ⟨sum, hsnap⟩ := patchSnapshot_snap (s := s) off val hv (by omega)
  have hslot : s.snapLen - 1 < s.snapLen := by omega
  have hfirst := hs.write hv (a := off) (by omega) (registerValue s.cfg off val)
  have hboth := hfirst.write hv hslot sum
  have hsame : SameSnapshot { s with snap := memWrite (memWrite s.snap off (registerValue s.cfg off val)) (s.snapLen - 1) sum }
      (patchSnapshot off val s) := ⟨hsnap, rfl, rfl⟩
  exact hsame.inv rfl hboth

theorem lrcStoreRun_snapshotInv {s : State} (n : Nat) (hs : SnapshotInv s) : SnapshotInv (lrcStoreRun .snap n s) := by
  obtain ⟨sum, hsnap⟩ := lrcStoreRun_snap n s
  rw [inSnapshot_eq] at hsnap
  by_cases hin : s.snapValid = true ∧ n - 1 < s.snapLen
  · rw [decide_eq_true hin, if_pos rfl] at hsnap
    have hsame : SameSnapshot { s with snap := memWrite s.snap (n - 1) sum } (lrcStoreRun .snap n s) := ⟨hsnap, rfl, rfl⟩
    exact hsame.inv rfl (hs.write hin.1 hin.2 sum)
  · rw [decide_eq_false hin] at hsnap
    exact SameSnapshot.inv ⟨hsnap, rfl, rfl⟩ rfl hs

theorem RunsTo.snapshotInv {s t : State} {i : Instr} (h : RunsTo s i t) (hs : SnapshotInv s)
    (hstage : Memory.wf s.stage = true) : SnapshotInv t := by
  have hpoll : SnapshotInv (pollBody (beginOp s)).2 := pollBody_snapshotInv (s := beginOp s) ⟨hs.1, hs.2, hs.3, hs.4⟩ hstage
  have hcfg := h.cfg
  rcases h.snapshot with ⟨-, hsame⟩ | ⟨-, off, val, hvalid, -, hhigh, hsame⟩ | ⟨n, -, -, hsame⟩ | hsame
  · exact hsame.inv (by simp [hcfg]) hpoll
  · exact hsame.inv (by simp [hcfg]) (patchSnapshot_snapshotInv val hpoll hvalid hhigh)
  · exact hsame.inv (by simp [hcfg]) (lrcStoreRun_snapshotInv (s := beginOp s) n ⟨hs.1, hs.2, hs.3, hs.4⟩)
  · exact hsame.inv hcfg hs

/-- 10_state.md R25: a poll stages inside the buffer, and LRC_STORE writes inside it; nothing else writes it. -/
theorem RunsTo.stageInv {s t : State} {i : Instr} (h : RunsTo s i t) (hs : BufferInv s.stage s.cfg.bufCap)
    (h32 : 32 ≤ s.cfg.bufCap) : BufferInv t.stage s.cfg.bufCap := by
  have hpoll : BufferInv (pollBody (beginOp s)).2.stage s.cfg.bufCap :=
    ⟨(pollBody_end (beginOp s)).stageForm hs.form, (pollBody_end (beginOp s)).stageSize h32 hs.size⟩
  cases h with
  | poll => exact hpoll
  | field f => rwa [deliver_stage, readBody_stage]
  | write off val =>
    rw [deliver_stage]
    rcases writeBody_cases off val (beginOp s) with ⟨-, h⟩ | ⟨-, -, h⟩ | ⟨-, -, h⟩ <;> rw [h]
    · exact hpoll
    · exact hpoll
    · rwa [sendSnapshot_stage, patchSnapshot_stage]
  | lrcStore r b n h1 hn =>
    cases b with
    | stage =>
      have hslot : n - 1 < s.cfg.bufCap := Nat.lt_of_lt_of_le (Nat.sub_lt h1 Nat.one_pos) hn
      exact ⟨memWrite_wf hs.form _ _, below_memWrite hs.size hslot⟩
    | snap | given => exact hs
  | _ => simpa using hs

/-- 10_state.md R27, 43_sequencer.md R190: a probe takes ten bytes into `tmp`, or none. -/
theorem tempBody_tmp (s : State) :
    (tempBody s).2.tmp = s.tmp ∨ ∃ bs : List Byte, bs.length = tempLen ∧ (tempBody s).2.tmp = memStore s.tmp 0 bs := by
  rcases tempBody_cases s with ⟨-, h⟩ | ⟨r, hr, -, hlen, ⟨-, h⟩ | ⟨-, h⟩⟩ <;> rw [h]
  · exact .inl (by simp)
  · exact .inr ⟨r.rxq.take tempLen, by rw [List.length_take]; exact Nat.min_eq_left hlen, by simp [hr]⟩
  · exact .inr ⟨r.rxq.take tempLen, by rw [List.length_take]; exact Nat.min_eq_left hlen, by simp [hr]⟩

theorem RunsTo.tmpInv {s t : State} {i : Instr} (h : RunsTo s i t) (hs : BufferInv s.tmp tempLen) :
    BufferInv t.tmp tempLen := by
  cases h with
  | temp =>
    rw [deliver_tmp]
    rcases tempBody_tmp (beginOp s) with h | ⟨bs, hlen, h⟩ <;> rw [h]
    · exact hs
    · exact ⟨memStore_wf hs.form 0 bs, below_memStore hs.size (by omega)⟩
  | _ => simpa using hs

/-- 70_reset_and_hazards.md R286: an instruction leaves an idle block ready, the events of the line included. -/
theorem RunsTo.ready {s t : State} {i : Instr} (h : RunsTo s i t) (hbusy : s.busy = false) (hseq : s.seq = .idle) :
    t.busy = false ∧ t.seq = .idle := by
  cases h <;> simp [hbusy, hseq]

/-- Every instruction keeps the invariant. -/
theorem RunsTo.inv {s t : State} {i : Instr} (h : RunsTo s i t) (hs : Inv s) : Inv t := by
  have h32 : 32 ≤ s.cfg.bufCap := by
    have hlegal := hs.cfgLegal
    simp only [Config.wf, Bool.and_eq_true, decide_eq_true_eq] at hlegal
    exact hlegal.1.1.1.1.1.1.1.1.1.1.2
  have hsnap := h.snapshotInv ⟨hs.snapForm, hs.snapSize, hs.snapEnd, hs.snapshotHeld⟩ hs.stageForm
  have hstage := h.stageInv ⟨hs.stageForm, hs.stageSize⟩ h32
  have htmp := h.tmpInv ⟨hs.tmpForm, hs.tmpSize⟩
  have hready := h.ready hs.notBusy hs.seqIdle
  have hcfg := h.cfg
  exact
    { cfgLegal := by rw [hcfg]; exact hs.cfgLegal
      snapForm := hsnap.form
      stageForm := hstage.form
      tmpForm := htmp.form
      snapSize := hsnap.size
      stageSize := by rw [hcfg]; exact hstage.size
      tmpSize := htmp.size
      rxqSize := by rw [hcfg]; exact h.linkStep.queue hs.rxqSize
      snapEnd := hsnap.ends
      snapshotHeld := hsnap.held
      requestPast := h.linkStep.request hs.requestPast
      notBusy := hready.1
      seqIdle := hready.2 }

/-- The idle block keeps the invariant: only the queue grows, within its depth. -/
theorem idle_inv {s : State} (hs : Inv s) : Inv (idle s) := by
  have hsnap : SnapshotInv (idle s) := SameSnapshot.inv ⟨by simp, by simp, by simp⟩ (by simp)
    ⟨hs.snapForm, hs.snapSize, hs.snapEnd, hs.snapshotHeld⟩
  exact
    { cfgLegal := by rw [idle_cfg]; exact hs.cfgLegal
      snapForm := hsnap.form
      stageForm := by rw [idle_stage]; exact hs.stageForm
      tmpForm := by rw [idle_tmp]; exact hs.tmpForm
      snapSize := hsnap.size
      stageSize := by rw [idle_stage, idle_cfg]; exact hs.stageSize
      tmpSize := by rw [idle_tmp]; exact hs.tmpSize
      rxqSize := by rw [idle_cfg]; exact idle_rxq_le hs.rxqSize
      snapEnd := hsnap.ends
      snapshotHeld := hsnap.held
      requestPast := by rw [idle_t0, idle_now]; exact hs.requestPast
      notBusy := by rw [idle_busy]; exact hs.notBusy
      seqIdle := by rw [idle_seq]; exact hs.seqIdle }

/-- Taking a message off the port touches nothing the invariant speaks of. -/
theorem inv_setPort {s : State} (hs : Inv s) (port : List Message) : Inv { s with port := port } := by
  obtain ⟨h1, h2, h3, h4, h5, h6, h7, h8, h9, h10, h11, h12, h13⟩ := hs
  exact ⟨h1, h2, h3, h4, h5, h6, h7, h8, h9, h10, h11, h12, h13⟩

/-- Settles O49: a step is the idle block's move or a decoded instruction, and both keep the invariant. -/
theorem invKept : Obligations.InvKept := by
  intro s t hs hstep
  rcases step_next hstep with ⟨-, rfl⟩ | ⟨m, rest, i, -, -, hruns⟩
  · exact idle_inv hs
  · exact hruns.inv (inv_setPort hs rest)

/-- Settles O50: after reset the buffers and the queue are empty, no frame is held and both clocks stand at 0. -/
theorem invAtReset : Obligations.InvAtReset := by
  have hreset : ∀ (c : Config) (env : List EnvMove) (port : List Message), c.wf = true →
      Inv (State.resetWith c env port) := by
    intro c env port hc
    exact
      { cfgLegal := hc
        snapForm := rfl
        stageForm := rfl
        tmpForm := rfl
        snapSize := fun _ _ => rfl
        stageSize := fun _ _ => rfl
        tmpSize := fun _ _ => rfl
        rxqSize := Nat.zero_le _
        snapEnd := fun _ _ => rfl
        snapshotHeld := nofun
        requestPast := le_refl _
        notBusy := rfl
        seqIdle := rfl }
  exact ⟨hreset Config.ex1 [] [] (by decide), hreset⟩

end Sys2Proof.Machine

namespace Sys2Proof.Machine

open Sys2Proof.Safety

/-! ## Words and layouts (30_encoding.md R70, R98 to R115) -/

/-- Settles O4: the decoder evaluated on each word. -/
theorem specWordsDecode : Obligations.SpecWordsDecode :=
  ⟨rfl, rfl, rfl, rfl, rfl, rfl, rfl, rfl, rfl, rfl⟩

/-- The bytes of a sequence, as the values a buffer reference to it holds. -/
theorem heldOn_given {s : State} {bs : List Byte} {lo hi : Nat} (h : hi < bs.length) :
    HeldOn s (.given bs) lo hi (byteAt bs) := by
  intro i _ hi'
  have hlt : i < bs.length := by omega
  show bs[i]? = some (byteAt bs i)
  rw [byteAt, List.getD_eq_getElem?_getD, List.getElem?_eq_getElem hlt, Option.getD_some]

/-- 30_encoding.md R98, R115: the checksum brings the sum of a frame's bytes from 1 on to 0 modulo 256. -/
theorem frameOf_sum_zero (p : List Byte) : sumOn 1 (p.length + 3) (byteAt (frameOf p)) % 256 = 0 := by
  have hcovered : ∀ i, 1 ≤ i → i ≤ p.length + 4 - 2 → (frameOf p)[i]? = some (byteAt (frameOf p) i) :=
    fun i _ hi => heldOn_given (s := State.reset) (lo := 0) (hi := i) (by rw [frameOf_length]; omega) i (Nat.zero_le _) le_rfl
  have hlast : byteAt (frameOf p) (p.length + 4 - 1) = frameChecksum p := byteAt_eq (frameOf_getElem?_last p)
  refine (closedForm_iff_sum_zero (n := p.length + 4) (by omega)).1 ?_
  rw [hlast, ← lrcSum_closed hcovered, lrcSum_of_body (take_frameOf p)]

/-- Settles O5: the envelope and the payload byte by byte, and the checksum by the closed form of the LRC. -/
theorem statusFrameLayout : Obligations.StatusFrameLayout := by
  intro p hp
  refine ⟨frameOf_length p, frameOf_getElem?_zero p, frameOf_getElem?_one p, ⟨_, frameOf_getElem?_two p, ?_⟩,
    fun k hk => frameOf_getElem?_payload p hk, frameOf_sum_zero p⟩
  rw [BitVec.toNat_ofNat]
  exact Nat.mod_eq_of_lt (by omega)

/-! ## The LRC unit (40_lrc.md) -/

/-- 40_lrc.md R124: for n of at most 2 nothing is covered. -/
theorem lrcSum_short (buf : List Byte) {n : Nat} (hn : n ≤ 2) : lrcSum buf n = 0 := by
  have hrange : lrcRange buf n = [] := by
    rw [lrcRange, List.drop_eq_nil_iff, List.length_take]
    omega
  rw [lrcSum, hrange, List.foldl_nil]

/-- 40_lrc.md R124: with n = 0 there is no checksum slot to write. -/
theorem execLrcStore_zero {s : State} (b : BufRef) (hidle : s.busy = false) :
    execLrcStore b 0 s = .refused .noChecksumSlot := by
  rw [execLrcStore, hostOp_idle hidle]
  exact if_pos rfl

/-- 40_lrc.md R124: with n = 0 there is no checksum slot to compare. -/
theorem execLrcCheck_zero {s : State} (b : BufRef) (hidle : s.busy = false) :
    execLrcCheck b 0 s = .refused .noChecksumSlot := by
  rw [execLrcCheck, hostOp_idle hidle]
  exact if_pos rfl

/-- Settles O8: the empty range, and the guards of the two operations with a slot. -/
theorem lrcShortLengths : Obligations.LrcShortLengths := by
  refine ⟨fun s b n hidle hn hsize => ?_, fun s b hidle => ⟨execLrcStore_zero b hidle, execLrcCheck_zero b hidle⟩⟩
  refine ⟨_, execLrc_idle hsize hidle, ?_, ?_⟩
  · rw [deliver_result, lrcSum_short _ hn]
  · rw [deliver_acc, lrcRun_acc, lrcSum_short _ hn]

/-- Settles O13: every operation with a length or an offset beyond the buffer stops at the same guard. -/
theorem lengthBeyondBufferFaults : Obligations.LengthBeyondBufferFaults := by
  refine ⟨fun s b n hidle hbeyond => ?_, fun s b hidle hshort => ?_⟩
  · have hn : n ≠ 0 := by omega
    refine ⟨?_, ?_, ?_, ?_⟩ <;> rw [exec]
    · rw [execLrc, hostOp_idle hidle]
      exact if_pos hbeyond
    · rw [execLrcStore, hostOp_idle hidle]
      exact (if_neg hn).trans (if_pos hbeyond)
    · rw [execLrcCheck, hostOp_idle hidle]
      exact (if_neg hn).trans (if_pos hbeyond)
    · rw [execValidateStatus, hostOp_idle hidle]
      exact (if_neg hn).trans (if_pos hbeyond)
  · rw [exec, execValidateTemp, hostOp_idle hidle]
    exact if_pos hshort

@[simp] theorem lrcStoreRun_acc (b : BufRef) (n : Nat) (s : State) :
    (lrcStoreRun b n s).acc = lrcSum (bufView s b n) n := by
  rw [lrcStoreRun, bufWrite_acc, lrcRun_acc]

/-- 40_lrc.md R121, the frame of LRC_STORE: the buffer it names, the accumulator and the count of free values. -/
theorem onlyChanges_lrcStoreRun (b : BufRef) (n : Nat) (s : State) :
    OnlyChanges (bufPart b ++ [.acc, .draws]) s (lrcStoreRun b n s) := by
  intro p hp
  cases b with
  | snap =>
    cases p with
    | snap | acc | draws => simp [bufPart] at hp
    | stage => exact sameBytes_refl _
    | _ => simp [samePart]
  | stage =>
    cases p with
    | stage | acc | draws => simp [bufPart] at hp
    | snap => exact sameBytes_refl _
    | _ => simp [samePart]
  | given bs =>
    cases p with
    | acc | draws => simp [bufPart] at hp
    | snap | stage => exact sameBytes_refl _
    | _ => simp [samePart]

/-- 40_lrc.md R121: LRC_STORE leaves every byte of its buffer but the slot. -/
theorem heldByte_lrcStoreRun_of_ne {s : State} {b : BufRef} {n a : Nat} (ha : a ≠ n - 1) :
    heldByte (lrcStoreRun b n s) b a = heldByte s b a := by
  obtain ⟨hstored, hnotStored⟩ := heldByte_lrcStoreRun s b n a
  by_cases hslot : Storable s b (n - 1)
  · rw [hstored hslot, if_neg ha]
  · exact hnotStored hslot

/-- 40_lrc.md R121: a slot that can hold a value holds the accumulator after LRC_STORE. -/
theorem heldByte_lrcStoreRun_slot {s : State} {b : BufRef} {n : Nat} (hslot : Storable s b (n - 1)) :
    heldByte (lrcStoreRun b n s) b (n - 1) = some (lrcStoreRun b n s).acc := by
  rw [(heldByte_lrcStoreRun s b n (n - 1)).1 hslot, if_pos rfl, lrcStoreRun_acc]

/-- Settles O9: the frame of the store, and what it does to each byte of its buffer. -/
theorem lrcStoreWritesSlot : Obligations.LrcStoreWritesSlot := by
  intro s b n hidle h1 hsize
  have hframe := onlyChanges_deliver (storeResult b n (lrcSum (bufView (beginOp s) b n) n)) hidle
    (onlyChanges_lrcStoreRun b n (beginOp s))
  refine ⟨_, execLrcStore_idle h1 hsize hidle, onlyChanges_mono hframe ?_, ?_, ?_, ?_, ?_, ?_, ?_⟩
  · intro p hp
    simp only [List.mem_append, List.mem_cons, List.not_mem_nil] at hp ⊢
    tauto
  · intro hblock
    cases b with
    | snap | stage => rfl
    | given bs => exact absurd rfl hblock
  · intro a ha
    rw [heldByte_deliver, heldByte_lrcStoreRun_of_ne ha, heldByte_beginOp]
  · intro hslot
    rw [heldByte_deliver, deliver_acc]
    exact heldByte_lrcStoreRun_slot (by rwa [storable_beginOp])
  · intro hslot
    rw [heldByte_deliver, (heldByte_lrcStoreRun _ b n _).2 (by rwa [storable_beginOp]), heldByte_beginOp]
  · rintro bs rfl
    rw [deliver_result, deliver_acc, lrcStoreRun_acc]
    rfl
  · intro f hf
    rw [deliver_acc, lrcStoreRun_acc]
    exact lrcSum_held (heldOn_beginOp hf)

/-- 40_lrc.md R121, R122: a buffer whose slot holds the LRC of what it covers passes the check. -/
theorem lrcHolds_of_slot {s : State} {b : BufRef} {n : Nat} {f : Nat → Byte} {v : Byte} (hn : 1 ≤ n)
    (hcovered : HeldOn s b 1 (n - 2) f) (hslot : heldByte s b (n - 1) = some v) (hv : v.toNat = lrcClosedForm n f) :
    lrcHolds (bufView s b n) n = true := by
  rw [lrcHolds, byteAt_eq (bufView_held (by omega) hslot), beq_iff_eq, ← BitVec.toNat_inj, hv, lrcSum_held hcovered]

/-- Settles O10: the store leaves the covered bytes and puts their LRC into the slot, which is what the check compares. -/
theorem lrcStoreThenCheck : Obligations.LrcStoreThenCheck := by
  intro s b n f hidle h1 hsize hslot hcovered
  obtain ⟨t, hexec, hframe, -, hother, hstored, -, -, hsum⟩ := lrcStoreWritesSlot s b n hidle h1 hsize
  have hbusy : t.busy = false := (hframe .busy (by cases b <;> simp [bufPart])).trans hidle
  have hcfg : t.cfg = s.cfg := hframe .cfg (by cases b <;> simp [bufPart])
  have hcovered' : HeldOn t b 1 (n - 2) f := fun i hlo hhi => by rw [hother i (by omega), hcovered i hlo hhi]
  have hholds : lrcHolds (bufView (beginOp t) b n) n = true :=
    lrcHolds_of_slot h1 (heldOn_beginOp hcovered') (by rw [heldByte_beginOp, hstored hslot]) (hsum f hcovered)
  refine ⟨t, _, hexec, execLrcCheck_idle h1 (by rwa [hcfg]) hbusy, ?_⟩
  rw [deliver_result, hholds]

/-- Settles O11: the comparison of the last byte with the closed form, which for n of at least 2 is the sum to zero. -/
theorem lrcCheckIsSumToZero : Obligations.LrcCheckIsSumToZero := by
  intro s b n hidle h1 hsize
  refine ⟨_, execLrcCheck_idle h1 hsize hidle, onlyChanges_deliver_lrcRun _ b n hidle, ?_⟩
  intro f hf
  have hcovered : HeldOn (beginOp s) b 1 (n - 2) f :=
    heldOn_beginOp fun i hlo hhi => hf i (by omega) (by omega)
  have hlast : heldByte (beginOp s) b (n - 1) = some (f (n - 1)) := by
    rw [heldByte_beginOp]
    exact hf (n - 1) (by omega) le_rfl
  rw [deliver_result, lrcHolds_held h1 hcovered hlast]
  exact ⟨rfl, fun h2 => by rw [decide_eq_decide.2 (closedForm_iff_sum_zero h2)]⟩

/-- 40_lrc.md R123 on a given sequence: the check is the sum of its bytes at 1 to n−1 being 0 modulo 256. -/
theorem exec_lrcCheck_given {s : State} {bs : List Byte} {n : Nat} (hidle : s.busy = false) (hn : n ≤ bs.length)
    (h2 : 2 ≤ n) : ∃ t, exec (.lrcCheck (.given bs) n) s = .next t ∧
      t.result = .flag (decide (sumOn 1 (n - 1) (byteAt bs) % 256 = 0)) := by
  obtain ⟨t, hexec, -, hcheck⟩ := lrcCheckIsSumToZero s (.given bs) n hidle (by omega) hn
  exact ⟨t, hexec, (hcheck _ (heldOn_given (by omega))).2 h2⟩

theorem byteAt_set (bs : List Byte) (i j : Nat) (v : Byte) (hi : i < bs.length) :
    byteAt (bs.set i v) j = if i = j then v else byteAt bs j := by
  simp only [byteAt, List.getD_eq_getElem?_getD, List.getElem?_set, hi, if_true]
  split <;> rfl

/-- 40_lrc.md R125: one summed byte exchanged moves the sum by the difference of the two bytes. -/
theorem sumOn_set {bs : List Byte} {i hi : Nat} (v : Byte) (h1 : 1 ≤ i) (h2 : i ≤ hi) (hlen : i < bs.length) :
    sumOn 1 hi (byteAt (bs.set i v)) + (byteAt bs i).toNat = sumOn 1 hi (byteAt bs) + v.toNat := by
  have hmem : i ∈ Finset.Icc 1 hi := Finset.mem_Icc.2 ⟨h1, h2⟩
  have hothers : ∑ j ∈ (Finset.Icc 1 hi).erase i, (byteAt (bs.set i v) j).toNat =
      ∑ j ∈ (Finset.Icc 1 hi).erase i, (byteAt bs j).toNat := by
    refine Finset.sum_congr rfl fun j hj => ?_
    rw [byteAt_set bs i j v hlen, if_neg (Ne.symm (Finset.ne_of_mem_erase hj))]
  have hat : byteAt (bs.set i v) i = v := by rw [byteAt_set bs i i v hlen, if_pos rfl]
  rw [sumOn, sumOn, ← Finset.add_sum_erase _ _ hmem, hothers, hat, ← Finset.add_sum_erase _ (fun j => (byteAt bs j).toNat) hmem]
  ring

/-- 40_lrc.md R125: byte 0 is no part of the sum. -/
theorem sumOn_set_zero (bs : List Byte) (hi : Nat) (v : Byte) (hlen : 0 < bs.length) :
    sumOn 1 hi (byteAt (bs.set 0 v)) = sumOn 1 hi (byteAt bs) := by
  refine Finset.sum_congr rfl fun j hj => ?_
  have hj1 := (Finset.mem_Icc.1 hj).1
  rw [byteAt_set bs 0 j v hlen, if_neg (by omega)]

/-- Settles O12: one exchanged byte moves the sum by less than 256 and not by 0; byte 0 is not summed; and 1, 2 and
2, 1 have the same sum. -/
theorem singleByteFlipDetected : Obligations.SingleByteFlipDetected := by
  refine ⟨?_, ?_, ?_⟩
  · intro s t bs n i v hidle hn h1 hi hdiffers hexec htrue
    obtain ⟨t', hexec', hresult⟩ := exec_lrcCheck_given hidle hn (by omega)
    obtain rfl : t = t' := Host.Outcome.next.inj (hexec.symm.trans hexec')
    have hzero : sumOn 1 (n - 1) (byteAt bs) % 256 = 0 := by
      rw [hresult] at htrue
      simpa using htrue
    have hsum := sumOn_set v h1 (show i ≤ n - 1 by omega) (show i < bs.length by omega)
    have hne : (byteAt bs i).toNat ≠ v.toNat := by
      intro he
      have hheld := heldOn_given (s := s) (bs := bs) (lo := 0) (show i < bs.length by omega) i (Nat.zero_le _) le_rfl
      rw [BitVec.toNat_inj.1 he] at hheld
      exact hdiffers hheld
    have hold := (byteAt bs i).isLt
    have hnew := v.isLt
    obtain ⟨u, hu, hflag⟩ := exec_lrcCheck_given (bs := bs.set i v) hidle (by rwa [List.length_set]) (show 2 ≤ n by omega)
    refine ⟨u, hu, ?_⟩
    rw [hflag, decide_eq_false (by omega)]
  · intro s bs n v hidle hn h2
    obtain ⟨t, ht, hresult⟩ := exec_lrcCheck_given hidle hn h2
    obtain ⟨u, hu, hresult'⟩ := exec_lrcCheck_given (bs := bs.set 0 v) hidle (by rwa [List.length_set]) h2
    exact ⟨t, u, ht, hu, by rw [hresult, hresult', sumOn_set_zero bs _ v (by omega)]⟩
  · obtain ⟨t, ht, hresult⟩ := exec_lrcCheck_given (s := State.reset) (bs := [0, 0, 0, 1, 2, 0xFD]) rfl le_rfl (by decide)
    obtain ⟨u, hu, hresult'⟩ := exec_lrcCheck_given (s := State.reset) (bs := [0, 0, 0, 2, 1, 0xFD]) rfl le_rfl (by decide)
    exact ⟨State.reset, t, u, [0, 0, 0, 1, 2, 0xFD], 2, 1, by decide, ht, hresult.trans (by decide), by decide, by decide, hu,
      hresult'.trans (by decide)⟩

/-! ## The frame codec (42_frame_codec.md) -/

/-- Settles O19: the three checks on the bytes the buffer holds, and no free value drawn where all of them are held. -/
theorem validateStatusIsConjunction : Obligations.ValidateStatusIsConjunction := by
  intro s b n hidle h4 hsize
  refine ⟨_, execValidateStatus_idle (by omega) hsize hidle, onlyChanges_deliver_lrcRun _ b n hidle, ?_⟩
  intro f hf
  have hheld : HeldOn (beginOp s) b 0 (n - 1) f := heldOn_beginOp hf
  have hbyte : ∀ i, i < n → byteAt (bufView (beginOp s) b n) i = f i := fun i hi =>
    byteAt_eq (bufView_held hi (hheld i (Nat.zero_le _) (by omega)))
  have hlrc := lrcHolds_held (show 1 ≤ n by omega) (fun i hlo hhi => hheld i (Nat.zero_le _) (by omega))
    (hheld (n - 1) (Nat.zero_le _) le_rfl)
  have hdraws : bufDraws (beginOp s) b n = 0 := bufDraws_held fun i hi => by
    rw [hheld i (Nat.zero_le _) (by omega), Option.isSome_some]
  constructor
  · rw [deliver_result, statusValid, hbyte 0 (by omega), hbyte 1 (by omega), hlrc]
    simp only [sof, modelStatus, beq_eq_decide, ← Bool.decide_and, and_assoc]
  · rw [deliver_draws, lrcRun_draws, hdraws]
    rfl

/-- Settles O20: byte 2 is what the validator views, and viewing only counts free values. -/
theorem validateTempIsSentinel : Obligations.ValidateTempIsSentinel := by
  intro s b hidle hsize
  have hframe : OnlyChanges [.draws] (beginOp s) (afterTempView b 3 (beginOp s)) := by
    intro p hp
    cases p with
    | draws => simp at hp
    | snap | stage | tmp => exact sameBytes_refl _
    | _ => rfl
  refine ⟨_, execValidateTemp_idle hsize hidle, onlyChanges_mono (onlyChanges_deliver _ hidle hframe) (by decide), ?_⟩
  intro v hv
  have hbyte : byteAt (tempView (beginOp s) b 3) 2 = v :=
    byteAt_eq (tempView_held (by decide) (by rwa [heldTemp_beginOp]))
  rw [deliver_result, tempValid, tempModelOff, hbyte, beq_eq_decide]
  rfl

/-- 42_frame_codec.md R155, R166: an output of the demultiplexer is the payload byte at its offset. -/
theorem demuxField_eq_payloadByte (s : State) (off : Nat) : demuxField s off = payloadByte s off := by
  rw [demuxField, payloadByte]
  refine if_congr ?_ rfl rfl
  omega

/-- Settles O21: every output is the field's payload byte, the six effects in their order. -/
theorem demuxPresentsFields : Obligations.DemuxPresentsFields := by
  intro s hidle
  refine ⟨fun hvalid => ?_, fun hinvalid => ?_⟩
  · have hfield := demuxField_eq_payloadByte s
    refine ⟨_, demuxOut s, execDemux_idle hvalid hidle, onlyChanges_deliver_beginOp _ hidle, rfl, hfield _, hfield _,
      hfield _, hfield _, hfield _, hfield _, ?_, ?_, hfield _, hfield _, hfield _, hfield _, hfield _, hfield _, hfield _,
      rfl, rfl, rfl, rfl⟩
    · rw [demuxOut, List.length_map, Vector.length_toList]
    · intro k
      rw [demuxOut, List.getElem?_map, List.getElem?_eq_getElem (by simp), Option.map_some, hfield, Vector.getElem_toList]
      rfl
  · rw [exec, execDemux, hostOp_idle hidle]
    exact if_neg (ne_true_of_eq_false hinvalid)

/-- Viewing a buffer of the block only counts free values. -/
theorem onlyChanges_afterView (b : BufRef) (n : Nat) (s : State) : OnlyChanges [.draws] s (afterView b n s) := by
  intro p hp
  cases p with
  | draws => simp at hp
  | snap | stage | tmp => exact sameBytes_refl _
  | _ => rfl

/-- Settles O22: the view of the frame held has its length and its bytes. -/
theorem snapshotReturnsFrame : Obligations.SnapshotReturnsFrame := by
  intro s hidle
  refine ⟨fun hvalid => ?_, fun hinvalid => ?_⟩
  · have hframe := onlyChanges_deliver (.bytes (memView s.snap s.snapLen s.draws)) hidle
      (onlyChanges_afterView .snap s.snapLen (beginOp s))
    refine ⟨_, _, execSnapshot_idle hvalid hidle, onlyChanges_mono hframe (by decide), rfl, memView_length _ _ _, ?_⟩
    intro a v ha hv
    exact bufView_held (s := s) (b := .snap) ha hv
  · rw [exec, execSnapshot, hostOp_idle hidle]
    exact if_neg (ne_true_of_eq_false hinvalid)

/-! ## The transport (41_transport.md) -/

/-- 41_transport.md R130, the frame of a flush: the queue, the clock, the schedule and the history. -/
theorem onlyChanges_flushRx (s : State) : OnlyChanges [.rxq, .now, .env, .hist] s (flushRx s) := by
  intro p hp
  cases p with
  | rxq | now | env | hist => simp at hp
  | _ => simp [samePart]

/-- Settles O14: the deadtime of the flush's wait, its one discard instant and its empty queue. -/
theorem flushDiscards : Obligations.FlushDiscards := by
  intro s hidle
  exact ⟨_, execFlush_idle hidle, onlyChanges_deliver _ hidle (onlyChanges_flushRx _), rfl, flushRx_now_le (beginOp s), rfl,
    flushRx_flushCount (beginOp s)⟩

/-- Settles O18: the wait that is answered in time (`awaitBytes_in_time`); what it has queued is a first part of what the
moves bring. -/
theorem awaitSeesTimelyBytes : Obligations.AwaitSeesTimelyBytes := by
  intro s n ms rest hidle henv hpast htime henough hroom
  have hall : (allBytes ms).take (s.cfg.rxDepth - s.rxq.length) = allBytes ms := List.take_of_length_le (by omega)
  obtain ⟨used, left, hms, hok, hrxq, -, hnow⟩ := awaitBytes_in_time (n := n) (s := beginOp s) (ms := ms) (rest := rest)
    henv htime hpast (by
      show n ≤ (s.rxq ++ (allBytes ms).take (s.cfg.rxDepth - s.rxq.length)).length
      rwa [hall, List.length_append])
  have hbytes : allBytes ms = allBytes used ++ allBytes left := by rw [hms, allBytes_append]
  have hticks : totalTicks ms = totalTicks used + totalTicks left := by rw [hms, totalTicks_append]
  have hlen : (allBytes ms).length = (allBytes used).length + (allBytes left).length := by
    rw [hbytes, List.length_append]
  refine ⟨_, execAwait_idle n hidle, onlyChanges_deliver _ hidle (onlyChanges_awaitBytes n _), ?_, ?_,
    (allBytes used).length, ?_⟩
  · rw [deliver_result, hok]
  · rw [deliver_now, hnow, beginOp_now]
    omega
  · rw [deliver_rxq, hrxq, beginOp_rxq, beginOp_cfg, hbytes, List.take_left, List.take_of_length_le (by omega)]

/-- Settles O40: one write of the four bytes and the closing flush, in the queue, the clock and the history. -/
theorem selectInputSendsFourBytes : Obligations.SelectInputSendsFourBytes := by
  intro i s inp e op hi he hidle
  have hexec := (exec_of_inputSelection hi).trans (selectRun_idle inp he hidle)
  generalize hbs : selectSequence s.cfg inp op = bs at hexec
  have hframe : OnlyChanges [.rxq, .txs, .now, .env, .hist] (beginOp s) (flushRx (transmit bs (beginOp s))) := by
    intro p hp
    cases p with
    | rxq | txs | now | env | hist => simp at hp
    | _ => simp [samePart]
  have hfirst := flushRx_now_le (beginOp s)
  have hsecond := flushRx_now_le (transmit bs (beginOp s))
  rw [transmit_now, transmit_cfg] at hsecond
  simp only [beginOp_now, beginOp_cfg] at hfirst hsecond
  refine ⟨_, hexec, onlyChanges_deliver _ hidle hframe, ?_, rfl, rfl, ?_, ?_, (transmit bs (beginOp s)).hist, ?_,
    flushRx_hist _⟩
  · rw [deliver_txs, flushRx_txs, transmit_txs, ← hbs]
    rfl
  · rw [deliver_now]
    omega
  · rw [deliver_hist, flushRx_flushCount, transmit_flushCount]
    rfl
  · rw [← selectSequence, hbs]
    exact transmit_hist bs (beginOp s)

/-! ## The line (30_encoding.md R70 to R73, 41_transport.md R136, R137) -/

/-- 41_transport.md R136: arrivals touch the queue and the history. -/
theorem onlyChanges_arriveAll (bs : List Byte) (s : State) : OnlyChanges [.rxq, .hist] s (arriveAll bs s) := by
  intro p hp
  cases p with
  | rxq | hist => simp at hp
  | _ => simp [samePart]

/-- Settles O44: an inbound message is the arrival of its bytes. -/
theorem inboundMessageArrives : Obligations.InboundMessageArrives := by
  intro i s bs hi
  exact ⟨_, exec_of_inboundBytes hi, onlyChanges_arriveAll bs s, arriveAll_rxq bs s⟩

/-- 30_encoding.md R71: the parity bit of a character is the right one exactly when it makes the count of ones odd. -/
theorem characterIntact_iff (d : Byte) (parity stop : Bool) :
    characterIntact d parity stop = true ↔ ((dataBitsOf d).count true + parity.toNat) % 2 = 1 ∧ stop = true := by
  have hodd := count_dataBitsOf_add_oddParity d
  rw [characterIntact, Bool.and_eq_true, beq_iff_eq]
  refine and_congr_left fun _ => ⟨fun h => h ▸ hodd, fun h => ?_⟩
  have hparity := Bool.toNat_le parity
  have hright := Bool.toNat_le (oddParity d)
  have heq : parity.toNat = (oddParity d).toNat := by omega
  revert heq
  cases parity <;> cases oddParity d <;> simp

/-- Settles O45: the character is intact exactly when the count is odd and the stop bit is there, and each direction acts
on that. -/
theorem characterCrosses : Obligations.CharacterCrosses := by
  intro s d parity stop
  rw [← characterIntact_iff]
  refine ⟨fun h => ?_, fun hdamaged hdrop => ?_, fun hintact => ?_⟩
  · have hdelivers : (characterIntact d parity stop || decide (s.cfg.rxErrPolicy = .deliver)) = true := by
      rwa [Bool.or_eq_true, decide_eq_true_eq]
    refine ⟨arrive d s, if_pos hdelivers, onlyChanges_arriveAll [d] s, ?_⟩
    rw [arrive]
    split <;> rfl
  · refine if_neg ?_
    rw [Bool.or_eq_true, decide_eq_true_eq, hdrop]
    simpa using hdamaged
  · refine ⟨tx [d] s, if_pos hintact, ?_, rfl⟩
    intro p hp
    cases p with
    | txs | hist => simp at hp
    | snap | stage | tmp => exact sameBytes_refl _
    | _ => rfl

/-! ## Refusals -/

/-- 30_encoding.md R90: an input selection with an effect outside EFFECTS is refused. -/
theorem selectRun_illFormed {s : State} {e : Effect} (inp : Input) (he : effectOpcode s.cfg e = none)
    (hidle : s.busy = false) : selectRun inp e s = .refused .illFormed := by
  rw [selectRun, hostOp_idle hidle, beginOp_cfg, he]

/-- Settles O46: each operand at the guard of its instruction. -/
theorem illFormedOperandsRefused : Obligations.IllFormedOperandsRefused := by
  refine ⟨fun s e inp he hidle => ?_, fun s p hp hidle => ?_, fun s d parity stop hdamaged => ?_⟩
  · refine ⟨selectRun_illFormed inp he hidle, selectRun_illFormed inp he hidle, ?_⟩
    rintro k rfl
    show execSelEffectE k s = _
    rw [execSelEffectE, he]
  · have hlong : ¬p.length ≤ 255 := Nat.not_le.2 hp
    refine ⟨if_neg hlong, ?_⟩
    rw [exec, execRegisterWriteFrame, hostOp_idle hidle]
    exact if_neg hlong
  · exact if_neg (by rwa [characterIntact_iff])

theorem pollRun_busy {s : State} (h : s.busy = true) : pollRun s = .refused .hostBusy := hostOp_busy h _

theorem tempRun_busy {s : State} (h : s.busy = true) : tempRun s = .refused .hostBusy := hostOp_busy h _

theorem sendRun_busy {s : State} (op : Byte) (h : s.busy = true) : sendRun op s = .refused .hostBusy := hostOp_busy h _

theorem writeRun_busy {s : State} (off : Nat) (val : Byte) (h : s.busy = true) :
    writeRun off val s = .refused .hostBusy := hostOp_busy h _

theorem readRun_busy {s : State} (f : Field) (h : s.busy = true) : readRun f s = .refused .hostBusy := hostOp_busy h _

theorem selectRun_busy {s : State} (inp : Input) (e : Effect) (h : s.busy = true) :
    selectRun inp e s = .refused .hostBusy := hostOp_busy h _

theorem volumeRun_busy {s : State} (ch : VolChannel) (use : VolUse) (h : s.busy = true) :
    volumeRun ch use s = .refused .hostBusy := by
  cases use with
  | read => exact readRun_busy _ h
  | write val => exact writeRun_busy _ val h

/-- Settles O43: every operation of the host begins with the same guard; a further effect that is well formed has an
opcode to send. -/
theorem busyBlockRefuses : Obligations.BusyBlockRefuses := by
  intro i s hwf hhost hbusy
  cases hop : commandOpcode s.cfg i with
  | some op =>
    rw [exec_of_commandOpcode hop]
    exact sendRun_busy op hbusy
  | none =>
    cases i <;> simp only [commandOpcode, reduceCtorEq] at hop
    case statusFrame | temperatureFrame | responseByte | uartCharacter => simp [isLineEvent] at hhost
    case selEffectE k =>
      rw [List.getElem?_eq_none_iff] at hop
      exact absurd (of_decide_eq_true hwf) (Nat.not_lt.2 hop)
    case getStatus | poll => exact pollRun_busy hbusy
    case getTemp | temp => exact tempRun_busy hbusy
    case volMain use | volRear use | volCenter use | volSub use => exact volumeRun_busy _ use hbusy
    case writeRegister off val => exact writeRun_busy off val hbusy
    case readField f => exact readRun_busy f hbusy
    case selectInput inp => exact selectRun_busy inp _ hbusy
    case selectInputEffect inp e | inputSelectSequence inp e => exact selectRun_busy inp e hbusy
    all_goals
      rw [exec]
      exact hostOp_busy hbusy _

/-! ## The step -/

/-- Settles O48: the three answers of a step, read off its definition; the idle block's move is arrivals. -/
theorem stepRunsDecoded : Obligations.StepRunsDecoded := by
  refine ⟨fun s m rest i hport hdecode => ?_, fun s m rest e hport hdecode => ?_, fun s hport => ?_⟩
  · rw [step, hport]
    simp only [hdecode]
  · rw [step, hport]
    simp only [hdecode]
  · refine ⟨idle s, by rw [step, hport], ?_⟩
    intro p hp
    cases p with
    | rxq | env | hist => simp at hp
    | _ => simp [samePart]

end Sys2Proof.Machine

namespace Sys2Proof.Machine

open Sys2Proof.Safety

/-! ## Frames of the exchanges, and their composition -/

theorem samePart_trans {s t u : State} {p : Part} (h : samePart s t p) (h' : samePart t u p) : samePart s u p := by
  cases p with
  | snap | stage | tmp => exact fun a => (h' a).trans (h a)
  | _ => exact Eq.trans h' h

/-- What two operations in a row may change is what either may. -/
theorem onlyChanges_trans {ps qs : List Part} {s t u : State} (h : OnlyChanges ps s t) (h' : OnlyChanges qs t u) :
    OnlyChanges (ps ++ qs) s u := by
  intro p hp
  obtain ⟨hps, hqs⟩ : p ∉ ps ∧ p ∉ qs := by simpa only [List.mem_append, not_or] using hp
  exact samePart_trans (h p hps) (h' p hqs)

/-- A part that is the same after all need not be listed. -/
theorem onlyChanges_unlist {ps qs : List Part} {s t : State} {q : Part} (h : OnlyChanges ps s t) (hq : samePart s t q)
    (hsub : ∀ p, p ∈ ps → p = q ∨ p ∈ qs) : OnlyChanges qs s t := by
  intro p hp
  by_cases hps : p ∈ ps
  · rcases hsub p hps with rfl | hqs
    · exact hq
    · exact absurd hqs hp
  · exact h p hps

/-- 43_sequencer.md R180 to R188, the frame of a poll, however it ends. -/
theorem onlyChanges_pollBody (s : State) :
    OnlyChanges [.acc, .snap, .snapLen, .snapValid, .stage, .stageLen, .rxq, .txs, .seq, .t0, .now, .cause, .hist, .env]
      s (pollBody s).2 := by
  intro p hp
  cases p with
  | acc | snap | snapLen | snapValid | stage | stageLen | rxq | txs | seq | t0 | now | cause | hist | env => simp at hp
  | draws => exact (pollBody_end s).draws
  | _ => simp [samePart]

/-- 43_sequencer.md R188, the frame of a poll that failed: the snapshot is not in it. -/
theorem onlyChanges_pollBody_failed {s : State} (hok : (pollBody s).1 = false) :
    OnlyChanges [.acc, .stage, .stageLen, .rxq, .txs, .seq, .t0, .now, .cause, .hist, .env] s (pollBody s).2 := by
  obtain ⟨hsnap, hlen, hvalid, -⟩ := (pollBody_end s).failed hok
  intro p hp
  cases p with
  | acc | stage | stageLen | rxq | txs | seq | t0 | now | cause | hist | env => simp at hp
  | draws => exact (pollBody_end s).draws
  | snap =>
    show SameBytes s.snap (pollBody s).2.snap
    rw [hsnap]
    exact sameBytes_refl _
  | snapLen => exact hlen
  | snapValid => exact hvalid
  | _ => simp [samePart]

/-! ## The request (43_sequencer.md R181, R190) -/

/-- 41_transport.md R142, R143: a wait after a request that fails has lasted until TIMEOUT after the request time, which
is latched after the deadtime. -/
theorem request_timeout {n : Nat} {bs : List Byte} {s : State} (h : (awaitBytes n (request bs s)).1 = false) :
    s.now + s.cfg.deadtime ≤ (awaitBytes n (request bs s)).2.t0 ∧
      (awaitBytes n (request bs s)).2.t0 + s.cfg.timeout ≤ (awaitBytes n (request bs s)).2.now ∧
      (awaitBytes n (request bs s)).2.rxq.length < n := by
  obtain ⟨-, hfail, hclock, -, -⟩ := awaitBytes_spec n (request bs s)
  obtain ⟨hshort, htimeout⟩ := hfail h
  have hdead := flushRx_now_le s
  rw [request_cfg] at htimeout
  rw [awaitBytes_t0]
  rw [request_t0, request_now] at htimeout ⊢
  rw [request_now] at hclock
  exact ⟨hdead, by omega, hshort⟩

/-- What a wait has queued is queued still, but for the n oldest bytes, once those are taken. -/
theorem leftQueued_drop {s t u : State} {ms : List EnvMove} (h : LeftQueued s t ms 0) (n : Nat) (henv : u.env = t.env)
    (hrxq : u.rxq = t.rxq.drop n) : LeftQueued s u ms n := by
  obtain ⟨used, hpre, hmoves, hqueue⟩ := h
  exact ⟨used, hpre, by rw [henv, hmoves], by rw [hrxq, hqueue, List.drop_zero]⟩

/-! ## The poll (43_sequencer.md R180 to R188) -/

/-- A frame's payload is what stands between its header and its checksum. -/
theorem frameOf_injective {p q : List Byte} (h : frameOf p = frameOf q) : p = q := by
  have hbody : frameBody p = frameBody q := (List.append_inj' h rfl).1
  simp only [frameBody, List.cons.injEq] at hbody
  exact hbody.2.2.2

/-- The snapshot holds one frame. -/
theorem snapshotIs_unique {s : State} {fr fr' : List Byte} (h : SnapshotIs s fr) (h' : SnapshotIs s fr') : fr = fr' :=
  List.ext_getElem? fun a => (h.2.2 a).symm.trans (h'.2.2 a)

/-- Settles O23: the poll takes the frame (`pollBody_in_time`), and the frame it has committed is the one that arrived. -/
theorem pollTakesTimelyFrame : Obligations.PollTakesTimelyFrame := by
  intro i s ms p extra hi hidle hp hcap hbrings
  obtain ⟨⟨htime, first, rest, henv⟩, hbytes, hroom⟩ := hbrings
  obtain ⟨hok, his, hleft, hstage⟩ := pollBody_in_time (s := beginOp s) (extra := extra) henv htime hp hcap hbytes
    (by rw [hbytes]; exact hroom)
  obtain ⟨-, p', -, -, his', hacc, hlen, -⟩ := (pollBody_end (beginOp s)).committed hok
  obtain rfl : p = p' := frameOf_injective (snapshotIs_unique his his')
  have hframe := onlyChanges_deliver (.flag (pollBody (beginOp s)).1) hidle (onlyChanges_pollBody_committed hok)
  refine ⟨_, (exec_of_poll hi).trans (pollRun_idle hidle), onlyChanges_mono hframe (by decide), ?_, his,
    pollBody_txs (beginOp s), pollBody_seq (beginOp s), hlen, hacc, hstage, hleft, pollBody_flushCount (beginOp s)⟩
  rw [deliver_result, hok]

/-- Settles O24: the two ends of a poll (`PollEnd`). -/
theorem pollEndsOneOfTwoWays : Obligations.PollEndsOneOfTwoWays := by
  intro i s hi hidle
  have hend := pollBody_end (beginOp s)
  have hframe := onlyChanges_deliver (.flag (pollBody (beginOp s)).1) hidle (onlyChanges_pollBody (beginOp s))
  refine ⟨_, _, (exec_of_poll hi).trans (pollRun_idle hidle), onlyChanges_mono hframe (by decide), rfl,
    pollBody_txs (beginOp s), pollBody_seq (beginOp s), hend.stageFrame, hend.request.1, hend.request.2, fun hok => ?_,
    fun hok => ?_⟩
  · obtain ⟨-, p, hp, hcap, his, -⟩ := hend.committed hok
    exact ⟨p, hp, hcap, his⟩
  · obtain ⟨hsnap, hlen, hvalid, hcause⟩ := hend.failed hok
    exact ⟨SameSnapshot.kept ⟨hsnap, hlen, hvalid⟩, hcause⟩

/-- 43_sequencer.md R183, R184: a header in time whose declared length is beyond the buffer ends the poll there. -/
theorem pollBody_overlong {s : State} {ms : List EnvMove} {a b l : Byte} {more : List Byte}
    (hcap : s.cfg.bufCap < l.toNat + 4) (hmore : more ≠ []) (hbrings : Brings s ms (a :: b :: l :: more)) :
    ∃ r, pollBody s = pollFail .frameInvalid (takeHeader r) ∧ r = (awaitBytes 4 (request [s.cfg.opGetStatus] s)).2 ∧
      LeftQueued s r ms 0 ∧ 4 ≤ r.rxq.length ∧ r.rxq.take 3 = [a, b, l] ∧ headerLen r = l := by
  have hlong : 4 ≤ (a :: b :: l :: more).length := by
    have := List.length_pos_iff.2 hmore
    simp only [List.length_cons]
    omega
  obtain ⟨hok, hleft, k, hrxq, hk, hklen⟩ := request_in_time (op := [s.cfg.opGetStatus]) (n := 4) hbrings hlong
  have hheader : (awaitBytes 4 (request [s.cfg.opGetStatus] s)).2.rxq.take 3 = [a, b, l] := by
    rw [hrxq, List.take_take, Nat.min_eq_left (by omega)]
    rfl
  have hlen : headerLen (awaitBytes 4 (request [s.cfg.opGetStatus] s)).2 = l := by
    have hthird := congrArg (fun xs => xs[2]?) hheader
    rw [List.getElem?_take, if_pos (by decide)] at hthird
    exact byteAt_eq hthird
  refine ⟨_, ?_, rfl, hleft, by rw [hrxq, List.length_take]; omega, hheader, hlen⟩
  rw [pollBody_header hok]
  show pollHeader (awaitBytes 4 (request [s.cfg.opGetStatus] s)).2 = _
  rw [pollHeader, hlen, awaitBytes_cfg, request_cfg]
  exact if_pos hcap

/-- What the staging buffer reads after a header alone. -/
theorem memRead_header (m : Memory) (a b l : Byte) (k : Nat) :
    memRead (memStore m 0 [a, b, l]) k = if k < 3 then [a, b, l][k]? else memRead m k := by
  rw [memRead_memStore]
  refine if_congr ?_ (by rw [Nat.sub_zero]) rfl
  simp

/-- Settles O25: the poll ends once its header is taken, so the staging buffer has the header alone and the rest of the
answer stays queued. -/
theorem pollRefusesOverlongFrame : Obligations.PollRefusesOverlongFrame := by
  intro i s ms a b l more hi hidle hcap hmore hbrings
  obtain ⟨r, hpoll, hr, hleft, hfour, hheader, hlen⟩ := pollBody_overlong (s := beginOp s) hcap hmore hbrings
  have hexec := (exec_of_poll hi).trans (pollRun_idle hidle)
  have hframe : OnlyChanges [.stage, .stageLen, .rxq, .txs, .seq, .t0, .now, .cause, .hist, .env] (beginOp s)
      (pollFail .frameInvalid (takeHeader r)).2 := by
    intro p hp
    cases p with
    | stage | stageLen | rxq | txs | seq | t0 | now | cause | hist | env => simp at hp
    | _ => simp [samePart, hr]
  rw [hpoll] at hexec
  refine ⟨_, hexec, onlyChanges_mono (onlyChanges_deliver _ hidle hframe) (by decide), rfl, rfl, rfl, ?_, ?_,
    leftQueued_drop hleft 3 rfl rfl, ?_⟩
  · rw [deliver_stageLen, pollFail_stageLen, takeHeader_stageLen, hlen]
    rfl
  · intro k
    have hstage : r.stage = s.stage := by simp [hr]
    rw [deliver_stage, pollFail_stage, takeHeader_stage, hstage, headerSize, hheader]
    exact memRead_header s.stage a b l k
  · rw [deliver_rxq, pollFail_rxq, takeHeader_rxq, headerSize]
    refine List.ne_nil_of_length_pos ?_
    rw [List.length_drop]
    omega

/-- 42_frame_codec.md R150, 40_lrc.md R123: what the validator decides of a whole sequence. -/
theorem statusValid_iff {a b : Byte} {rest : List Byte} :
    statusValid (a :: b :: rest) (a :: b :: rest).length = true ↔
      a = 0xAA ∧ b = 0x0A ∧ sumOn 1 (rest.length + 1) (byteAt (a :: b :: rest)) % 256 = 0 := by
  have hlen : (a :: b :: rest).length = rest.length + 2 := rfl
  have hcovered : ∀ i, 1 ≤ i → i ≤ rest.length + 2 - 2 → (a :: b :: rest)[i]? = some (byteAt (a :: b :: rest) i) :=
    fun i _ hi => heldOn_given (s := State.reset) (lo := 0) (hi := i) (by rw [hlen]; omega) i (Nat.zero_le _) le_rfl
  rw [show rest.length + 1 = rest.length + 2 - 1 from rfl,
    ← closedForm_iff_sum_zero (n := rest.length + 2) (f := byteAt (a :: b :: rest)) (by omega), ← lrcSum_closed hcovered,
    BitVec.toNat_inj, hlen, statusValid, lrcHolds, Bool.and_eq_true, Bool.and_eq_true, beq_iff_eq, beq_iff_eq, beq_iff_eq,
    and_assoc]
  rfl

/-- Settles O26: the poll stages the whole answer (`pollBody_timely`), and the validator refuses it. -/
theorem pollRefusesDamagedFrame : Obligations.PollRefusesDamagedFrame := by
  intro i s ms a b l body extra hi hidle hcap hbody hbrings hdamage
  obtain ⟨⟨htime, first, rest, henv⟩, hbytes, hroom⟩ := hbrings
  have hlen : (a :: b :: l :: body).length = l.toNat + 4 := by
    simp only [List.length_cons, hbody]
  obtain ⟨s4, -, -, -, hleft, hpoll⟩ := pollBody_timely (s := beginOp s) (fr := a :: b :: l :: body) (extra := extra) henv
    htime hlen (by rw [hlen]; exact hcap) hbytes (by rw [hbytes]; exact hroom)
  have hinvalid : ¬statusValid (a :: b :: l :: body) (a :: b :: l :: body).length = true := by
    rw [statusValid_iff, List.length_cons, hbody]
    rintro ⟨ha, hb, hsum⟩
    rcases hdamage with h | h | h
    · exact h ha
    · exact h hb
    · exact h hsum
  rw [if_neg hinvalid] at hpoll
  have hok : (pollBody (beginOp s)).1 = false := by rw [hpoll]; rfl
  obtain ⟨hsnap, hsnapLen, hvalid, -⟩ := (pollBody_end (beginOp s)).failed hok
  have hframe := onlyChanges_deliver (.flag (pollBody (beginOp s)).1) hidle (onlyChanges_pollBody_failed hok)
  refine ⟨_, (exec_of_poll hi).trans (pollRun_idle hidle), onlyChanges_mono hframe (by decide),
    (pollBody_end (beginOp s)).stageFrame, ?_, ?_, pollBody_seq (beginOp s), SameSnapshot.kept ⟨hsnap, hsnapLen, hvalid⟩, ?_⟩
  · rw [deliver_result, hok]
  · rw [deliver_cause, hpoll]
    rfl
  · rw [hpoll]
    exact hlen ▸ hleft

/-- 60_exceptions.md R241: a poll that ends by a timeout gives false, and not before TIMEOUT. -/
theorem pollBody_of_timeout {s r : State} (hpoll : pollBody s = pollFail .timeout r) :
    (pollBody s).1 = false ∧ (pollBody s).2.cause = some .timeout ∧
      (pollBody s).2.t0 + s.cfg.timeout ≤ (pollBody s).2.now := by
  have hok : (pollBody s).1 = false := by rw [hpoll]; rfl
  have hcause : (pollBody s).2.cause = some .timeout := by rw [hpoll]; rfl
  obtain ⟨-, -, -, hend⟩ := (pollBody_end s).failed hok
  rcases hend with ⟨-, htimeout⟩ | hother
  · exact ⟨hok, hcause, htimeout⟩
  · rw [hcause] at hother
    cases hother

/-- Settles O59: short of four bytes the header wait fails; with a header and not its whole payload the second wait. -/
theorem shortAnswerTimesOut : Obligations.ShortAnswerTimesOut := by
  refine ⟨fun i s ms bs hi hidle hbrings hshort => ?_, fun i s ms more a b l bs bs' hi hidle hcap hbrings hbs honly hshort => ?_⟩
  · obtain ⟨hleft, hpoll⟩ := pollBody_short (s := beginOp s) hbrings hshort
    obtain ⟨hok, hcause, htimeout⟩ := pollBody_of_timeout hpoll
    have hframe : OnlyChanges [.rxq, .txs, .seq, .t0, .now, .cause, .hist, .env] (beginOp s) (pollBody (beginOp s)).2 := by
      rw [hpoll]
      intro p hp
      cases p with
      | rxq | txs | seq | t0 | now | cause | hist | env => simp at hp
      | _ => simp [samePart]
    have hexec := (exec_of_poll hi).trans (pollRun_idle hidle)
    rw [hok] at hexec
    exact ⟨_, hexec, onlyChanges_mono (onlyChanges_deliver _ hidle hframe) (by decide), rfl, hcause,
      pollBody_seq (beginOp s), htimeout, pollBody_txs (beginOp s), hleft⟩
  · obtain ⟨r, hpoll, hleft, hlen, hstage, hsnap, hsnapLen, hvalid, hacc, hdraws⟩ :=
      pollBody_short_payload (s := beginOp s) hbrings hbs honly hcap hshort
    obtain ⟨hok, hcause, htimeout⟩ := pollBody_of_timeout hpoll
    have hsameAcc : (pollBody (beginOp s)).2.acc = s.acc := by rw [hpoll]; exact hacc
    have hframe := onlyChanges_deliver (.flag (pollBody (beginOp s)).1) hidle
      (onlyChanges_unlist (onlyChanges_pollBody_failed hok) (q := .acc)
        (qs := [.stage, .stageLen, .rxq, .txs, .seq, .t0, .now, .cause, .hist, .env]) hsameAcc (by decide))
    refine ⟨_, (exec_of_poll hi).trans (pollRun_idle hidle), onlyChanges_mono hframe (by decide), ?_, hcause,
      pollBody_seq (beginOp s), htimeout, pollBody_txs (beginOp s), ?_, ?_, ?_⟩
    · rw [deliver_result, hok]
    · rw [deliver_stageLen, hpoll]
      exact hlen
    · intro k
      rw [deliver_stage, hpoll]
      exact hstage k
    · rw [hpoll]
      exact hleft

/-! ## The probe (43_sequencer.md R190, R191) -/

/-- 43_sequencer.md R190, the frame of a probe: its own buffer and the link, not the snapshot, the staging buffer or the
cache. -/
theorem onlyChanges_tempBody (s : State) :
    OnlyChanges [.tmp, .rxq, .txs, .seq, .t0, .now, .cause, .hist, .env] s (tempBody s).2 := by
  intro p hp
  cases p with
  | tmp | rxq | txs | seq | t0 | now | cause | hist | env => simp at hp
  | _ => simp [samePart]

/-- A probe flushes once. -/
theorem tempBody_flushCount (s : State) : flushCount (tempBody s).2.hist = flushCount s.hist + 1 := by
  rw [← request_flushCount [s.cfg.opGetTemp] s]
  rcases tempBody_cases s with ⟨-, h⟩ | ⟨r, rfl, -, -, ⟨-, h⟩ | ⟨-, h⟩⟩ <;> rw [h] <;> simp

/-- What `tmp` reads once the ten oldest bytes queued are taken. -/
theorem memRead_takeTemp {r : State} (hlen : 10 ≤ r.rxq.length) (a : Nat) :
    memRead (takeTemp r).tmp a = if a < 10 then r.rxq[a]? else memRead r.tmp a := by
  rw [takeTemp_tmp, memRead_memStore, List.length_take, tempLen, Nat.min_eq_left hlen, Nat.sub_zero]
  by_cases ha : a < 10
  · rw [if_pos (by omega), if_pos ha, List.getElem?_take, if_pos ha]
  · rw [if_neg (by omega), if_neg ha]

/-- 43_sequencer.md R190: what a probe does with ten bytes that arrive in time. -/
theorem tempBody_in_time {s : State} {ms : List EnvMove} {bs extra : List Byte} (hlen : bs.length = 10)
    (hbrings : Brings s ms (bs ++ extra)) :
    (bs[2]? = some 0x0C → (tempBody s).1 = byteAt bs 7 ∧ (tempBody s).2.cause = s.cause) ∧
    (bs[2]? ≠ some 0x0C → (tempBody s).1 = 0 ∧ (tempBody s).2.cause = some .frameInvalid) ∧
    (∀ a, memRead (tempBody s).2.tmp a = if a < 10 then bs[a]? else memRead s.tmp a) ∧
    LeftQueued s (tempBody s).2 ms 10 := by
  obtain ⟨hok, hleft, k, hrxq, hk, hklen⟩ := request_in_time (op := [s.cfg.opGetTemp]) (n := 10) hbrings (by
    rw [List.length_append]
    omega)
  rcases tempBody_cases s with ⟨hfails, -⟩ | ⟨r, hr, -, hten, hend⟩
  · rw [show (10 : Nat) = tempLen from rfl, hfails] at hok
    cases hok
  · have hrq : r.rxq = (bs ++ extra).take k := by rw [hr]; exact hrxq
    have hbyte : ∀ a, a < 10 → r.rxq[a]? = bs[a]? := fun a ha => by
      rw [hrq, List.getElem?_take, if_pos (by omega), List.getElem?_append_left (by omega)]
    have hseven : byteAt r.rxq 7 = byteAt bs 7 := by
      simp only [byteAt, List.getD_eq_getElem?_getD, hbyte 7 (by decide)]
    have htmp : ∀ a, memRead (takeTemp r).tmp a = if a < 10 then bs[a]? else memRead s.tmp a := fun a => by
      have hsame : r.tmp = s.tmp := by simp [hr]
      rw [memRead_takeTemp hten, hsame]
      split
      · exact hbyte a ‹_›
      · rfl
    have hcause : r.cause = s.cause := by simp [hr]
    have hleft' : LeftQueued s (takeTemp r) ms 10 := by
      rw [hr]
      exact leftQueued_drop hleft 10 rfl rfl
    rw [hbyte 2 (by decide)] at hend
    rcases hend with ⟨hgood, h⟩ | ⟨hbad, h⟩ <;> rw [h]
    · exact ⟨fun _ => ⟨hseven, hcause⟩, fun hbad => absurd hgood hbad, htmp, hleft'⟩
    · exact ⟨fun hgood => absurd hgood hbad, fun _ => ⟨rfl, rfl⟩, htmp, hleft'⟩

/-- Settles O28: the ten bytes taken, and the sentinel among them. -/
theorem probeTakesTimelyBytes : Obligations.ProbeTakesTimelyBytes := by
  intro i s ms bs extra hi hidle hlen hbrings
  obtain ⟨hgood, hbad, htmp, hleft⟩ := tempBody_in_time (s := beginOp s) hlen hbrings
  have hframe := onlyChanges_deliver (.byte (tempBody (beginOp s)).1) hidle (onlyChanges_tempBody (beginOp s))
  refine ⟨_, (exec_of_temp hi).trans (tempRun_idle hidle), onlyChanges_mono hframe (by decide), fun h => ?_, fun h => ?_,
    htmp, tempBody_txs (beginOp s), tempBody_seq (beginOp s), hleft, tempBody_flushCount (beginOp s)⟩
  · exact ⟨congrArg OpResult.byte (hgood h).1, (hgood h).2⟩
  · exact ⟨congrArg OpResult.byte (hbad h).1, (hbad h).2⟩

/-- 43_sequencer.md R190: a probe short of ten bytes gives 0 by a timeout and takes nothing. -/
theorem tempBody_timeout {s : State} (h : (awaitBytes tempLen (request [s.cfg.opGetTemp] s)).1 = false) :
    tempBody s = (0, setSeq .idle (noteFailure .timeout (awaitBytes tempLen (request [s.cfg.opGetTemp] s)).2)) := by
  rcases tempBody_cases s with ⟨-, hend⟩ | ⟨r, -, hok, -, -⟩
  · exact hend
  · rw [h] at hok
    cases hok

/-- The three ends of a probe, each with what it says of the cause, the time and `tmp` (43_sequencer.md R190). -/
theorem tempBody_ends (s : State) :
    ((tempBody s).1 = 0 ∧ (tempBody s).2.cause = some .timeout ∧
      (tempBody s).2.t0 + s.cfg.timeout ≤ (tempBody s).2.now ∧ (tempBody s).2.rxq.length < 10 ∧
      SameBytes s.tmp (tempBody s).2.tmp) ∨
    ((tempBody s).1 = 0 ∧ (tempBody s).2.cause = some .frameInvalid ∧ memRead (tempBody s).2.tmp 2 ≠ some 0x0C) ∨
    ((tempBody s).2.cause = s.cause ∧ memRead (tempBody s).2.tmp 2 = some 0x0C ∧
      memRead (tempBody s).2.tmp 7 = some (tempBody s).1) := by
  rcases tempBody_cases s with ⟨hfails, h⟩ | ⟨r, hr, -, hten, hend⟩
  · obtain ⟨-, htimeout, hshort⟩ := request_timeout hfails
    left
    rw [h]
    exact ⟨rfl, rfl, htimeout, hshort, by simp⟩
  · have htwo : memRead (takeTemp r).tmp 2 = r.rxq[2]? := by rw [memRead_takeTemp hten, if_pos (by decide)]
    have hseven : memRead (takeTemp r).tmp 7 = some (byteAt r.rxq 7) := by
      rw [memRead_takeTemp hten, if_pos (by decide)]
      exact heldOn_given (s := s) (lo := 0) (hi := 7) (by omega) 7 (by decide) le_rfl
    rcases hend with ⟨hgood, h⟩ | ⟨hbad, h⟩
    · right; right
      rw [h]
      exact ⟨by simp [hr], htwo.trans hgood, hseven⟩
    · right; left
      rw [h]
      exact ⟨rfl, rfl, by rw [noteFailure_tmp, setSeq_tmp, htwo]; exact hbad⟩

/-- 43_sequencer.md R190: an answer short of ten bytes ends the probe by a timeout and stays queued. -/
theorem tempBody_of_short {s : State} {ms : List EnvMove} {bs : List Byte} (honly : BringsOnly s ms bs)
    (hshort : bs.length < 10) :
    (tempBody s).1 = 0 ∧ (tempBody s).2.cause = some .timeout ∧ (tempBody s).2.t0 + s.cfg.timeout ≤ (tempBody s).2.now ∧
      SameBytes s.tmp (tempBody s).2.tmp ∧ LeftQueued s (tempBody s).2 ms 0 := by
  obtain ⟨hfails, hleft⟩ := request_short (op := [s.cfg.opGetTemp]) (n := tempLen) honly hshort
  obtain ⟨-, htimeout, -⟩ := request_timeout hfails
  rw [tempBody_timeout hfails]
  refine ⟨rfl, rfl, htimeout, by simp, leftQueued_drop hleft 0 ?_ ?_⟩
  · rw [setSeq_env, noteFailure_env]
  · rw [setSeq_rxq, noteFailure_rxq, List.drop_zero]
/-- Settles O29: the frame of the probe, its three ends, and the short answer, which the failed wait leaves queued. -/
theorem probeIsIndependent : Obligations.ProbeIsIndependent := by
  intro i s hi hidle
  have hframe := onlyChanges_deliver (.byte (tempBody (beginOp s)).1) hidle (onlyChanges_tempBody (beginOp s))
  refine ⟨_, _, (exec_of_temp hi).trans (tempRun_idle hidle), onlyChanges_mono hframe (by decide), ?_, rfl,
    tempBody_txs (beginOp s), tempBody_seq (beginOp s), tempBody_ends (beginOp s), ?_⟩
  · intro a ha
    rw [deliver_tmp]
    rcases tempBody_tmp (beginOp s) with h | ⟨bs, hlen, h⟩ <;> rw [h]
    · rfl
    · rw [memRead_memStore, hlen, if_neg (by rw [tempLen]; omega)]
      rfl
  · intro ms bs honly hshort
    exact tempBody_of_short (s := beginOp s) honly hshort

/-! ## The single-byte command (44_driver_ops.md R200, R201) -/

/-- 44_driver_ops.md R200, the frame of a command: the link and the cache. -/
theorem onlyChanges_sendBody (op : Byte) (s : State) :
    OnlyChanges [.rxq, .txs, .seq, .t0, .now, .muted, .decode, .cause, .hist, .env] s (sendBody op s).2 := by
  intro p hp
  cases p with
  | rxq | txs | seq | t0 | now | muted | decode | cause | hist | env => simp at hp
  | _ => simp [samePart]

/-- A command flushes once. -/
theorem sendBody_flushCount (op : Byte) (s : State) : flushCount (sendBody op s).2.hist = flushCount s.hist + 1 := by
  rw [← request_flushCount [op] s]
  rcases sendBody_cases op s with ⟨-, h⟩ | ⟨-, h⟩ <;> rw [h] <;> simp [takeResponse]

/-- 44_driver_ops.md R200: how a command ends, by its wait for one byte alone: the cache update makes no difference to
it. -/
theorem sendBody_ends (op : Byte) (s : State) :
    ((awaitBytes 1 (request [op] s)).1 = false ∧
      sendBody op s = (0, setSeq .idle (noteFailure .timeout (updateCache op (awaitBytes 1 (request [op] s)).2)))) ∨
    ((awaitBytes 1 (request [op] s)).1 = true ∧
      sendBody op s = takeResponse (updateCache op (awaitBytes 1 (request [op] s)).2)) := by
  obtain ⟨hsame, hstate⟩ := awaitBytes_updateCache 1 op (request [op] s)
  rw [← hsame, ← hstate]
  exact sendBody_cases op s

/-- 44_driver_ops.md R200: a command whose answer comes in time returns the answer's oldest byte. -/
theorem sendBody_in_time {s : State} {op r : Byte} {ms : List EnvMove} {more : List Byte}
    (hbrings : Brings s ms (r :: more)) :
    (sendBody op s).1 = r ∧ (sendBody op s).2.cause = s.cause ∧ LeftQueued s (sendBody op s).2 ms 1 := by
  obtain ⟨hok, hleft, k, hrxq, hk, -⟩ := request_in_time (op := [op]) (n := 1) hbrings (Nat.succ_pos _)
  rcases sendBody_ends op s with ⟨hfails, -⟩ | ⟨-, h⟩
  · rw [hfails] at hok
    cases hok
  · obtain ⟨j, rfl⟩ : ∃ j, k = j + 1 := ⟨k - 1, by omega⟩
    rw [h]
    refine ⟨?_, by simp [takeResponse], leftQueued_drop hleft 1 (by simp [takeResponse]) (by simp [takeResponse])⟩
    rw [takeResponse, updateCache_rxq, hrxq]
    rfl

/-- Settles O30: the answer's oldest byte, with the cause left as it was. -/
theorem commandReturnsOldestByte : Obligations.CommandReturnsOldestByte := by
  intro i s op ms r more hop hidle hbrings
  obtain ⟨hbyte, hcause, hleft⟩ := sendBody_in_time (s := beginOp s) (op := op) hbrings
  have hframe := onlyChanges_deliver (.byte (sendBody op (beginOp s)).1) hidle
    (onlyChanges_unlist (onlyChanges_sendBody op (beginOp s)) (q := .cause)
      (qs := [.rxq, .txs, .seq, .t0, .now, .muted, .decode, .hist, .env]) hcause (by decide))
  exact ⟨_, (exec_of_commandOpcode hop).trans (sendRun_idle op hidle), onlyChanges_mono hframe (by decide),
    congrArg OpResult.byte hbyte, sendBody_txs op (beginOp s), sendBody_seq op (beginOp s), hleft,
    sendBody_flushCount op (beginOp s)⟩

/-- Two opcodes of a legal configuration at different places of its list differ (00_scope.md R10). -/
theorem opcodes_ne {c : Config} (hc : c.wf = true) {i j : Nat} (hi : i < 21) (hij : i ≠ j) :
    c.opcodes[i]? ≠ c.opcodes[j]? := by
  have hnodup : c.opcodes.Nodup := by
    simp only [Config.wf, Bool.and_eq_true, decide_eq_true_eq] at hc
    exact hc.1.1.1.1.1.2
  have hlen : i < c.opcodes.length := by
    rw [Config.opcodes, List.length_append]
    exact Nat.lt_add_right _ hi
  exact fun h => hij ((List.getElem?_inj hlen hnodup).1 h)

/-- 44_driver_ops.md R201: what the cache says of `muted`. -/
theorem updateCache_muted (op : Byte) (s : State) : (updateCache op s).muted =
    if op = s.cfg.opMuteOn then true else if op = s.cfg.opMuteOff then false else s.muted := by
  unfold updateCache
  split_ifs <;> rfl

/-- 44_driver_ops.md R201: what the cache says of `decode`; the four opcodes are distinct. -/
theorem updateCache_decode {s : State} (hc : s.cfg.wf = true) (op : Byte) : (updateCache op s).decode =
    if op = s.cfg.opDecodeOn then true else if op = s.cfg.opDecodeOff then false else s.decode := by
  have hon : s.cfg.opMuteOn ≠ s.cfg.opDecodeOn :=
    fun h => opcodes_ne hc (i := 4) (j := 16) (by decide) (by decide) (congrArg some h)
  have hoff : s.cfg.opMuteOn ≠ s.cfg.opDecodeOff :=
    fun h => opcodes_ne hc (i := 4) (j := 17) (by decide) (by decide) (congrArg some h)
  have hon' : s.cfg.opMuteOff ≠ s.cfg.opDecodeOn :=
    fun h => opcodes_ne hc (i := 5) (j := 16) (by decide) (by decide) (congrArg some h)
  have hoff' : s.cfg.opMuteOff ≠ s.cfg.opDecodeOff :=
    fun h => opcodes_ne hc (i := 5) (j := 17) (by decide) (by decide) (congrArg some h)
  unfold updateCache
  by_cases h1 : op = s.cfg.opMuteOn
  · rw [if_pos h1, h1, if_neg hon, if_neg hoff]
  · rw [if_neg h1]
    by_cases h2 : op = s.cfg.opMuteOff
    · rw [if_pos h2, h2, if_neg hon', if_neg hoff']
    · rw [if_neg h2]
      split_ifs <;> rfl

/-- 44_driver_ops.md R201: the cache after a command is updated at issue, whatever answers. -/
theorem sendBody_cache (op : Byte) (s : State) : (sendBody op s).2.muted = (updateCache op s).muted ∧
    (s.cfg.wf = true → (sendBody op s).2.decode = (updateCache op s).decode) := by
  have hissue : (sendBody op s).2.muted = (updateCache op (awaitBytes 1 (request [op] s)).2).muted ∧
      (sendBody op s).2.decode = (updateCache op (awaitBytes 1 (request [op] s)).2).decode := by
    rcases sendBody_ends op s with ⟨-, h⟩ | ⟨-, h⟩ <;> rw [h] <;> exact ⟨rfl, rfl⟩
  obtain ⟨hmuted, hdecode⟩ := hissue
  refine ⟨?_, fun hc => ?_⟩
  · rw [hmuted, updateCache_muted, updateCache_muted]
    simp
  · rw [hdecode, updateCache_decode (by simpa using hc), updateCache_decode hc]
    simp

/-- Settles O31: the cache of `updateCache`, and the two ends of the wait. -/
theorem commandUpdatesCacheAtIssue : Obligations.CommandUpdatesCacheAtIssue := by
  intro i s op hop hidle hc
  have hframe := onlyChanges_deliver (.byte (sendBody op (beginOp s)).1) hidle (onlyChanges_sendBody op (beginOp s))
  obtain ⟨hmuted, hdecode⟩ := sendBody_cache op (beginOp s)
  refine ⟨_, _, (exec_of_commandOpcode hop).trans (sendRun_idle op hidle), onlyChanges_mono hframe (by decide), rfl,
    sendBody_txs op (beginOp s), sendBody_seq op (beginOp s), hmuted.trans (updateCache_muted op (beginOp s)),
    (hdecode hc).trans (updateCache_decode (s := beginOp s) hc op), ?_⟩
  rcases sendBody_ends op (beginOp s) with ⟨hfails, h⟩ | ⟨-, h⟩ <;> rw [h]
  · obtain ⟨-, htimeout, hshort⟩ := request_timeout hfails
    left
    refine ⟨rfl, rfl, ?_, ?_⟩
    · simpa using htimeout
    · simpa using hshort
  · right
    simp [takeResponse]

/-! ## A silent link (60_exceptions.md R241) -/

/-- What every exchange leaves when nothing answers: the cause, the time, an empty queue, a ready sequencer and the
snapshot as it was. -/
structure TimedOut (s t : State) : Prop where
  cause : t.cause = some .timeout
  clock : s.now + s.cfg.deadtime + s.cfg.timeout ≤ t.now
  request : t.t0 + s.cfg.timeout ≤ t.now
  rxq : t.rxq = []
  seq : t.seq = .idle
  snapshot : SameSnapshot s t

/-- An unanswered wait after a request leaves so, once the failure is noted and the sequencer is at Idle. -/
theorem timedOut_of_wait {s t : State} {n : Nat} {bs : List Byte} (hlink : SilentLink s) (hn : 0 < n)
    (hsnap : SameSnapshot s t) (hcause : t.cause = some .timeout) (hseq : t.seq = .idle)
    (hnow : t.now = (awaitBytes n (request bs s)).2.now) (ht0 : t.t0 = (awaitBytes n (request bs s)).2.t0)
    (hrxq : t.rxq = (awaitBytes n (request bs s)).2.rxq) : TimedOut s t := by
  obtain ⟨hfails, hempty⟩ := request_silent (bs := bs) hlink hn
  obtain ⟨hlatched, htimeout, -⟩ := request_timeout hfails
  exact ⟨hcause, by omega, by omega, hrxq.trans hempty, hseq, hsnap⟩

theorem pollBody_timedOut {s : State} (hlink : SilentLink s) :
    (pollBody s).1 = false ∧ TimedOut s (pollBody s).2 := by
  rw [pollBody_silent hlink]
  exact ⟨rfl, timedOut_of_wait (n := headerSize + 1) (bs := [s.cfg.opGetStatus]) hlink (by decide)
    ⟨by simp, by simp, by simp⟩ rfl rfl (pollFail_now _ _) (pollFail_t0 _ _) (pollFail_rxq _ _)⟩

theorem tempBody_timedOut {s : State} (hlink : SilentLink s) : (tempBody s).1 = 0 ∧ TimedOut s (tempBody s).2 := by
  rw [tempBody_timeout (request_silent hlink (by decide)).1]
  exact ⟨rfl, timedOut_of_wait (n := tempLen) (bs := [s.cfg.opGetTemp]) hlink (by decide) ⟨by simp, by simp, by simp⟩ rfl
    rfl (by simp) (by simp) (by simp)⟩

theorem sendBody_timedOut {s : State} (op : Byte) (hlink : SilentLink s) :
    (sendBody op s).1 = 0 ∧ TimedOut s (sendBody op s).2 := by
  have hfails := (request_silent (bs := [op]) hlink (n := 1) (by decide)).1
  rcases sendBody_ends op s with ⟨-, h⟩ | ⟨hok, -⟩
  · rw [h]
    exact ⟨rfl, timedOut_of_wait (n := 1) (bs := [op]) hlink (by decide) ⟨by simp, by simp, by simp⟩ rfl rfl (by simp)
      (by simp) (by simp)⟩
  · rw [hfails] at hok
    cases hok

/-- 44_driver_ops.md R210: a field read whose poll failed gives 0 and is its poll. -/
theorem readBody_of_failed {f : Field} {s : State} (hok : (pollBody s).1 = false) :
    readBody f s = (0, (pollBody s).2) := by
  rw [readBody, hok]
  rfl

theorem readBody_timedOut {s : State} (f : Field) (hlink : SilentLink s) :
    (readBody f s).1 = 0 ∧ TimedOut s (readBody f s).2 := by
  obtain ⟨hok, htimedOut⟩ := pollBody_timedOut hlink
  rw [readBody_of_failed hok]
  exact ⟨rfl, htimedOut⟩

/-- Which results a silent exchange may deliver, by the kind of the instruction. -/
def SilentResult (c : Config) (i : Instr) (r : OpResult) : Prop :=
  (i = .poll ∨ i = .getStatus → r = .flag false) ∧
  (i = .temp ∨ i = .getTemp ∨ (commandOpcode c i).isSome = true → r = .byte 0) ∧
  ((fieldRead i).isSome = true → r = .number 0)

theorem silentResult_poll {c : Config} {i : Instr} (hi : i = .poll ∨ i = .getStatus) :
    SilentResult c i (.flag false) := by
  rcases hi with rfl | rfl <;> simp [SilentResult, commandOpcode, fieldRead]

theorem silentResult_temp {c : Config} {i : Instr} (hi : i = .temp ∨ i = .getTemp) : SilentResult c i (.byte 0) := by
  rcases hi with rfl | rfl <;> simp [SilentResult, fieldRead]

theorem silentResult_command {c : Config} {i : Instr} {op : Byte} (hi : commandOpcode c i = some op) :
    SilentResult c i (.byte 0) := by
  refine ⟨?_, fun _ => rfl, fun hfield => ?_⟩
  · rintro (rfl | rfl) <;> simp [commandOpcode] at hi
  · obtain ⟨f, hf⟩ := Option.isSome_iff_exists.1 hfield
    rw [commandOpcode_of_polls (polls_of_field hf)] at hi
    cases hi

theorem silentResult_field {c : Config} {i : Instr} {f : Field} (hi : fieldRead i = some f) :
    SilentResult c i (.number 0) := by
  refine ⟨?_, ?_, fun _ => rfl⟩
  · rintro (rfl | rfl) <;> simp [fieldRead] at hi
  · rintro (rfl | rfl | hop)
    · simp [fieldRead] at hi
    · simp [fieldRead] at hi
    · rw [commandOpcode_of_polls (polls_of_field hi)] at hop
      cases hop

/-- Settles O27: each exchange's wait finds nothing, so each ends by a timeout with its own empty result. -/
theorem silentLinkTimesOut : Obligations.SilentLinkTimesOut := by
  intro i s hidle hlink hi
  have hassemble : ∀ (r : OpResult) (u : State), exec i s = .next (deliver r u) → TimedOut (beginOp s) u →
      SilentResult s.cfg i r →
      ∃ t, exec i s = .next t ∧ t.cause = some .timeout ∧ s.now + s.cfg.deadtime + s.cfg.timeout ≤ t.now ∧
        t.t0 + s.cfg.timeout ≤ t.now ∧ t.rxq = [] ∧ t.seq = .idle ∧ SnapshotKept s t ∧
        SilentResult s.cfg i t.result := fun r u hexec hu hr =>
    ⟨_, hexec, hu.cause, hu.clock, hu.request, hu.rxq, hu.seq, hu.snapshot.kept, hr⟩
  have hlink' : SilentLink (beginOp s) := hlink
  have hpolls : i = .poll ∨ i = .getStatus → _ := fun hi => by
    obtain ⟨hok, hu⟩ := pollBody_timedOut hlink'
    have hexec := (exec_of_poll hi).trans (pollRun_idle hidle)
    exact hassemble _ _ hexec hu (by rw [hok]; exact silentResult_poll hi)
  have hprobes : i = .temp ∨ i = .getTemp → _ := fun hi => by
    obtain ⟨hzero, hu⟩ := tempBody_timedOut hlink'
    have hexec := (exec_of_temp hi).trans (tempRun_idle hidle)
    exact hassemble _ _ hexec hu (by rw [hzero]; exact silentResult_temp hi)
  rcases hi with hi | hi | hi | hi | hi | hi
  · exact hpolls (.inl hi)
  · exact hpolls (.inr hi)
  · exact hprobes (.inl hi)
  · exact hprobes (.inr hi)
  · obtain ⟨op, hop⟩ := Option.isSome_iff_exists.1 hi
    obtain ⟨hzero, hu⟩ := sendBody_timedOut op hlink'
    exact hassemble _ _ ((exec_of_commandOpcode hop).trans (sendRun_idle op hidle)) hu
      (by rw [hzero]; exact silentResult_command hop)
  · obtain ⟨f, hf⟩ := Option.isSome_iff_exists.1 hi
    obtain ⟨hzero, hu⟩ := readBody_timedOut f hlink'
    exact hassemble _ _ ((exec_of_fieldRead hf).trans (readRun_idle f hidle)) hu
      (by rw [hzero]; exact silentResult_field hf)

end Sys2Proof.Machine

namespace Sys2Proof.Machine

open Sys2Proof.Safety

/-! ## The patch and the transmission after a poll (44_driver_ops.md R205 to R209) -/

/-- 44_driver_ops.md R205, the frame of the patch with its transmission. -/
theorem onlyChanges_sendPatch (off : Nat) (val : Byte) (r : State) :
    OnlyChanges [.acc, .snap, .rxq, .txs, .now, .hist, .env, .draws] r (sendSnapshot (patchSnapshot off val r)) := by
  intro p hp
  cases p with
  | acc | snap | rxq | txs | now | hist | env | draws => simp at hp
  | _ => simp [samePart]

/-- On a snapshot that holds a frame the patch reads no place without a value. -/
theorem onlyChanges_sendPatch_held {r : State} {off : Nat} {val : Byte} {p : List Byte} (his : SnapshotIs r (frameOf p))
    (hlow : 3 ≤ off) (hhigh : off ≤ p.length + 2) :
    OnlyChanges [.acc, .snap, .rxq, .txs, .now, .hist, .env] r (sendSnapshot (patchSnapshot off val r)) := by
  obtain ⟨-, -, -, -, hdraws⟩ := sendPatched_spec (val := val) his hlow hhigh
  exact onlyChanges_unlist (onlyChanges_sendPatch off val r) (q := .draws) hdraws (by decide)

/-- 44_driver_ops.md R205: a register write that goes on, with its offset in the payload held, patches and sends. -/
theorem writeAfterPoll_sends {r : State} {ok : Bool} {off : Nat} (val : Byte) {p : List Byte}
    (his : SnapshotIs r (frameOf p)) (hgoes : writeEndsEarly ok r = false) (hlow : 3 ≤ off) (hhigh : off ≤ p.length + 2) :
    writeAfterPoll off val ok r = sendSnapshot (patchSnapshot off val r) := by
  obtain ⟨hin, -⟩ := sendPatched_spec (val := val) his hlow hhigh
  rw [writeAfterPoll, hgoes, hin]
  rfl

/-- 44_driver_ops.md R207: with its offset outside the payload held a register write ends after its poll. -/
theorem writeAfterPoll_outside {r : State} (ok : Bool) {off : Nat} (val : Byte) {p : List Byte}
    (his : SnapshotIs r (frameOf p)) (hout : off < 3 ∨ p.length + 2 < off) : writeAfterPoll off val ok r = r := by
  have houtside : outsidePayload off r = true := by
    rw [← Bool.not_eq_false, outsidePayload_eq_false, his.2.1, frameOf_length]
    omega
  rw [writeAfterPoll, houtside]
  split <;> rfl

/-- 44_driver_ops.md R208: a register write that ends early ends with the state of its poll. -/
theorem writeAfterPoll_endsEarly {r : State} {ok : Bool} (off : Nat) (val : Byte) (hends : writeEndsEarly ok r = true) :
    writeAfterPoll off val ok r = r := by
  rw [writeAfterPoll, hends]
  rfl

/-- What a register write has done when the poll brought the frame of `p` and the block has sent that of `q`. -/
structure SentFrame (s t : State) (q : List Byte) : Prop where
  frame : OnlyChanges [.acc, .snap, .snapLen, .snapValid, .stage, .stageLen, .rxq, .txs, .seq, .t0, .now, .hist, .env] s t
  stage : ∀ a, t.stageLen ≤ a → memRead t.stage a = memRead s.stage a
  held : SnapshotIs t (frameOf q)
  txs : t.txs = s.txs ++ [s.cfg.opGetStatus] ++ frameOf q
  rxq : t.rxq = []
  seq : t.seq = .idle
  flushes : flushCount t.hist = flushCount s.hist + 3

/-- 44_driver_ops.md R205, R209: the poll that brings a frame, then the patch at an offset of its payload and the
transmission. -/
theorem sentFrame_of_poll {s : State} {off : Nat} {val : Byte} {p : List Byte} (hok : (pollBody s).1 = true)
    (his : SnapshotIs (pollBody s).2 (frameOf p)) (hlow : 3 ≤ off) (hhigh : off ≤ p.length + 2) :
    SentFrame s (sendSnapshot (patchSnapshot off val (pollBody s).2))
      (patchedPayload p off (writtenByte s.cfg off val)) := by
  obtain ⟨-, hheld, htxs, hflushes, -⟩ := sendPatched_spec (val := val) his hlow hhigh
  rw [pollBody_cfg] at hheld htxs
  refine ⟨?_, ?_, hheld, by rw [htxs, pollBody_txs], by simp, by simp, by rw [hflushes, pollBody_flushCount]⟩
  · exact onlyChanges_mono
      (onlyChanges_trans (onlyChanges_pollBody_committed hok) (onlyChanges_sendPatch_held his hlow hhigh)) (by decide)
  · intro a ha
    rw [sendSnapshot_stage, patchSnapshot_stage]
    exact (pollBody_end s).stageFrame a (by simpa using ha)

/-- What a register write has done when the poll brought the frame of `p` and nothing more was sent. -/
structure KeptPolledFrame (s t : State) (p : List Byte) : Prop where
  frame : OnlyChanges [.acc, .snap, .snapLen, .snapValid, .stage, .stageLen, .rxq, .txs, .seq, .t0, .now, .hist, .env] s t
  stage : ∀ a, t.stageLen ≤ a → memRead t.stage a = memRead s.stage a
  held : SnapshotIs t (frameOf p)
  txs : t.txs = s.txs ++ [s.cfg.opGetStatus]
  flushes : flushCount t.hist = flushCount s.hist + 1

theorem keptPolledFrame_of_poll {s : State} {p : List Byte} (hok : (pollBody s).1 = true)
    (his : SnapshotIs (pollBody s).2 (frameOf p)) : KeptPolledFrame s (pollBody s).2 p :=
  ⟨onlyChanges_pollBody_committed hok, (pollBody_end s).stageFrame, his, pollBody_txs s, pollBody_flushCount s⟩

/-! ## The register write (44_driver_ops.md R205 to R209) -/

/-- A register write on an idle block is its exchange. -/
theorem exec_registerWrite_idle {i : Instr} {s : State} {off : Nat} {val : Byte}
    (hi : registerWrite s.cfg i = some (off, val)) (hidle : s.busy = false) :
    exec i s = .next (deliver .nothing
      (writeAfterPoll off val (pollBody (beginOp s)).1 (pollBody (beginOp s)).2)) :=
  (exec_of_registerWrite hi).trans (writeRun_idle off val hidle)

/-- Settles O33: the poll takes the frame, and the patched frame is sent (`sentFrame_of_poll`). -/
theorem registerWriteSendsPatchedFrame : Obligations.RegisterWriteSendsPatchedFrame := by
  intro i s off val ms p extra hi hidle hp hcap hbrings hlow hhigh
  obtain ⟨hok, his, -⟩ := pollBody_ok (s := beginOp s) hp hcap hbrings
  have hexec := exec_registerWrite_idle hi hidle
  rw [writeAfterPoll_sends val his (by rw [hok]; rfl) hlow hhigh] at hexec
  have hsent := sentFrame_of_poll (val := val) hok his hlow hhigh
  exact ⟨_, _, hexec, onlyChanges_mono (onlyChanges_deliver _ hidle hsent.frame) (by decide), hsent.stage, rfl, hsent.held,
    hsent.txs, hsent.rxq, hsent.seq, rfl, hsent.flushes⟩

/-- Two deliveries differ by what their states do, and by the result. -/
theorem onlyChanges_redeliver {ps : List Part} {u v : State} (r r' : OpResult) (h : OnlyChanges ps u v) :
    OnlyChanges (ps ++ [.result]) (deliver r u) (deliver r' v) := by
  intro p hp
  obtain ⟨hps, hres⟩ : p ∉ ps ∧ p ∉ [Part.result] := by simpa only [List.mem_append, not_or] using hp
  cases p with
  | result => simp at hres
  | busy => rfl
  | _ => exact h _ hps

/-- 43_sequencer.md R188: what a poll that gave false has answered, and that the snapshot is as it was. -/
theorem failed_poll {s u : State} (hpoll : exec .poll s = .next u) (hfalse : u.result = .flag false) :
    s.busy = false ∧ u = deliver (.flag false) (pollBody (beginOp s)).2 ∧ (pollBody (beginOp s)).1 = false ∧
      SameSnapshot s (pollBody (beginOp s)).2 := by
  obtain ⟨hidle, rfl⟩ := pollRun_next ((exec_of_poll (.inl rfl)).symm.trans hpoll)
  have hok : (pollBody (beginOp s)).1 = false := by simpa using hfalse
  rcases pollBody_snapshot (beginOp s) with ⟨-, hsame⟩ | ⟨htrue, -⟩
  · exact ⟨hidle, by rw [hok], hok, hsame.snap, hsame.snapLen, hsame.snapValid⟩
  · rw [hok] at htrue
    cases htrue

/-- Settles O34: an offset outside the payload held ends the write after its poll (`writeAfterPoll_outside`). -/
theorem registerWriteRefusesOffset : Obligations.RegisterWriteRefusesOffset := by
  constructor
  · intro i s off val ms p extra hi hidle hp hcap hbrings hout
    obtain ⟨hok, his, -⟩ := pollBody_ok (s := beginOp s) hp hcap hbrings
    have hexec := exec_registerWrite_idle hi hidle
    rw [writeAfterPoll_outside _ val his hout] at hexec
    have hkept := keptPolledFrame_of_poll hok his
    exact ⟨_, hexec, onlyChanges_mono (onlyChanges_deliver _ hidle hkept.frame) (by decide), hkept.stage, hkept.held,
      hkept.txs, rfl, hkept.flushes⟩
  · intro i s u off val p hi hpoll hfalse _ _ his hout
    obtain ⟨hidle, rfl, -, hsame⟩ := failed_poll hpoll hfalse
    have hexec := exec_registerWrite_idle hi hidle
    rw [writeAfterPoll_outside _ val (hsame.snapshotIs his) hout] at hexec
    exact ⟨_, hexec, onlyChanges_redeliver _ _ (onlyChanges_refl [] _), hsame.snapshotIs his, pollBody_txs (beginOp s), rfl⟩

/-- Settles O35: the policy of R208 decides whether the write ends with its failed poll or goes on with the stale
frame. -/
theorem registerWriteAfterFailedPoll : Obligations.RegisterWriteAfterFailedPoll := by
  intro i s u off val hi hpoll hfalse
  obtain ⟨hidle, rfl, hok, hsame⟩ := failed_poll hpoll hfalse
  have hexec := exec_registerWrite_idle hi hidle
  refine ⟨fun hends => ?_, fun p hp his hproceed hlow hhigh => ?_⟩
  · have hearly : writeEndsEarly (pollBody (beginOp s)).1 (pollBody (beginOp s)).2 = true := by
      rw [writeEndsEarly, hok, hsame.snapValid, pollBody_cfg, beginOp_cfg]
      simpa using hends
    rw [writeAfterPoll_endsEarly off val hearly] at hexec
    exact ⟨_, hexec, onlyChanges_redeliver _ _ (onlyChanges_refl [] _), hsame.kept, pollBody_txs (beginOp s), rfl⟩
  · have hgoes : writeEndsEarly (pollBody (beginOp s)).1 (pollBody (beginOp s)).2 = false := by
      rw [writeEndsEarly, hok, hsame.snapValid, pollBody_cfg, beginOp_cfg, his.1, hproceed]
      rfl
    have hstale : SnapshotIs (pollBody (beginOp s)).2 (frameOf p) := hsame.snapshotIs his
    rw [writeAfterPoll_sends val hstale hgoes hlow hhigh] at hexec
    obtain ⟨-, hheld, htxs, hflushes, -⟩ := sendPatched_spec (val := val) hstale hlow hhigh
    rw [pollBody_cfg] at hheld htxs
    have hframe := onlyChanges_redeliver (.flag false) .nothing (onlyChanges_sendPatch_held (val := val) hstale hlow hhigh)
    refine ⟨_, _, hexec, onlyChanges_mono hframe (by decide), rfl, hheld, ?_, by simp, rfl, hflushes⟩
    rw [deliver_txs, htxs, pollBody_txs]
    rfl

/-- The frame of every register write: that of a poll, and the free values the patch may draw. -/
theorem onlyChanges_writeBody (off : Nat) (val : Byte) (s : State) :
    OnlyChanges [.acc, .snap, .snapLen, .snapValid, .stage, .stageLen, .rxq, .txs, .seq, .t0, .now, .cause, .hist, .env,
      .draws] s (writeBody off val s) := by
  rcases writeBody_cases off val s with ⟨-, h⟩ | ⟨-, -, h⟩ | ⟨-, -, h⟩ <;> rw [h]
  · exact onlyChanges_mono (onlyChanges_pollBody s) (by decide)
  · exact onlyChanges_mono (onlyChanges_pollBody s) (by decide)
  · exact onlyChanges_mono (onlyChanges_trans (onlyChanges_pollBody s) (onlyChanges_sendPatch off val _)) (by decide)

/-- A register write never clears `snap_valid`. -/
theorem writeBody_snapValid_of_poll {off : Nat} {val : Byte} {s : State} (h : (pollBody s).2.snapValid = true) :
    (writeBody off val s).snapValid = true := by
  rcases writeBody_snapshot off val s with hsame | ⟨hvalid, -, -, hsame⟩
  · exact hsame.snapValid.trans h
  · rw [hsame.snapValid, patchSnapshot_snapValid]
    exact hvalid

/-- A register write stages nothing but in its poll. -/
theorem writeBody_staging (off : Nat) (val : Byte) (s : State) :
    (writeBody off val s).stage = (pollBody s).2.stage ∧ (writeBody off val s).stageLen = (pollBody s).2.stageLen := by
  rcases writeBody_cases off val s with ⟨-, h⟩ | ⟨-, -, h⟩ | ⟨-, -, h⟩ <;> rw [h] <;> simp

/-- Settles O36: the frame of the write, and what goes out after the request (`writeBody_txs`). -/
theorem registerWriteCompletes : Obligations.RegisterWriteCompletes := by
  intro i s off val hi hidle
  have hexec : exec i s = .next (deliver .nothing (writeBody off val (beginOp s))) :=
    (exec_of_registerWrite hi).trans (writeRun_idle off val hidle)
  obtain ⟨hstage, hlen⟩ := writeBody_staging off val (beginOp s)
  refine ⟨_, hexec, onlyChanges_mono (onlyChanges_deliver _ hidle (onlyChanges_writeBody off val _)) (by decide), rfl,
    writeBody_seq off val _, fun hv => ?_, fun a ha => ?_, writeBody_txs off val (beginOp s)⟩
  · exact writeBody_snapValid_of_poll (pollBody_snapValid (s := beginOp s) hv)
  · rw [deliver_stageLen, hlen] at ha
    rw [deliver_stage, hstage]
    exact (pollBody_end (beginOp s)).stageFrame a ha

/-! ## The field read (44_driver_ops.md R210, R216, R217) -/

/-- 44_driver_ops.md R210: the frame of a field read is that of a poll, and the free value it may draw. -/
theorem onlyChanges_readBody (f : Field) (s : State) :
    OnlyChanges [.acc, .snap, .snapLen, .snapValid, .stage, .stageLen, .rxq, .txs, .seq, .t0, .now, .cause, .hist, .env,
      .draws] s (readBody f s).2 := by
  have hread : OnlyChanges [.draws] (pollBody s).2 (readBody f s).2 := by
    intro p hp
    cases p with
    | draws => simp at hp
    | _ => simp [samePart]
  exact onlyChanges_mono (onlyChanges_trans (onlyChanges_pollBody s) hread) (by decide)

/-- Settles O39: the two ends of the read's poll; a frame that holds the field gives its number (`readAfterPoll_held`). -/
theorem fieldReadCompletes : Obligations.FieldReadCompletes := by
  intro i s f hi hidle
  have hend := pollBody_end (beginOp s)
  refine ⟨(pollBody (beginOp s)).1, _, _, (exec_of_fieldRead hi).trans (readRun_idle f hidle),
    onlyChanges_mono (onlyChanges_deliver _ hidle (onlyChanges_readBody f _)) (by decide), rfl, ?_, ?_, ?_, ?_, ?_⟩
  · rw [deliver_txs, readBody_txs, pollBody_txs]
    rfl
  · rw [deliver_seq, readBody_seq, pollBody_seq]
  · intro a ha
    rw [deliver_stageLen, readBody_stageLen] at ha
    rw [deliver_stage, readBody_stage]
    exact hend.stageFrame a ha
  · intro hok
    obtain ⟨hsnap, hlen, hvalid, hcause⟩ := hend.failed hok
    rw [readBody_of_failed hok]
    exact ⟨rfl, SameSnapshot.kept ⟨hsnap, hlen, hvalid⟩, hend.draws, hcause.imp_left And.left⟩
  · intro hok
    obtain ⟨hcause, p, hp, -, his, -⟩ := hend.committed hok
    refine ⟨by rw [deliver_cause, readBody_cause]; exact hcause, p, hp, ?_, fun w hw => ?_⟩
    · exact SameSnapshot.snapshotIs ⟨by simp, by simp, by simp⟩ his
    · have hread : readAfterPoll f (pollBody (beginOp s)).2 = (w, (pollBody (beginOp s)).2) :=
        readAfterPoll_held his (by rw [pollBody_cfg]; exact hw)
      rw [readBody, if_pos hok, hread]

/-! ## The register-write frame (30_encoding.md R98) -/

/-- A frame for which operands are found is the register write with those operands. -/
theorem writeFrameBody_of_some {s : State} {q : List Byte} {off : Nat} {val : Byte}
    (h : frameArguments q (pollBody s).2 = some (off, val)) :
    writeFrameBody q s = writeAfterPoll off val (pollBody s).1 (pollBody s).2 := by
  rw [writeFrameBody, h]

/-- A frame for which none are found ends after its poll. -/
theorem writeFrameBody_of_none {s : State} {q : List Byte} (h : frameArguments q (pollBody s).2 = none) :
    writeFrameBody q s = (pollBody s).2 := by
  rw [writeFrameBody, h]

/-- The operands found for a frame that some register write makes of the one held make that frame. -/
theorem frameArguments_of_patched {r : State} {p : List Byte} {off : Nat} (val : Byte) (his : SnapshotIs r (frameOf p))
    (hlow : 3 ≤ off) (hhigh : off ≤ p.length + 2) :
    ∃ off' val', frameArguments (patchedPayload p off (writtenByte r.cfg off val)) r = some (off', val') ∧ 3 ≤ off' ∧
      off' ≤ p.length + 2 ∧
      patchedPayload p off (writtenByte r.cfg off val) = patchedPayload p off' (writtenByte r.cfg off' val') := by
  have hlen : r.snapLen = p.length + 4 := his.2.1.trans (frameOf_length p)
  obtain ⟨⟨off', val'⟩, hargs⟩ := frameArguments_patched val hlen (fun a _ => his.2.2 a) hlow hhigh
  exact ⟨off', val', hargs, frameArguments_some hlen (fun a _ => his.2.2 a) hargs⟩

/-- 44_driver_ops.md R205: the transmission of a frame held is one write of it between two flushes. -/
theorem sendSnapshot_hist_held {r : State} {off : Nat} {val : Byte} {p : List Byte} (his : SnapshotIs r (frameOf p))
    (hlow : 3 ≤ off) (hhigh : off ≤ p.length + 2) :
    ∃ h', WriteFollows r.hist h' (frameOf (patchedPayload p off (writtenByte r.cfg off val))) ∧
      FlushFollows h' (sendSnapshot (patchSnapshot off val r)).hist := by
  obtain ⟨-, ⟨-, hlen, hread⟩, -⟩ := sendPatched_spec (val := val) his hlow hhigh
  have hview : bufView (patchSnapshot off val r) .snap (patchSnapshot off val r).snapLen =
      frameOf (patchedPayload p off (writtenByte r.cfg off val)) := by
    refine memView_eq (by simpa using hlen.symm) fun a _ => ?_
    rw [← hread a, sendSnapshot_snap]
  obtain ⟨h', hwrite, hflush⟩ := sendSnapshot_hist (patchSnapshot off val r)
  rw [hview, patchSnapshot_hist] at hwrite
  exact ⟨h', hwrite, hflush⟩

/-- 44_driver_ops.md R205 to R208: whatever a register-write frame finds in the snapshot, what goes out after its
request is that frame or nothing. -/
theorem writeFrameBody_txs {s : State} {q : List Byte} (hs : SnapshotFrameValid s) :
    (writeFrameBody q s).txs = s.txs ++ [s.cfg.opGetStatus] ∨
    (writeFrameBody q s).txs = s.txs ++ [s.cfg.opGetStatus] ++ frameOf q := by
  cases hargs : frameArguments q (pollBody s).2 with
  | none => exact .inl (by rw [writeFrameBody_of_none hargs, pollBody_txs])
  | some w =>
    obtain ⟨off, val⟩ := w
    have hbody : writeFrameBody q s = writeBody off val s := writeFrameBody_of_some hargs
    rw [hbody]
    rcases writeBody_cases off val s with ⟨-, h⟩ | ⟨-, -, h⟩ | ⟨hgoes, -, h⟩ <;> rw [h]
    · exact .inl (pollBody_txs s)
    · exact .inl (pollBody_txs s)
    · right
      have hvalid := snapValid_of_writeGoesOn hgoes
      obtain ⟨_, ⟨p, -, rfl⟩, hlen, hread⟩ := pollBody_frameValid hs hvalid
      rw [hlen] at hread
      rw [frameOf_length] at hlen hread
      obtain ⟨hlow, hhigh, hq⟩ := frameArguments_some hlen hread hargs
      rw [sendPatched_txs hvalid hlen hread hlow hhigh, ← hq, pollBody_txs]

/-- Settles O47: with operands found the frame is a register write's, with none it ends after the poll. -/
theorem registerWriteFrameSends : Obligations.RegisterWriteFrameSends := by
  refine ⟨?_, ?_, ?_⟩
  · rintro s ms p _ extra off val hidle hp hcap hbrings hlow hhigh rfl
    obtain ⟨hok, his, -⟩ := pollBody_ok (s := beginOp s) hp hcap hbrings
    obtain ⟨off', val', hargs, hlow', hhigh', hsame⟩ := frameArguments_of_patched val his hlow hhigh
    obtain ⟨h', hwrite, hflush⟩ := sendSnapshot_hist_held (val := val') his hlow' hhigh'
    rw [pollBody_cfg, beginOp_cfg] at hargs hsame hwrite
    have hsent := sentFrame_of_poll (val := val') hok his hlow' hhigh'
    rw [beginOp_cfg, ← hsame] at hsent
    rw [← hsame] at hwrite
    have hlen : (patchedPayload p off (writtenByte s.cfg off val)).length ≤ 255 := by
      rwa [patchedPayload, List.length_set]
    have hexec := execRegisterWriteFrame_idle hlen hidle
    rw [writeFrameBody_of_some hargs, writeAfterPoll_sends val' his (by rw [hok]; rfl) hlow' hhigh'] at hexec
    exact ⟨_, (pollBody (beginOp s)).2.hist, h', hexec,
      onlyChanges_mono (onlyChanges_deliver _ hidle hsent.frame) (by decide), hsent.stage, hsent.held, hsent.txs, hsent.rxq,
      hsent.seq, rfl, hsent.flushes, pollBody_flushCount (beginOp s), hwrite, hflush⟩
  · intro s ms p q extra hidle hp hq hcap hbrings hother
    obtain ⟨hok, his, -⟩ := pollBody_ok (s := beginOp s) hp hcap hbrings
    have hargs : frameArguments q (pollBody (beginOp s)).2 = none := by
      refine Option.eq_none_iff_forall_ne_some.2 fun ⟨off, val⟩ hsome => ?_
      obtain ⟨hlow, hhigh, hmade⟩ :=
        frameArguments_some (his.2.1.trans (frameOf_length p)) (fun a _ => his.2.2 a) hsome
      rw [pollBody_cfg] at hmade
      exact hother off val hlow hhigh hmade
    have hexec := execRegisterWriteFrame_idle hq hidle
    rw [writeFrameBody_of_none hargs] at hexec
    have hkept := keptPolledFrame_of_poll hok his
    exact ⟨_, hexec, onlyChanges_mono (onlyChanges_deliver _ hidle hkept.frame) (by decide), hkept.stage, hkept.held,
      hkept.txs, rfl, hkept.flushes⟩
  · intro s q hidle hq hs
    refine ⟨_, execRegisterWriteFrame_idle hq hidle, rfl, ?_, writeFrameBody_txs (s := beginOp s) hs⟩
    obtain ⟨off, val, hbody⟩ := writeFrameBody_eq q (beginOp s)
    rw [deliver_seq, hbody, writeBody_seq]

/-! ## The path of `seq` (43_sequencer.md R189) -/

/-- What an instruction that polls has of its poll in the end: the moves of `seq`, the cause, the length of the frame
being received, the validity of the snapshot, and, for a poll by itself, the result. -/
structure FollowsPoll (i : Instr) (s t : State) : Prop where
  moves : seqMoves t.hist = seqMoves (pollBody (beginOp s)).2.hist
  cause : t.cause = (pollBody (beginOp s)).2.cause
  stageLen : t.stageLen = (pollBody (beginOp s)).2.stageLen
  valid : (pollBody (beginOp s)).2.snapValid = true → t.snapValid = true
  result : i = .poll ∨ i = .getStatus → t.result = .flag (pollBody (beginOp s)).1

/-- A register write or its frame is no poll by itself. -/
theorem ne_poll_of_write {c : Config} {i : Instr} {w : Nat × Byte}
    (h : registerWrite c i = some w ∨ ∃ p, i = .registerWriteFrame p) : ¬(i = .poll ∨ i = .getStatus) := by
  rintro (rfl | rfl) <;> simp [registerWrite] at h

/-- A field read is no poll by itself. -/
theorem ne_poll_of_field {i : Instr} {f : Field} (h : fieldRead i = some f) : ¬(i = .poll ∨ i = .getStatus) := by
  rintro (rfl | rfl) <;> simp [fieldRead] at h

/-- The three kinds of path: an instruction that polls has its poll's, a probe and a command go to AwaitHeader and back,
and nothing else moves `seq`. -/
theorem RunsTo.seqPath {s t : State} {i : Instr} (h : RunsTo s i t) :
    (polls i = true ∧ FollowsPoll i s t) ∨
    ((i = .temp ∨ i = .getTemp ∨ (commandOpcode s.cfg i).isSome = true) ∧
      seqMoves t.hist = seqMoves s.hist ++ [.awaitHeader, .idle]) ∨
    (NoRequest s.cfg i ∧ seqMoves t.hist = seqMoves s.hist) := by
  cases h with
  | poll hi =>
    refine .inl ⟨?_, rfl, rfl, rfl, id, fun _ => rfl⟩
    rcases hi with rfl | rfl <;> rfl
  | write off val hi =>
    obtain ⟨-, hlen⟩ := writeBody_staging off val (beginOp s)
    exact .inl ⟨polls_of_write hi, by simp, by simp, hlen, writeBody_snapValid_of_poll,
      fun hpoll => absurd hpoll (ne_poll_of_write hi)⟩
  | field f hi =>
    exact .inl ⟨polls_of_field hi, by simp, by simp, by simp, by simp, fun hpoll => absurd hpoll (ne_poll_of_field hi)⟩
  | temp hi => exact .inr (.inl ⟨hi.imp_right .inl, by simp⟩)
  | command hop => exact .inr (.inl ⟨.inr (.inr (by rw [hop]; rfl)), by simp⟩)
  | sendThenFlush bs hno => exact .inr (.inr ⟨hno, by simp⟩)
  | lrc r b n hno | view r b n hno | tempView r b n hno => exact .inr (.inr ⟨hno, by simp⟩)
  | report r hno => exact .inr (.inr ⟨hno, by simp⟩)
  | lrcStore | flush | send | await => exact .inr (.inr ⟨⟨rfl, by simp, rfl⟩, by simp⟩)
  | read n =>
    refine .inr (.inr ⟨⟨rfl, by simp, rfl⟩, ?_⟩)
    rw [deliver_hist, pop_hist, seqMoves_append]
    exact List.append_nil _
  | arrival bs hline => exact .inr (.inr ⟨noRequest_of_lineEvent hline, by simp⟩)
  | departure bs hline =>
    refine .inr (.inr ⟨noRequest_of_lineEvent hline, ?_⟩)
    rw [tx_hist, seqMoves_append]
    exact List.append_nil _

/-- A probe or a command does not poll. -/
theorem polls_of_probe_or_command {c : Config} {i : Instr}
    (h : i = .temp ∨ i = .getTemp ∨ (commandOpcode c i).isSome = true) : polls i = false := by
  rcases h with rfl | rfl | hop
  · rfl
  · rfl
  · cases hp : polls i with
    | false => rfl
    | true =>
      rw [commandOpcode_of_polls hp] at hop
      cases hop

/-- Settles O60: the three kinds of path (`RunsTo.seqPath`), with the poll's own three ends (`pollBody_path`). -/
theorem sequencerPath : Obligations.SequencerPath := by
  intro i s t hexec
  rcases (exec_runsTo hexec).seqPath with ⟨hpolls, hfollows⟩ | ⟨hkind, hmoves⟩ | ⟨hno, hmoves⟩
  · obtain ⟨hmoves, hcause, hlen, hvalid, hresult⟩ := hfollows
    refine ⟨fun _ => ?_, fun hkind => ?_, fun hno => ?_⟩
    · rw [hmoves, hcause, hlen]
      rcases pollBody_path (beginOp s) with ⟨hok, hpath⟩ | ⟨hok, hpath, hend⟩ | ⟨hok, hpath, hend⟩ <;> rw [hok] at hresult
      · obtain ⟨-, p, -, -, his, -⟩ := (pollBody_end (beginOp s)).committed hok
        exact .inl ⟨hpath, hvalid his.1, hresult⟩
      · exact .inr (.inl ⟨hpath, hresult, hend⟩)
      · exact .inr (.inr ⟨hpath, hresult, hend⟩)
    · rw [polls_of_probe_or_command hkind] at hpolls
      cases hpolls
    · rw [hpolls] at hno
      cases hno
  · refine ⟨fun hpolls => ?_, fun _ => hmoves, fun _ hnoTemp hnoGetTemp hnoCommand => ?_⟩
    · rw [polls_of_probe_or_command hkind] at hpolls
      cases hpolls
    · rcases hkind with h | h | h
      · exact absurd h hnoTemp
      · exact absurd h hnoGetTemp
      · rw [hnoCommand] at h
        cases h
  · obtain ⟨hnoPoll, ⟨hnoTemp, hnoGetTemp⟩, hnoCommand⟩ := hno
    refine ⟨fun hpolls => ?_, fun hkind => ?_, fun _ _ _ _ => hmoves⟩
    · rw [hnoPoll] at hpolls
      cases hpolls
    · rcases hkind with h | h | h
      · exact absurd h hnoTemp
      · exact absurd h hnoGetTemp
      · rw [hnoCommand] at h
        cases h

end Sys2Proof.Machine
